-- ==== Sys2Proof/Word.lean ====
section
/-!
DEFINITION. The two word types of LZW-DEC: a byte of the input, output, buffer or stack spaces, and a code
(spec 00_scope R8: a code is an unsigned integer in [0, 2^16)).
-/

namespace Sys2Proof

/-- A byte; bit `j` weighs `2^j` (R14). -/
abbrev Byte := BitVec 8

/-- A code, zero-extended to 16 bits (R93). -/
abbrev Code := BitVec 16

end Sys2Proof
end

