-- ==== Sys2Proof/Config.lean ====
section
/-!
DEFINITION. What is fixed for the block: the format's constants (R8), the sizes (R10), the one parameter of item U9,
and the free values of registers that the command `RESET` leaves unspecified (R270, R44).
-/

namespace Sys2Proof.Config

/-- Header byte 0 of every stream (R8). -/
def magic0 : Byte := 0x1F

/-- Header byte 1 of every stream (R8). -/
def magic1 : Byte := 0x9D

/-- `INIT_BITS`, the code width at the start of the body and after every CLEAR (R8). -/
@[simp] abbrev initBits : Nat := 9

/-- `MIN_MAXBITS` (R8). -/
@[simp] abbrev minMaxbits : Nat := 9

/-- `MAX_MAXBITS` (R8). -/
@[simp] abbrev maxMaxbits : Nat := 16

/-- `LITERALS`: codes below this one are literal bytes (R8). -/
@[simp] abbrev literals : Nat := 256

/-- `CLEAR`, the code reserved when `BLOCK = 1` (R8). -/
@[simp] abbrev clear : Nat := 256

/-- `BUF_BYTES`, the size of the reader's buffer (R10). -/
@[simp] abbrev bufBytes : Nat := 16

/-- `STK_BYTES`, the depth of the string stack (R10). -/
@[simp] abbrev stkBytes : Nat := 65536

/-- The number of locations of the dictionary RAM (R10). -/
@[simp] abbrev ramLocations : Nat := 65536

/-- `ALLOW_MAXBITS9_FULL` of 93_implementation_defined.md U9, at its default: `true` is this spec's rule D12, a
stream with `maxBits = 9` fills its table and stays at width 9. DESIGN CHOICE, unsafe (log entry 8). -/
def allowMaxbits9Full : Bool := true

/-! Free values (log entry 3): `RESET` makes these registers unspecified (R270); the argument counts the resets. -/

/-- What `MAXBITS` holds after the n-th `RESET`. -/
opaque freeMaxbits : Nat → BitVec 5
/-- What `BLOCK` holds after the n-th `RESET`. -/
opaque freeBlock : Nat → Bool
/-- What `CODEWIDTH` holds after the n-th `RESET`. -/
opaque freeCodewidth : Nat → BitVec 5
/-- What `MAXCODE` holds after the n-th `RESET`. -/
opaque freeMaxcode : Nat → BitVec 17
/-- What `NEXTFREE` holds after the n-th `RESET`. -/
opaque freeNextfree : Nat → BitVec 17
/-- What `LASTCODE` holds after the n-th `RESET`. -/
opaque freeLastcode : Nat → Code
/-- What `LASTFIRST` holds after the n-th `RESET`. -/
opaque freeLastfirst : Nat → Byte
/-- What `BUF[0..15]` holds after the n-th `RESET`. -/
opaque freeBuf : Nat → Vector Byte 16

end Sys2Proof.Config
end

