-- ==== Sys2Proof/Syntax.lean ====
section
/-!
DEFINITION. The instructions of LZW-DEC: one constructor for each of the 26 rows of spec/opcode_table.json. The stream's
items (format H headers and codes, R90) carry their fields; the host commands (R13) and the internal operations carry
the operands their rules give them.
-/

namespace Sys2Proof

/-- One row of spec/opcode_table.json each; the row's mnemonic stands in the docstring. -/
inductive Instr where
  /-- `HEADER`: a legal 3-byte header with its control byte's fields (R91, R126). -/
  | header (block : Bool) (spare : BitVec 2) (maxbits : BitVec 5)
  /-- `HEADER.BAD_MAGIC`: three bytes whose first two are not the magic (R122). -/
  | headerBadMagic (magic0 magic1 control : Byte)
  /-- `HEADER.WIDTH_TOO_LARGE`: magic present, `maxbits` 17 to 31 (R124). -/
  | headerWidthTooLarge (block : Bool) (spare : BitVec 2) (maxbits : BitVec 5)
  /-- `HEADER.WIDTH_TOO_SMALL`: magic present, `maxbits` 0 to 8 (R124). -/
  | headerWidthTooSmall (block : Bool) (spare : BitVec 2) (maxbits : BitVec 5)
  /-- `HEADER.SHORT`: the fewer than three bytes that the stream holds (R125). -/
  | headerShort (present : List Byte)
  /-- `FIRST`: the first code, a literal (R192). -/
  | first (b : Byte)
  /-- `FIRST.INVALID`: the first code is 256 or more (R192). -/
  | firstInvalid (c : Code)
  /-- `POSTCLR`: the literal after a CLEAR (R195). -/
  | postclr (b : Byte)
  /-- `POSTCLR.INVALID`: the code after a CLEAR is 256 or more (R195). -/
  | postclrInvalid (c : Code)
  /-- `CLR`: code 256 in block mode (R194). -/
  | clr
  /-- `LIT`: a literal (R197). -/
  | lit (b : Byte)
  /-- `KWK`: the code equal to `NEXTFREE` (R199). -/
  | kwk (c : Code)
  /-- `REF`: a stored entry (R198). -/
  | ref (c : Code)
  /-- `CODE.OUT_OF_RANGE`: a code above `NEXTFREE` (R200). -/
  | codeOutOfRange (c : Code)
  /-- `EOS`: a refill returned no byte (R193). -/
  | eos
  /-- `RESET`, host command (R270). -/
  | resetCommand
  /-- `OPEN`, host command (R121). -/
  | openCommand
  /-- `DECODE_NEXT`, host command (R191). -/
  | decodeNext
  /-- `NEXTCODE`, internal (R141). -/
  | nextcode
  /-- `SIGNAL_REFILL`, internal (R143). -/
  | signalRefill
  /-- `REFILL`, internal (R144). -/
  | refill
  /-- `EXTRACT`, internal (R147). -/
  | extract
  /-- `DT_RESET`, internal (R171). -/
  | dtReset
  /-- `DT_APPEND(p, s)`, internal (R172). -/
  | dtAppend (p : Code) (s : Byte)
  /-- `DT_RESOLVE(a)`, internal (R174). -/
  | dtResolve (a : Code)
  /-- `STRING(a)`, internal (R178). -/
  | string (a : Code)
  deriving DecidableEq, Repr

end Sys2Proof
end

