-- ==== Sys2Proof/WellFormed.lean ====
section
/-!
DEFINITION. The checks an instruction meets as syntax, whatever the state: the ranges that spec/opcode_table.json gives
each row (R91, R99, R101). The conditions on the state (R99) are checked by the meanings.
-/

namespace Sys2Proof

/-- The two magic bytes of format H (R91). -/
def isMagic (m0 m1 : Byte) : Bool := m0 == Config.magic0 && m1 == Config.magic1

/-- The ranges of the row's fields: `maxbits` of the three headers with the magic (R91), the magic of a bad header
(R122), the length of a short one (R125), a code of 256 or more in every row that is no literal (R99), a code of at
most nine bits in the two rows that occur at width 9 only (formats C9 of the table). -/
def WellFormed : Instr → Bool
  | .header _ _ mb => decide (Config.minMaxbits ≤ mb.toNat) && decide (mb.toNat ≤ Config.maxMaxbits)
  | .headerBadMagic m0 m1 _ => !isMagic m0 m1
  | .headerWidthTooLarge _ _ mb => decide (Config.maxMaxbits < mb.toNat)
  | .headerWidthTooSmall _ _ mb => decide (mb.toNat < Config.minMaxbits)
  | .headerShort present => decide (present.length < 3)
  | .first _ => true
  | .firstInvalid c => decide (Config.literals ≤ c.toNat) && decide (c.toNat < 2 ^ Config.initBits)
  | .postclr _ => true
  | .postclrInvalid c => decide (Config.literals ≤ c.toNat) && decide (c.toNat < 2 ^ Config.initBits)
  | .clr => true
  | .lit _ => true
  | .kwk c => decide (Config.literals ≤ c.toNat)
  | .ref c => decide (Config.literals ≤ c.toNat)
  | .codeOutOfRange c => decide (Config.literals < c.toNat)
  | .eos => true
  | .resetCommand => true
  | .openCommand => true
  | .decodeNext => true
  | .nextcode => true
  | .signalRefill => true
  | .refill => true
  | .extract => true
  | .dtReset => true
  | .dtAppend _ _ => true
  | .dtResolve _ => true
  | .string _ => true

end Sys2Proof
end

