-- ==== Sys2Proof/Decode.lean ====
section
/-!
DEFINITION. From bits to instructions and back: the bit fields of a byte sequence (R14, R67), the header's decoder
(format H, R91, R92), the assembly of a code from bytes in both of the spec's forms (R94, R147, R148), the class of a
code (R99), the encoder of both formats, the packing procedure `ASSEMBLE` with its stream notation (R104, R105), and the
opcode table's own numbering (`decodeTableWord`).
-/

namespace Sys2Proof

/-! ## Bits of a byte sequence -/

/-- `bit(B, i) = B[i div 8][i mod 8]` (R14); `false` outside `B`, which no caller asks for (R150). -/
def bitAt (bs : List Byte) (i : Nat) : Bool :=
  match bs[i / 8]? with
  | some b => b.getLsbD (i % 8)
  | none => false

/-- The `w`-bit code that starts at bit `q`: the sum over `j < w` of `bit(B, q + j) * 2^j` (R67, R147). -/
def codeAt (bs : List Byte) (q : Nat) : Nat → Nat
  | 0 => 0
  | w + 1 => codeAt bs q w + (bitAt bs (q + w)).toNat * 2 ^ w

/-- The byte at index `i` as a number; 0 outside the sequence, which no caller asks for (R150). -/
def byteNat (bs : List Byte) (i : Nat) : Nat := (bs[i]?.getD 0).toNat

/-- The shift-register form of the extraction (R148): the last byte used is the one masked (90_conflicts.md C5). -/
def codeAtShift (bs : List Byte) (q w : Nat) : Nat :=
  let i := q / 8
  let r := q % 8
  let c := byteNat bs i >>> r
  let got := 8 - r
  let rem := w - got
  if 8 ≤ rem then
    let c := c ||| (byteNat bs (i + 1) <<< got)
    if 0 < rem - 8 then c ||| ((byteNat bs (i + 2) % 2 ^ (rem - 8)) <<< (got + 8)) else c
  else c ||| ((byteNat bs (i + 1) % 2 ^ rem) <<< got)

/-- The least width at which a code is legal is `INIT_BITS`, the greatest `MAX_MAXBITS` (R93). -/
def legalWidth (w : Nat) : Bool := decide (Config.initBits ≤ w) && decide (w ≤ Config.maxMaxbits)

/-- `maxcode_of(w, mb)` (R11). -/
def maxcodeOf (w mb : Nat) : Nat := if w = mb then 2 ^ mb else 2 ^ w - 1

/-! ## Format H -/

/-- What the first bytes of a stream are, one case for each row of the table in format H. -/
inductive HeaderItem where
  | accepted (block : Bool) (spare : BitVec 2) (maxbits : BitVec 5)
  | badMagic (magic0 magic1 control : Byte)
  | widthTooLarge (block : Bool) (spare : BitVec 2) (maxbits : BitVec 5)
  | widthTooSmall (block : Bool) (spare : BitVec 2) (maxbits : BitVec 5)
  | short (present : List Byte)
  deriving DecidableEq, Repr

/-- `block = c[7]` (R92). -/
def controlBlock (c : Byte) : Bool := c.getLsbD 7

/-- `c[6:5]`, "unused/ignored" (R91). -/
def controlSpare (c : Byte) : BitVec 2 := c.extractLsb' 5 2

/-- `maxbits = c[4:0]` (R92). -/
def controlMaxbits (c : Byte) : BitVec 5 := c.extractLsb' 0 5

/-- The item that the answer of `ReadBytes(3)` is, with the checks in the order of R127: short header, magic, width too
large, width too small. The answer has at most three bytes (R62). -/
def decodeHeader : List Byte → HeaderItem
  | m0 :: m1 :: c :: _ =>
    if !isMagic m0 m1 then .badMagic m0 m1 c
    else if Config.maxMaxbits < (controlMaxbits c).toNat then
      .widthTooLarge (controlBlock c) (controlSpare c) (controlMaxbits c)
    else if (controlMaxbits c).toNat < Config.minMaxbits then
      .widthTooSmall (controlBlock c) (controlSpare c) (controlMaxbits c)
    else .accepted (controlBlock c) (controlSpare c) (controlMaxbits c)
  | bs => .short bs

/-- The instruction of a header item. -/
def headerInstr : HeaderItem → Instr
  | .accepted block spare maxbits => .header block spare maxbits
  | .badMagic m0 m1 c => .headerBadMagic m0 m1 c
  | .widthTooLarge block spare maxbits => .headerWidthTooLarge block spare maxbits
  | .widthTooSmall block spare maxbits => .headerWidthTooSmall block spare maxbits
  | .short present => .headerShort present

/-! ## Formats C9 to C16 -/

/-- The class of a code, one case for each code row of the table. -/
inductive CodeItem where
  | first (b : Byte)
  | firstInvalid (c : Code)
  | postclr (b : Byte)
  | postclrInvalid (c : Code)
  | clr
  | lit (b : Byte)
  | kwk (c : Code)
  | ref (c : Code)
  | outOfRange (c : Code)
  deriving DecidableEq, Repr

/-- What of the state the class of a code depends on (R99, R100). -/
structure CodeContext where
  /-- `STATE = Start`. -/
  start : Bool
  /-- `PENDING_CLEAR`. -/
  pendingClear : Bool
  /-- `BLOCK`. -/
  block : Bool
  /-- `NEXTFREE`. -/
  nextfree : Nat
  deriving DecidableEq, Repr

/-- A code below 256 denotes a literal byte (R99). -/
def isLiteral (c : Code) : Bool := decide (c.toNat < Config.literals)

/-- The operand of a literal, `c[7:0]` (R103). -/
def literalByte (c : Code) : Byte := c.extractLsb' 0 8

/-- `FIRST = 256 + BLOCK`, the index of the first dictionary entry (R9). -/
def firstIndex (block : Bool) : Nat := Config.literals + block.toNat

/-- The code is `CLEAR` and `CLEAR` is honoured (R99 line 5). -/
def isClear (block : Bool) (c : Code) : Bool := block && decide (c.toNat = Config.clear)

/-- The class of a code: the first line of R99 whose condition holds. -/
def classify (x : CodeContext) (c : Code) : CodeItem :=
  if x.start then
    if isLiteral c then .first (literalByte c) else .firstInvalid c
  else if x.pendingClear then
    if isLiteral c then .postclr (literalByte c) else .postclrInvalid c
  else if isClear x.block c then .clr
  else if isLiteral c then .lit (literalByte c)
  else if c.toNat = x.nextfree then .kwk c
  else if firstIndex x.block ≤ c.toNat ∧ c.toNat < x.nextfree then .ref c
  else .outOfRange c

/-- The instruction of a classified code. -/
def codeInstr : CodeItem → Instr
  | .first b => .first b
  | .firstInvalid c => .firstInvalid c
  | .postclr b => .postclr b
  | .postclrInvalid c => .postclrInvalid c
  | .clr => .clr
  | .lit b => .lit b
  | .kwk c => .kwk c
  | .ref c => .ref c
  | .outOfRange c => .codeOutOfRange c

/-! ## The encoder -/

/-- The control byte `bssmmmmm` (R91). -/
def controlByte (block : Bool) (spare : BitVec 2) (maxbits : BitVec 5) : Byte :=
  BitVec.ofBool block ++ spare ++ maxbits

/-- A header with the magic. -/
def headerBytes (block : Bool) (spare : BitVec 2) (maxbits : BitVec 5) : List Byte :=
  [Config.magic0, Config.magic1, controlByte block spare maxbits]

/-- The 16-bit value of a literal: `00000000 bbbbbbbb` (R100). -/
def literalCode (b : Byte) : Code := b.zeroExtend 16

/-- The 16-bit value of a code instruction, as spec/opcode_table.json writes it; `none` for the rows that are no codes. -/
def codeOf : Instr → Option Code
  | .first b => some (literalCode b)
  | .firstInvalid c => some c
  | .postclr b => some (literalCode b)
  | .postclrInvalid c => some c
  | .clr => some (BitVec.ofNat 16 Config.clear)
  | .lit b => some (literalCode b)
  | .kwk c => some c
  | .ref c => some c
  | .codeOutOfRange c => some c
  | .header _ _ _ => none
  | .headerBadMagic _ _ _ => none
  | .headerWidthTooLarge _ _ _ => none
  | .headerWidthTooSmall _ _ _ => none
  | .headerShort _ => none
  | .eos => none
  | .resetCommand => none
  | .openCommand => none
  | .decodeNext => none
  | .nextcode => none
  | .signalRefill => none
  | .refill => none
  | .extract => none
  | .dtReset => none
  | .dtAppend _ _ => none
  | .dtResolve _ => none
  | .string _ => none

/-- A code's two bytes at width 16, low byte first (R95). -/
def codeBytes (c : Code) : List Byte := [c.extractLsb' 0 8, c.extractLsb' 8 8]

/-- The bytes of an instruction: three for a header (R91), those present for a short one (R125), the 16-bit value for a
code (R93, R95), none for what is "not encoded in the stream" (spec/opcode_table.json). -/
def encode : Instr → List Byte
  | .header block spare maxbits => headerBytes block spare maxbits
  | .headerBadMagic m0 m1 c => [m0, m1, c]
  | .headerWidthTooLarge block spare maxbits => headerBytes block spare maxbits
  | .headerWidthTooSmall block spare maxbits => headerBytes block spare maxbits
  | .headerShort present => present
  | .first b => codeBytes (literalCode b)
  | .firstInvalid c => codeBytes c
  | .postclr b => codeBytes (literalCode b)
  | .postclrInvalid c => codeBytes c
  | .clr => codeBytes (BitVec.ofNat 16 Config.clear)
  | .lit b => codeBytes (literalCode b)
  | .kwk c => codeBytes c
  | .ref c => codeBytes c
  | .codeOutOfRange c => codeBytes c
  | .eos => []
  | .resetCommand => []
  | .openCommand => []
  | .decodeNext => []
  | .nextcode => []
  | .signalRefill => []
  | .refill => []
  | .extract => []
  | .dtReset => []
  | .dtAppend _ _ => []
  | .dtResolve _ => []
  | .string _ => []

/-- The `w` bits of a code, least significant first (R67, R105). -/
def codeBits (w c : Nat) : List Bool := (List.range w).map fun j => c.testBit j

/-- The number whose bit `j` is element `j`. -/
def bitsNat : List Bool → Nat
  | [] => 0
  | b :: rest => b.toNat + 2 * bitsNat rest

/-- `n` bytes from a bit list, bit `i` of the list being bit `i mod 8` of byte `i div 8`, with 0 bits after its end (R105). -/
def packBytes : Nat → List Bool → List Byte
  | 0, _ => []
  | n + 1, bits => BitVec.ofNat 8 (bitsNat (bits.take 8)) :: packBytes n (bits.drop 8)

/-- A bit list padded with 0 bits to a whole number of bytes (R105). -/
def packBits (bits : List Bool) : List Byte := packBytes ((bits.length + 7) / 8) bits

/-! ## `ASSEMBLE` and the stream notation -/

/-- The bookkeeping variables of `ASSEMBLE` (R105). -/
structure Assembler where
  w : Nat
  nf : Nat
  mc : Nat
  first : Bool
  pending : Bool
  group : List Bool
  gw : Nat
  out : List Byte
  deriving DecidableEq, Repr

/-- "if G not empty: pad G with 0 bits to 8 * gw bits; output it; G <- empty" (R105). -/
def flushGroup (a : Assembler) : Assembler :=
  if a.group.isEmpty then a
  else { a with group := [], out := a.out ++ packBytes a.gw a.group }

/-- The start of `ASSEMBLE`: the header and the first group at width 9 (R105). -/
def assembleStart (maxbits : BitVec 5) (block : Bool) (spare : BitVec 2) : Assembler :=
  { w := 9, nf := firstIndex block, mc := maxcodeOf 9 maxbits.toNat, first := true, pending := false,
    group := [], gw := 9, out := headerBytes block spare maxbits }

/-- One turn of the loop of `ASSEMBLE` (R105). DESIGN CHOICE (log entry 19): R105 defines the procedure only for code lists
that the decoder executes without a fault; this function is total, and of a code of `2^w` or more (`KWK` on a
full table, for one) it appends the low `w` bits. -/
def assembleCode (mb : Nat) (block : Bool) (a : Assembler) (c : Nat) : Assembler :=
  let a := { a with group := a.group ++ codeBits a.w c }
  let a := if a.group.length = 8 * a.gw then flushGroup a else a
  if a.first then { a with first := false }
  else if block ∧ c = Config.clear ∧ !a.pending then
    let a := flushGroup a
    { a with w := 9, gw := 9, nf := 257, mc := maxcodeOf 9 mb, pending := true }
  else if a.pending then { a with pending := false }
  else
    let a := if a.nf < 2 ^ mb then { a with nf := a.nf + 1 } else a
    if a.mc < a.nf then
      let a := flushGroup a
      { a with w := a.w + 1, gw := a.w + 1, mc := maxcodeOf (a.w + 1) mb }
    else a

/-- ".end": the rest of the last group, padded to whole bytes (R105). -/
def assembleEnd (a : Assembler) : List Byte := a.out ++ packBits a.group

/-- `ASSEMBLE(maxbits, block, spare, codes)` (R105). DESIGN CHOICE (log entry 19): it gives bytes for every code list, and
they mean something only for the lists that R105 defines it for, those the decoder executes without a fault. -/
def assemble (maxbits : BitVec 5) (block : Bool) (spare : BitVec 2) (codes : List Nat) : List Byte :=
  assembleEnd (codes.foldl (assembleCode maxbits.toNat block) (assembleStart maxbits block spare))

/-- A line of the stream notation that stands for one code (R104). -/
inductive StreamLine where
  | code (n : Nat)
  | lit (b : Nat)
  | ref (n : Nat)
  | kwk
  | clr
  deriving DecidableEq, Repr

/-- The code a line stands for, with the writer's check; `none` where the check fails (R104). `kwk` is `code <NEXTFREE>` and
has the check of `code`. -/
def lineCode (block : Bool) (a : Assembler) : StreamLine → Option Nat
  | .code n => if n < 2 ^ a.w then some n else none
  | .lit b => if b < Config.literals then some b else none
  | .ref n => if firstIndex block ≤ n ∧ n < a.nf then some n else none
  | .kwk => if a.nf < 2 ^ a.w then some a.nf else none
  | .clr => if block then some Config.clear else none

/-- A list of lines packed from a bookkeeping state on; `none` where a line's check fails. -/
def assembleFrom (mb : Nat) (block : Bool) (a : Assembler) : List StreamLine → Option (List Byte)
  | [] => some (assembleEnd a)
  | line :: rest =>
    match lineCode block a line with
    | some c => assembleFrom mb block (assembleCode mb block a c) rest
    | none => none

/-- A whole stream in the notation of R104, from its `.hdr` line to its `.end`; `none` where a line's check fails. A list
whose lines pass can still be one the decoder faults on, for which R105 defines nothing (log entry 19). -/
def assembleStream (maxbits : BitVec 5) (block : Bool) (spare : BitVec 2) (lines : List StreamLine) :
    Option (List Byte) :=
  assembleFrom maxbits.toNat block (assembleStart maxbits block spare) lines

/-! ## The opcode table's words -/

/-- The state in which a 16-bit word of the opcode table is read: block mode, after the first code, no entry yet. A
code's class depends on the state (R100); DESIGN CHOICE (log entry 7). -/
def tableContext : CodeContext := { start := false, pendingClear := false, block := true, nextfree := 257 }

/-- The bytes of a table word as the stream stores them: the table writes a header with `IN[0]` in bits 23:16 and a code
as its 16-bit value, whose low byte comes first in the stream. -/
def tableBytes (nbits w : Nat) : List Byte :=
  if nbits = 24 then [BitVec.ofNat 8 (w / 2 ^ 16), BitVec.ofNat 8 (w / 2 ^ 8), BitVec.ofNat 8 w]
  else if nbits = 16 then [BitVec.ofNat 8 w, BitVec.ofNat 8 (w / 2 ^ 8)]
  else if nbits = 8 then [BitVec.ofNat 8 w]
  else []

/-- The instruction of a table word: 24 bits are a header, 16 bits a code read at width 9 (refused when it needs more
bits), 8 bits or none a stream too short for a header. -/
def decodeTableWord (nbits w : Nat) : Option Instr :=
  if nbits = 16 then
    if w < 2 ^ Config.initBits then
      some (codeInstr (classify tableContext (BitVec.ofNat 16 (codeAt (tableBytes 16 w) 0 Config.initBits))))
    else none
  else if nbits = 24 ∨ nbits = 8 ∨ nbits = 0 then some (headerInstr (decodeHeader (tableBytes nbits w)))
  else none

end Sys2Proof
end

