-- ==== Sys2Proof/Machine/State.lean ====
section
/-!
DEFINITION. The state of LZW-DEC as plain data: every register, the dictionary RAM, the string stack and the bookkeeping
values of R20, with the fields the model adds (the stream `IN`, the host's actions still to come, the answer handed
back, the counter of free values); the faults and refusals; the state after power-on (R44, R270).
-/

namespace Sys2Proof.Machine

/-- `STATE` (R26); the values 5 to 7 of the 3-bit register never occur (U14). -/
inductive DecoderState where
  | idle
  | start
  | running
  | done
  | fault
  deriving DecidableEq, Repr

/-- The encoding of `STATE` (R26). -/
def stateNumber : DecoderState → BitVec 3
  | .idle => 0
  | .start => 1
  | .running => 2
  | .done => 3
  | .fault => 4

/-- The cause in `ERR` (R231). -/
inductive Cause where
  | none
  | badMagic
  | widthTooLarge
  | widthTooSmall
  | shortHeader
  | firstNotLiteral
  | postclearNotLiteral
  | codeOutOfRange
  deriving DecidableEq, Repr

/-- The value of `ERR` for a cause (R231). -/
def causeNumber : Cause → BitVec 3
  | .none => 0
  | .badMagic => 1
  | .widthTooLarge => 2
  | .widthTooSmall => 3
  | .shortHeader => 4
  | .firstNotLiteral => 5
  | .postclearNotLiteral => 6
  | .codeOutOfRange => 7

/-- The kind of a cause: values 1 to 4 are `FormatError` (R231). -/
def isFormatError (c : Cause) : Bool := decide (1 ≤ (causeNumber c).toNat) && decide ((causeNumber c).toNat ≤ 4)

/-- The kind of a cause: values 5 to 7 are `DecodeError` (R231). -/
def isDecodeError (c : Cause) : Bool := decide (5 ≤ (causeNumber c).toNat)

/-- One location of the dictionary RAM: `PREFIX[a]`, `SUFFIX[a]` (R38). -/
structure Entry where
  pre : Code
  suffix : Byte
  deriving DecidableEq, Repr

/-- The dictionary RAM: the locations written so far, addresses strictly rising. A location that is not listed has no
value (log entry 2). -/
abbrev Memory := List (Nat × Entry)

/-- What a command or an internal operation hands back to its caller: the host for `RESET`, `OPEN`, `DECODE_NEXT`
(R190, R245), the Decoder for the others. The model's own (log entry 5). -/
inductive Answer where
  /-- Nothing is handed back. -/
  | none
  /-- `Ok` of `OPEN` (R245) and of `REFILL` (R144). -/
  | ok
  /-- `Emitted(n)` (R190). -/
  | emitted (n : Nat)
  /-- `Done` (R190). -/
  | done
  /-- `Fault` (R236). -/
  | fault
  /-- `Refused` (R246). -/
  | refused
  /-- The code that `NEXTCODE` or `EXTRACT` returns. -/
  | code (c : Code)
  /-- `EndOfStream` of `NEXTCODE` or `REFILL` (R145). -/
  | endOfStream
  /-- The index that `DT_APPEND` has written (R172). -/
  | index (a : Nat)
  /-- `DT_APPEND` at the cap "return nothing" (R172). -/
  | nothing
  /-- The pair that `DT_RESOLVE` returns (R174). -/
  | entry (e : Entry)
  /-- The byte string that `STRING` returns (R178). -/
  | bytes (bs : List Byte)
  deriving DecidableEq, Repr

/-- What the host may do between steps (R245, R272). -/
inductive HostAction where
  /-- The command `RESET`. -/
  | reset
  /-- "The host makes the stream available" (R272 step 2). -/
  | present (stream : List Byte)
  /-- The command `OPEN`. -/
  | openStream
  /-- The command `DECODE_NEXT`. -/
  | decodeNext
  deriving DecidableEq, Repr

/-- The complete state. -/
structure State where
  /-- `HDR_VALID` (R27). -/
  hdrValid : Bool
  /-- `MAXBITS` (R27). -/
  maxbits : BitVec 5
  /-- `BLOCK` (R27). -/
  block : Bool
  /-- `STATE` (R26). -/
  st : DecoderState
  /-- `CODEWIDTH` (R28). -/
  codewidth : BitVec 5
  /-- `MAXCODE` (R29). -/
  maxcode : BitVec 17
  /-- `PENDING_CLEAR` (R30). -/
  pendingClear : Bool
  /-- `NEXTFREE` (R32). -/
  nextfree : BitVec 17
  /-- `LASTCODE` (R33). -/
  lastcode : Code
  /-- `LASTFIRST` (R34). -/
  lastfirst : Byte
  /-- `FORCE_REFILL` (R31). -/
  forceRefill : Bool
  /-- `BUF[0..15]` (R35). -/
  buf : Vector Byte 16
  /-- `BYTES` (R35). -/
  bytes : BitVec 5
  /-- `USABLE` (R36). -/
  usable : BitVec 7
  /-- `BITOFF` (R36). -/
  bitoff : BitVec 8
  /-- `ERR` (R37). -/
  err : Cause
  /-- `ERRINFO` (R37). -/
  errinfo : BitVec 16
  /-- `PREFIX[a]`, `SUFFIX[a]` (R38). -/
  ram : Memory
  /-- `STK` (R39), the top of the stack first. -/
  stk : List Byte
  /-- `INPOS` (R22), bookkeeping. -/
  inpos : Nat
  /-- `BUFBASE` (R23), bookkeeping. -/
  bufbase : Nat
  /-- `OUT` (R25), bookkeeping. -/
  out : List Byte
  /-- The run parameter `IN` (R21, R61). -/
  input : List Byte
  /-- The host's actions still to come, the next one first (log entry 4). -/
  host : List HostAction
  /-- What the last command or operation handed back (log entry 5). -/
  answer : Answer
  /-- How many times `RESET` has left registers unspecified (log entry 3). -/
  freeCount : Nat
  deriving DecidableEq, Repr

/-- What the block cannot do. None of them can come about in a state that meets the invariants of R43. -/
inductive Fault where
  /-- A valid dictionary location that nothing has written is read: raised by `DictRead`. Safe: the spec gives it no
  value (R44), and every valid location is written before it becomes valid (R40). -/
  | dictUnwritten
  /-- A write to a dictionary address of 65536 or more, which does not exist (R38): raised by `DictWrite`. Safe: R175
  keeps `NEXTFREE` below it. -/
  | dictAddress
  /-- A push on the full string stack: raised by `STRING`. Safe: R74 and R180 say it never overflows. -/
  | stackOverflow
  /-- A refill that returns more than the 16 bytes `BUF` holds: raised by `REFILL`. Safe: R64 requests 9 to 16. -/
  | bufferOverflow
  /-- A code some of whose bits lie outside the bytes fetched: raised by `EXTRACT`. Safe: R150. -/
  | bitsNotFetched
  /-- A code of more than 16 bits: raised by `EXTRACT`. Safe: R93 and R28 keep the width in 9 to 16. -/
  | codeTooWide
  /-- The refill loop does not end: raised by `NEXTCODE`. Safe: R152 bounds it by two refills. -/
  | refillLoop
  deriving DecidableEq, Repr

/-- What has no meaning. -/
inductive Refusal where
  /-- An instruction the model gives no meaning; raised by no arm of `exec` now. Safe. -/
  | notModelled (mnemonic : String)
  /-- A stream item is run in a state (or with fields) in which R99 or the table's row condition gives another class:
  raised by the meanings of the stream items; a step runs only the item the decoder gave. Safe. -/
  | notThisClass
  /-- `DictRead(a)` outside `FIRST <= a < NEXTFREE`: "the model must refuse it, never return a value" (R70, U3). Safe. -/
  | resolveOutOfRange
  /-- `EXTRACT` without its precondition `FORCE_REFILL = 0` and `BITOFF < USABLE` (R147). Safe. -/
  | extractUnready
  /-- The host changes `IN` outside `Idle`: no move in the model (R78, U16). Safe. -/
  | inputChanged
  /-- The step at which a `maxBits = 9` table would become full, when `Config.allowMaxbits9Full` is `false` (U9); never
  raised at its value `true`. Safe. -/
  | maxbits9Full
  deriving DecidableEq, Repr

/-- The outcome of an operation that hands a value on. -/
abbrev Res (α : Type) := Host.Outcome α Fault Refusal

/-- The state right after power-on (R44, R270). The registers that R44 leaves unspecified hold zero, a DESIGN CHOICE
(log entry 1); the RAM lists nothing (log entry 2); no stream and no host action is there yet (log entry 4). -/
def State.reset : State where
  hdrValid := false
  maxbits := 0
  block := false
  st := .idle
  codewidth := 0
  maxcode := 0
  pendingClear := false
  nextfree := 0
  lastcode := 0
  lastfirst := 0
  forceRefill := false
  buf := Vector.replicate 16 0
  bytes := 0
  usable := 0
  bitoff := 0
  err := .none
  errinfo := 0
  ram := []
  stk := []
  inpos := 0
  bufbase := 0
  out := []
  input := []
  host := []
  answer := .none
  freeCount := 0

end Sys2Proof.Machine
end

