-- ==== Sys2Proof/Machine/Ops.lean ====
section
/-!
DEFINITION. The named operations over the five spaces (R60): the input stream, the output stream, the dictionary RAM, the
buffer and the string stack; the answer to a caller; taking an exception (`raise`, R236) and the only way out of it
(`RESET`, R241, R270).
-/

namespace Sys2Proof.Machine

/-- Go on with the value an operation hands on; a stop stays a stop. -/
def bindRes {α β : Type} (r : Res α) (f : α → Res β) : Res β :=
  match r with
  | .next a => f a
  | .fault e => .fault e
  | .refused e => .refused e

/-! ## Input stream space -/

/-- `MemRead(p, n)` on `IN` (R61). -/
def memRead (input : List Byte) (p n : Nat) : List Byte := (input.drop p).take n

/-- The bytes that `ReadBytes(n)` returns (R62). -/
def bytesToRead (n : Nat) (s : State) : List Byte := memRead s.input s.inpos n

/-- The advance of `INPOS` by `ReadBytes(n)` (R62). -/
def consumeBytes (n : Nat) (s : State) : State := { s with inpos := s.inpos + (bytesToRead n s).length }

/-! ## Output stream space -/

/-- `EmitBytes(bs)` (R66). -/
def emitBytes (bs : List Byte) (s : State) : State := { s with out := s.out ++ bs }

/-! ## Dictionary space -/

/-- What a location of the RAM holds; a location that is not listed holds no value. -/
def ramLookup : Memory → Nat → Option Entry
  | [], _ => none
  | (k, e) :: rest, a => if k = a then some e else ramLookup rest a

/-- The RAM with one location written, addresses kept rising. -/
def ramInsert : Memory → Nat → Entry → Memory
  | [], a, e => [(a, e)]
  | (k, e') :: rest, a, e =>
    if a < k then (a, e) :: (k, e') :: rest
    else if a = k then (a, e) :: rest
    else (k, e') :: ramInsert rest a e

/-- The listed addresses lie from `lo` on, strictly rise and are below 65536. -/
def wfFrom (lo : Nat) : Memory → Bool
  | [] => true
  | (k, _) :: rest => decide (lo ≤ k) && decide (k < Config.ramLocations) && wfFrom (k + 1) rest

/-- The canonical form of the RAM: addresses strictly rising, each of them one of the 65536 locations (R38). -/
def Memory.wf (m : Memory) : Bool := wfFrom 0 m

/-- `FIRST = 256 + BLOCK` of a state (R9). -/
def firstOf (s : State) : Nat := firstIndex s.block

/-- A location is valid exactly when `FIRST <= a < NEXTFREE` (R40). -/
def validIndex (a : Nat) (s : State) : Bool := decide (firstOf s ≤ a) && decide (a < s.nextfree.toNat)

/-- `DictRead(a)` (R70). -/
def dictRead (a : Code) (s : State) : Res Entry :=
  if validIndex a.toNat s then
    match ramLookup s.ram a.toNat with
    | some e => .next e
    | none => .fault .dictUnwritten
  else .refused .resolveOutOfRange

/-- `DictWrite(a, p, b)` (R71). -/
def dictWrite (a : Nat) (p : Code) (b : Byte) (s : State) : Res State :=
  if a < Config.ramLocations then .next { s with ram := ramInsert s.ram a { pre := p, suffix := b } }
  else .fault .dictAddress

/-! ## Buffer space -/

/-- A refill's writes: `BUF[i] <- b[i]` for the bytes returned, the rest unchanged (R73). -/
def loadBuf (bs : List Byte) (buf : Vector Byte 16) : Vector Byte 16 := Vector.ofFn fun i => bs.getD i.val buf[i]

/-! ## Stack space -/

/-- `push(b)` (R74). -/
def push (b : Byte) (s : State) : State := { s with stk := b :: s.stk }

/-- The places the stack has left, of `STK_BYTES` (R39). -/
def freePlaces (s : State) : Nat := Config.stkBytes - s.stk.length

/-- The stack after `pop()` has been applied until it is empty; what the pops returned, in order, is the list `stk`
itself, top first (R178). -/
def popAll (s : State) : State := { s with stk := [] }

/-! ## Answers, exceptions, reset -/

/-- Hand an answer back to the caller. -/
def answerWith (a : Answer) (s : State) : State := { s with answer := a }

/-- A refused command: nothing changes and the host is told `Refused` (R246). -/
def refuseCommand (s : State) : State := answerWith .refused s

/-- `raise FormatError(cause, info)` and `raise DecodeError(cause, info)` (R236). -/
def raise (cause : Cause) (info : BitVec 16) (s : State) : State :=
  { s with err := cause, errinfo := info, st := .fault, answer := .fault }

/-- `RESET` (R270), the only way out of `Fault` (R241). The registers that become unspecified take free values (log entry
3), every RAM location loses its value (log entry 2); the host's stream and its further actions are not the block's. -/
def resetBlock (s : State) : State :=
  { s with
    st := .idle
    err := .none
    errinfo := 0
    hdrValid := false
    pendingClear := false
    forceRefill := false
    bytes := 0
    usable := 0
    bitoff := 0
    stk := []
    inpos := 0
    bufbase := 0
    out := []
    maxbits := Config.freeMaxbits s.freeCount
    block := Config.freeBlock s.freeCount
    codewidth := Config.freeCodewidth s.freeCount
    maxcode := Config.freeMaxcode s.freeCount
    nextfree := Config.freeNextfree s.freeCount
    lastcode := Config.freeLastcode s.freeCount
    lastfirst := Config.freeLastfirst s.freeCount
    buf := Config.freeBuf s.freeCount
    ram := []
    answer := .none
    freeCount := s.freeCount + 1 }

end Sys2Proof.Machine
end

