-- ==== Sys2Proof/Machine/Flags.lean ====
section
/-!
DEFINITION. The conditions and derived values of the block: it has no arithmetic condition codes (10_state.md section 11),
so these are the table size limit, the maximum code, the usable bits, the tests for a refill and for a width bump, and
the conditions on `STATE`.
-/

namespace Sys2Proof.Machine

/-- `MAXMAX = 2^MAXBITS` (R9). -/
def maxmaxOf (s : State) : Nat := 2 ^ s.maxbits.toNat

/-- The value of `MAXCODE` for a width (R29). -/
def maxcodeFor (w : Nat) (mb : BitVec 5) : BitVec 17 := BitVec.ofNat 17 (maxcodeOf w mb.toNat)

/-- `max(0, 8 k - (w - 1))` (R146). -/
def usableBits (k w : Nat) : Nat := 8 * k - (w - 1)

/-- The test of `NEXTCODE`'s loop: `FORCE_REFILL = 1 or BITOFF >= USABLE` (R141). -/
def needsRefill (s : State) : Bool := s.forceRefill || decide (s.usable.toNat ≤ s.bitoff.toNat)

/-- The test of the width bump: `NEXTFREE > MAXCODE` (R203). -/
def crossed (s : State) : Bool := decide (s.maxcode.toNat < s.nextfree.toNat)

/-- `STATE` is `Start` or `Running`, the states in which `DECODE_NEXT` is legal (R190). -/
def inSession (s : State) : Bool := s.st == .start || s.st == .running

/-- What the class of the next code depends on (R99). -/
def codeContext (s : State) : CodeContext :=
  { start := s.st == .start, pendingClear := s.pendingClear, block := s.block, nextfree := s.nextfree.toNat }

/-- The condition of the classes of `Running` with `PENDING_CLEAR = 0` (R99 lines 5 to 9). -/
def plainRunning (s : State) : Bool := s.st == .running && !s.pendingClear

/-- The step that item U9 lets a cautious model refuse: the append that fills a `maxBits = 9` table. -/
def maxbits9Blocked (s : State) : Bool :=
  !Config.allowMaxbits9Full && s.maxbits == 9 && s.nextfree == 511

end Sys2Proof.Machine
end

