-- ==== Sys2Proof/Machine/Operands.lean ====
section
/-!
DEFINITION. The operands: the position of the next code, the code that lies at `BITOFF` in the buffer, and the value that
`ERRINFO` takes for each cause.
-/

namespace Sys2Proof.Machine

/-- `BITPOS = 8 * BUFBASE + BITOFF`, the program counter (R24). -/
def bitpos (s : State) : Nat := 8 * s.bufbase + s.bitoff.toNat

/-- The code of `CODEWIDTH` bits at `BITOFF` of `BUF` (R147). -/
def bufferCode (s : State) : Code := BitVec.ofNat 16 (codeAt s.buf.toList s.bitoff.toNat s.codewidth.toNat)

/-- The bits of the code at `BITOFF` all lie in the bytes the last refill returned (R150). -/
def bitsFetched (s : State) : Bool :=
  decide (s.bitoff.toNat + s.codewidth.toNat ≤ 8 * min s.bytes.toNat Config.bufBytes)

/-- `ERRINFO` of cause 1: `IN[0] | (IN[1] << 8)` (R235). -/
def magicInfo (m0 m1 : Byte) : BitVec 16 := m1 ++ m0

/-- `ERRINFO` of causes 2 and 3: the control byte, zero-extended (R235). -/
def controlInfo (block : Bool) (spare : BitVec 2) (maxbits : BitVec 5) : BitVec 16 :=
  (controlByte block spare maxbits).zeroExtend 16

/-- `ERRINFO` of cause 4: how many header bytes were available (R235). -/
def shortInfo (present : List Byte) : BitVec 16 := BitVec.ofNat 16 present.length

end Sys2Proof.Machine
end

