-- ==== Sys2Proof/Machine/BitCodeReader.lean ====
section
/-!
DEFINITION. The Bit Code Reader (41_bit_code_reader.md): `REFILL`, `EXTRACT`, `NEXTCODE`, `SIGNAL_REFILL` as operations
that the Decoder uses, and as the meanings of their own rows, which hand the result back as an answer.
-/

namespace Sys2Proof.Machine

/-- `SIGNAL_REFILL`: `FORCE_REFILL <- 1` (R143). -/
def signalRefill (s : State) : State := { s with forceRefill := true }

/-- The registers a refill writes before it looks at `k` (R144); `k` bytes came back. -/
def startGroup (k : Nat) (s : State) : State :=
  { s with
    bufbase := s.inpos
    inpos := s.inpos + k
    forceRefill := false
    bytes := BitVec.ofNat 5 k
    bitoff := 0
    usable := BitVec.ofNat 7 (usableBits k s.codewidth.toNat) }

/-- `BUF[i] <- b[i]` (R144, R73). -/
def loadGroup (bs : List Byte) (s : State) : State := { s with buf := loadBuf bs s.buf }

/-- `REFILL(CODEWIDTH)` (R144): `true` for `Ok`, `false` for `EndOfStream` (R145). -/
def refill (s : State) : Res (Bool × State) :=
  let b := bytesToRead s.codewidth.toNat s
  if b.length = 0 then .next (false, startGroup 0 s)
  else if b.length ≤ Config.bufBytes then .next (true, loadGroup b (startGroup b.length s))
  else .fault .bufferOverflow

/-- `BITOFF <- BITOFF + CODEWIDTH` (R149). -/
def advanceOffset (s : State) : State :=
  { s with bitoff := BitVec.ofNat 8 (s.bitoff.toNat + s.codewidth.toNat) }

/-- `EXTRACT(CODEWIDTH)` (R147). -/
def extract (s : State) : Res (Code × State) :=
  if needsRefill s then .refused .extractUnready
  else if Config.maxMaxbits < s.codewidth.toNat then .fault .codeTooWide
  else if bitsFetched s then .next (bufferCode s, advanceOffset s)
  else .fault .bitsNotFetched

/-- The loop of `NEXTCODE` (R141), for at most so many turns; `none` is `EndOfStream`. -/
def nextcodeLoop : Nat → State → Res (Option Code × State)
  | 0, _ => .fault .refillLoop
  | n + 1, s =>
    if needsRefill s then
      bindRes (refill s) fun (more, s') => if more then nextcodeLoop n s' else .next (none, s')
    else bindRes (extract s) fun (c, s') => .next (some c, s')

/-- `NEXTCODE(CODEWIDTH)` (R141). Each refill but one that ends the stream consumes a byte, so the bytes left, with one
turn for `EndOfStream` and one for the extraction, bound the loop; R152 has the true bound, two refills. -/
def nextcode (s : State) : Res (Option Code × State) := nextcodeLoop (s.input.length - s.inpos + 2) s

/-- The row `SIGNAL_REFILL` (R143). -/
def execSignalRefill (s : State) : Res State := .next (answerWith .none (signalRefill s))

/-- The row `REFILL` (R144). -/
def execRefill (s : State) : Res State :=
  bindRes (refill s) fun (more, s') => .next (answerWith (if more then .ok else .endOfStream) s')

/-- The row `EXTRACT` (R147). -/
def execExtract (s : State) : Res State :=
  bindRes (extract s) fun (c, s') => .next (answerWith (.code c) s')

/-- What `NEXTCODE` hands back. -/
def fetchAnswer : Option Code → Answer
  | some c => .code c
  | none => .endOfStream

/-- The row `NEXTCODE` (R141). -/
def execNextcode (s : State) : Res State :=
  bindRes (nextcode s) fun (c, s') => .next (answerWith (fetchAnswer c) s')

end Sys2Proof.Machine
end

