-- ==== Sys2Proof/Machine/DictionaryTable.lean ====
section
/-!
DEFINITION. The Dictionary Table (42_dictionary_table.md): `DT_RESET`, `DT_APPEND`, `DT_RESOLVE` and `STRING`, as operations
that the Decoder uses and as the meanings of their own rows; `STRING` also as the function of R178.
-/

namespace Sys2Proof.Machine

/-- `DT_RESET`: `NEXTFREE <- FIRST`, no RAM location written (R171). -/
def dtReset (s : State) : State := { s with nextfree := BitVec.ofNat 17 (firstOf s) }

/-- `NEXTFREE <- NEXTFREE + 1` (R172). -/
def growTable (s : State) : State := { s with nextfree := BitVec.ofNat 17 (s.nextfree.toNat + 1) }

/-- `DT_APPEND(p, b)`: writes the entry and returns its index, or at the cap returns nothing (R172, R173). -/
def dtAppend (p : Code) (b : Byte) (s : State) : Res (Option Nat × State) :=
  if s.nextfree.toNat < maxmaxOf s then
    bindRes (dictWrite s.nextfree.toNat p b s) fun s' => .next (some s.nextfree.toNat, growTable s')
  else .next (none, s)

/-- `DT_RESOLVE(a)` (R174). -/
def dtResolve (a : Code) (s : State) : Res Entry := dictRead a s

/-- The chain walk of `STRING` with as many places left on the stack as its first argument says: the suffixes are pushed,
and the literal at the end of the chain, which takes a place too, is handed on (R178, R179). -/
def walkChain : Nat → Code → State → Res (Byte × State)
  | 0, _, _ => .fault .stackOverflow
  | n + 1, a, s =>
    if isLiteral a then .next (literalByte a, s)
    else bindRes (dtResolve a s) fun e => walkChain n e.pre (push e.suffix s)

/-- `STRING(a)`, stack form (R178): the literal is pushed last and popped first, so the string is it and then the bytes
popped after it. -/
def stringStack (a : Code) (s : State) : Res ((Byte × List Byte) × State) :=
  bindRes (walkChain (freePlaces s) a s) fun (b, s') => .next ((b, s'.stk), popAll s')

/-- `STRING(a)`, mathematical definition (R178), for chains of fewer links than its first argument. -/
def stringFrom (s : State) : Nat → Code → Option (List Byte)
  | 0, _ => none
  | n + 1, a =>
    if isLiteral a then some [literalByte a]
    else match dtResolve a s with
      | .next e => (stringFrom s n e.pre).map fun bs => bs ++ [e.suffix]
      | .fault _ => none
      | .refused _ => none

/-- `STRING(a)` as a function of the state; `none` where it is not defined (R178). A chain has at most 65280 links (R177). -/
def stringOf (s : State) (a : Code) : Option (List Byte) := stringFrom s Config.stkBytes a

/-- The row `DT_RESET` (R171). -/
def execDtReset (s : State) : Res State := .next (answerWith .none (dtReset s))

/-- What `DT_APPEND` hands back. -/
def appendAnswer : Option Nat → Answer
  | some a => .index a
  | none => .nothing

/-- The row `DT_APPEND` (R172). -/
def execDtAppend (p : Code) (b : Byte) (s : State) : Res State :=
  bindRes (dtAppend p b s) fun (a, s') => .next (answerWith (appendAnswer a) s')

/-- The row `DT_RESOLVE` (R174); outside its range it is refused (R176, U3). -/
def execDtResolve (a : Code) (s : State) : Res State :=
  bindRes (dtResolve a s) fun e => .next (answerWith (.entry e) s)

/-- The row `STRING` (R178). -/
def execString (a : Code) (s : State) : Res State :=
  bindRes (stringStack a s) fun (bs, s') => .next (answerWith (.bytes (bs.1 :: bs.2)) s')

end Sys2Proof.Machine
end

