-- ==== Sys2Proof/Machine/Decoder.lean ====
section
/-!
DEFINITION. The Decoder (43_decoder.md): each class of code as what a step does once `NEXTCODE` has fetched it, the end of
the stream, and the command `DECODE_NEXT`.
-/

namespace Sys2Proof.Machine

/-- An item of the body runs in `Start` or `Running`; elsewhere the `DECODE_NEXT` it belongs to is refused (R210); where
R99 gives the code another class it is not that item. -/
def codeStep (isClass : Bool) (s : State) (r : Res State) : Res State :=
  if inSession s then
    if isClass then r else .refused .notThisClass
  else .next (refuseCommand s)

/-- `LASTCODE <- c; LASTFIRST <- b` (R204). -/
def remember (c : Code) (b : Byte) (s : State) : State := { s with lastcode := c, lastfirst := b }

/-- The new width and its maximum code (R203). -/
def widen (s : State) : State :=
  { s with
    codewidth := BitVec.ofNat 5 (s.codewidth.toNat + 1)
    maxcode := maxcodeFor (s.codewidth.toNat + 1) s.maxbits }

/-- The width bump (R203). -/
def bumpWidth (s : State) : State := if crossed s then signalRefill (widen s) else s

/-- The common tail of `LIT`, `REF` and `KWK` for the string `b :: rest`: emit, append with the old `LASTCODE`, bump,
remember (R201 to R205). -/
def commonTail (c : Code) (b : Byte) (rest : List Byte) (s : State) : Res State :=
  if maxbits9Blocked s then .refused .maxbits9Full
  else bindRes (dtAppend s.lastcode b (emitBytes (b :: rest) s)) fun (_, s') =>
    .next (answerWith (.emitted (rest.length + 1)) (remember c b (bumpWidth s')))

/-- `FIRST` (R192). -/
def execFirst (b : Byte) (s : State) : Res State :=
  codeStep (s.st == .start) s
    (.next (answerWith (.emitted 1) { remember (literalCode b) b (emitBytes [b] s) with st := .running }))

/-- `FIRST.INVALID`: `DecodeError` cause 5 (R192). -/
def execFirstInvalid (c : Code) (s : State) : Res State :=
  codeStep (s.st == .start && !isLiteral c) s (.next (raise .firstNotLiteral c s))

/-- `POSTCLR` (R195). -/
def execPostclr (b : Byte) (s : State) : Res State :=
  codeStep (s.st == .running && s.pendingClear) s
    (.next (answerWith (.emitted 1) { remember (literalCode b) b (emitBytes [b] s) with pendingClear := false }))

/-- `POSTCLR.INVALID`: `DecodeError` cause 6 (R195). -/
def execPostclrInvalid (c : Code) (s : State) : Res State :=
  codeStep (s.st == .running && s.pendingClear && !isLiteral c) s (.next (raise .postclearNotLiteral c s))

/-- `CODEWIDTH <- 9; MAXCODE <- maxcode_of(9, MAXBITS)` (R194). -/
def restartWidth (s : State) : State :=
  { s with codewidth := BitVec.ofNat 5 Config.initBits, maxcode := maxcodeFor Config.initBits s.maxbits }

/-- `CLR` (R194). -/
def execClr (s : State) : Res State :=
  codeStep (plainRunning s && s.block) s
    (.next (answerWith (.emitted 0) { signalRefill (restartWidth (dtReset s)) with pendingClear := true }))

/-- `LIT` (R197). -/
def execLit (b : Byte) (s : State) : Res State :=
  codeStep (plainRunning s) s (commonTail (literalCode b) b [] s)

/-- `KWK` (R199): the string is `STRING(LASTCODE) ++ [LASTFIRST]`. -/
def execKwk (c : Code) (s : State) : Res State :=
  codeStep (plainRunning s && !isLiteral c && !isClear s.block c && decide (c.toNat = s.nextfree.toNat)) s
    (bindRes (stringStack s.lastcode s) fun (bs, s') => commonTail c bs.1 (bs.2 ++ [s.lastfirst]) s')

/-- `REF` (R198): the string is `STRING(c)`. -/
def execRef (c : Code) (s : State) : Res State :=
  codeStep (plainRunning s && validIndex c.toNat s) s
    (bindRes (stringStack c s) fun (bs, s') => commonTail c bs.1 bs.2 s')

/-- `CODE.OUT_OF_RANGE`: `DecodeError` cause 7 (R200). -/
def execCodeOutOfRange (c : Code) (s : State) : Res State :=
  codeStep (plainRunning s && !isLiteral c && !isClear s.block c && decide (s.nextfree.toNat < c.toNat)) s
    (.next (raise .codeOutOfRange c s))

/-- `EOS`: `STATE <- Done` (R193). -/
def execEos (s : State) : Res State :=
  codeStep true s (.next { s with st := .done, answer := .done })

/-- Run the class that the decoder gave a code. -/
def runCode (i : CodeItem) (s : State) : Res State :=
  match i with
  | .first b => execFirst b s
  | .firstInvalid c => execFirstInvalid c s
  | .postclr b => execPostclr b s
  | .postclrInvalid c => execPostclrInvalid c s
  | .clr => execClr s
  | .lit b => execLit b s
  | .kwk c => execKwk c s
  | .ref c => execRef c s
  | .outOfRange c => execCodeOutOfRange c s

/-- Run what `NEXTCODE` fetched: a code by its class, or the end of the stream. -/
def runFetched (f : Option Code × State) : Res State :=
  match f.1 with
  | some c => runCode (classify (codeContext f.2) c) f.2
  | none => execEos f.2

/-- `DECODE_NEXT` (R191): refused outside `Start` and `Running` (R210), else one code, fetched and run to its end. -/
def execDecodeNext (s : State) : Res State :=
  if inSession s then bindRes (nextcode s) runFetched else .next (refuseCommand s)

end Sys2Proof.Machine
end

