-- ==== Sys2Proof/Machine/HeaderParser.lean ====
section
/-!
DEFINITION. The Header Parser (40_header_parser.md): the five items of format H, each as what `OPEN` does once
`ReadBytes(3)` has returned it, and the command `OPEN`.
-/

namespace Sys2Proof.Machine

/-- The writes of a successful `OPEN` (R121, R126). -/
def startSession (block : Bool) (maxbits : BitVec 5) (s : State) : State :=
  { s with
    hdrValid := true
    maxbits := maxbits
    block := block
    codewidth := BitVec.ofNat 5 Config.initBits
    maxcode := maxcodeFor Config.initBits maxbits
    nextfree := BitVec.ofNat 17 (firstIndex block)
    pendingClear := false
    forceRefill := false
    bytes := 0
    usable := 0
    bitoff := 0
    bufbase := 3
    st := .start }

/-- A header item runs in `Idle`; in another state the `OPEN` it belongs to is refused (R129); with fields that its row
excludes it is not that item. -/
def headerStep (fits : Bool) (s t : State) : Res State :=
  if s.st = .idle then
    if fits then .next t else .refused .notThisClass
  else .next (refuseCommand s)

/-- `HEADER`: the session starts (R126); the spare bits are dropped (R123). -/
def execHeader (block : Bool) (spare : BitVec 2) (maxbits : BitVec 5) (s : State) : Res State :=
  headerStep (WellFormed (.header block spare maxbits)) s (answerWith .ok (startSession block maxbits s))

/-- `HEADER.BAD_MAGIC`: `FormatError` cause 1 (R122). -/
def execHeaderBadMagic (m0 m1 control : Byte) (s : State) : Res State :=
  headerStep (WellFormed (.headerBadMagic m0 m1 control)) s (raise .badMagic (magicInfo m0 m1) s)

/-- `HEADER.WIDTH_TOO_LARGE`: `FormatError` cause 2 (R124). -/
def execHeaderWidthTooLarge (block : Bool) (spare : BitVec 2) (maxbits : BitVec 5) (s : State) : Res State :=
  headerStep (WellFormed (.headerWidthTooLarge block spare maxbits)) s
    (raise .widthTooLarge (controlInfo block spare maxbits) s)

/-- `HEADER.WIDTH_TOO_SMALL`: `FormatError` cause 3 (R124). -/
def execHeaderWidthTooSmall (block : Bool) (spare : BitVec 2) (maxbits : BitVec 5) (s : State) : Res State :=
  headerStep (WellFormed (.headerWidthTooSmall block spare maxbits)) s
    (raise .widthTooSmall (controlInfo block spare maxbits) s)

/-- `HEADER.SHORT`: `FormatError` cause 4 (R125). -/
def execHeaderShort (present : List Byte) (s : State) : Res State :=
  headerStep (WellFormed (.headerShort present)) s (raise .shortHeader (shortInfo present) s)

/-- Run the item that the header decoder gave. -/
def runHeader (h : HeaderItem) (s : State) : Res State :=
  match h with
  | .accepted block spare maxbits => execHeader block spare maxbits s
  | .badMagic m0 m1 control => execHeaderBadMagic m0 m1 control s
  | .widthTooLarge block spare maxbits => execHeaderWidthTooLarge block spare maxbits s
  | .widthTooSmall block spare maxbits => execHeaderWidthTooSmall block spare maxbits s
  | .short present => execHeaderShort present s

/-- `OPEN` (R121): refused outside `Idle` (R129), else `ReadBytes(3)` and the item it returned. -/
def execOpenCommand (s : State) : Res State :=
  if s.st = .idle then runHeader (decodeHeader (bytesToRead 3 s)) (consumeBytes 3 s)
  else .next (refuseCommand s)

end Sys2Proof.Machine
end

