-- ==== Sys2Proof/Machine/HostCommands.lean ====
section
/-!
DEFINITION. What the host does beside `OPEN` and `DECODE_NEXT`: the command `RESET`, making a stream available (R272), and
the placing of one table word where the next step fetches it.
-/

namespace Sys2Proof.Machine

/-- `RESET` (R270), legal in every state. -/
def execResetCommand (s : State) : Res State := .next (resetBlock s)

/-- The host makes a stream available, before `OPEN` (R272 step 2); at another time it is no move of the model (U16). -/
def presentStream (stream : List Byte) (s : State) : Res State :=
  if s.st = .idle then .next { s with input := stream } else .refused .inputChanged

/-- A stream placed for the next `OPEN` to read (log entry 7). -/
def placeHeader (bytes : List Byte) (s : State) : State :=
  { s with st := .idle, input := bytes, inpos := 0, host := [.openStream] }

/-- A code placed for the next `DECODE_NEXT` to fetch, in the state `tableContext` names (log entry 7). -/
def placeCode (bytes : List Byte) (s : State) : State :=
  { startSession true 16 s with
    st := .running
    input := headerBytes true 0 16 ++ bytes
    inpos := 3
    host := [.decodeNext] }

/-- A table word placed where the next step fetches. -/
def placeWord (nbits w : Nat) (s : State) : State :=
  if nbits = 16 then placeCode (tableBytes 16 w) s else placeHeader (tableBytes nbits w) s

end Sys2Proof.Machine
end

