-- ==== Sys2Proof/Machine/Dispatch.lean ====
section
/-!
DEFINITION. One arm for each constructor of `Instr`. A stream item runs on the state that its fetch left; a command and an
internal operation run on the state as it is.
-/

namespace Sys2Proof.Machine

def exec (i : Instr) (s : State) : Host.Outcome State Fault Refusal :=
  match i with
  | .header block spare maxbits => Sys2Proof.Machine.execHeader block spare maxbits s
  | .headerBadMagic m0 m1 control => Sys2Proof.Machine.execHeaderBadMagic m0 m1 control s
  | .headerWidthTooLarge block spare maxbits => Sys2Proof.Machine.execHeaderWidthTooLarge block spare maxbits s
  | .headerWidthTooSmall block spare maxbits => Sys2Proof.Machine.execHeaderWidthTooSmall block spare maxbits s
  | .headerShort present => Sys2Proof.Machine.execHeaderShort present s
  | .first b => Sys2Proof.Machine.execFirst b s
  | .firstInvalid c => Sys2Proof.Machine.execFirstInvalid c s
  | .postclr b => Sys2Proof.Machine.execPostclr b s
  | .postclrInvalid c => Sys2Proof.Machine.execPostclrInvalid c s
  | .clr => Sys2Proof.Machine.execClr s
  | .lit b => Sys2Proof.Machine.execLit b s
  | .kwk c => Sys2Proof.Machine.execKwk c s
  | .ref c => Sys2Proof.Machine.execRef c s
  | .codeOutOfRange c => Sys2Proof.Machine.execCodeOutOfRange c s
  | .eos => Sys2Proof.Machine.execEos s
  | .resetCommand => Sys2Proof.Machine.execResetCommand s
  | .openCommand => Sys2Proof.Machine.execOpenCommand s
  | .decodeNext => Sys2Proof.Machine.execDecodeNext s
  | .nextcode => Sys2Proof.Machine.execNextcode s
  | .signalRefill => Sys2Proof.Machine.execSignalRefill s
  | .refill => Sys2Proof.Machine.execRefill s
  | .extract => Sys2Proof.Machine.execExtract s
  | .dtReset => Sys2Proof.Machine.execDtReset s
  | .dtAppend p b => Sys2Proof.Machine.execDtAppend p b s
  | .dtResolve a => Sys2Proof.Machine.execDtResolve a s
  | .string a => Sys2Proof.Machine.execString a s

end Sys2Proof.Machine
end

