-- ==== Sys2Proof/Machine/Step.lean ====
section
/-!
DEFINITION. One step of the machine: the next of the host's actions (R245), taken off the list that the state holds, a DESIGN
CHOICE (log entry 4). With no action to come a step leaves the state; the block keeps it while the host issues nothing (R240).
-/

namespace Sys2Proof.Machine

/-- The state with the host's next action taken off. -/
def State.withHost (s : State) (rest : List HostAction) : State := { s with host := rest }

/-- One step. `OPEN` and `DECODE_NEXT` fetch, decode and run one item of the stream inside their meanings. -/
def step (s : State) : Host.Outcome State Fault Refusal :=
  match s.host with
  | [] => .next s
  | .reset :: rest => exec .resetCommand (s.withHost rest)
  | .present stream :: rest => presentStream stream (s.withHost rest)
  | .openStream :: rest => exec .openCommand (s.withHost rest)
  | .decodeNext :: rest => exec .decodeNext (s.withHost rest)

/-- The state with one word of the opcode table placed where the next step fetches it (log entry 7). -/
def State.withFetchWord (s : State) (nbits w : Nat) : State := placeWord nbits w s

end Sys2Proof.Machine
end

