-- ==== Sys2Proof/Safety.lean ====
section
/-!
DEFINITION. What a legal state is: the invariants between steps of R43, as a predicate of a session (`SessionInv`) and,
with what the spec says of the other states, of every state (`InvBase`, `Inv`); what two states share that differ only in hidden
state (R41).
-/

namespace Sys2Proof.Machine

/-- A code that names a string: a literal, or a valid index (R178). -/
def namesString (s : State) (a : Nat) : Prop := a < Config.literals ∨ (firstOf s ≤ a ∧ a < s.nextfree.toNat)

/-- What I5 says of one location: its entry's prefix is an earlier code, and a literal or a valid index. -/
def entryOk (s : State) (a : Nat) : Bool :=
  match ramLookup s.ram a with
  | some e => decide (e.pre.toNat < a) && (isLiteral e.pre || decide (firstOf s ≤ e.pre.toNat))
  | none => false

/-- The invariants of R43 in `Start` and `Running`. Added to the rule's own: the buffer holds at most 16 bytes (R35),
`Start` is at width 9 (R30, spec/opcode_table.json), and `PENDING_CLEAR` is 1 in `Running` only (R194). The history
clause of I5 ("written after the last OPEN or CLR") is not about one state and has no field here. -/
structure SessionInv (s : State) : Prop where
  /-- I1. -/
  width_low : 9 ≤ s.codewidth.toNat
  /-- I1. -/
  width_high : s.codewidth.toNat ≤ s.maxbits.toNat
  /-- I1. -/
  maxbits_high : s.maxbits.toNat ≤ 16
  /-- I2. -/
  maxcode_eq : s.maxcode.toNat = maxcodeOf s.codewidth.toNat s.maxbits.toNat
  /-- I3. -/
  first_le : firstOf s ≤ s.nextfree.toNat
  /-- I3. -/
  nextfree_le : s.nextfree.toNat ≤ s.maxcode.toNat
  /-- I3. -/
  maxcode_le : s.maxcode.toNat ≤ maxmaxOf s
  /-- I3. -/
  width_reached : 9 < s.codewidth.toNat → 2 ^ (s.codewidth.toNat - 1) ≤ s.nextfree.toNat
  /-- R35. -/
  bytes_high : s.bytes.toNat ≤ 16
  /-- I4: the buffer was loaded at this width. -/
  group_bytes : s.forceRefill = false → s.bytes.toNat ≤ s.codewidth.toNat
  /-- I4. -/
  offset_multiple : s.forceRefill = false → s.bitoff.toNat % s.codewidth.toNat = 0
  /-- I4. -/
  offset_high : s.forceRefill = false → s.bitoff.toNat ≤ 8 * s.codewidth.toNat
  /-- I4. -/
  usable_eq : s.forceRefill = false → s.usable.toNat = usableBits s.bytes.toNat s.codewidth.toNat
  /-- I5. -/
  entries : ∀ a < s.nextfree.toNat, firstOf s ≤ a → entryOk s a = true
  /-- I6. -/
  last_names : s.st = .running → s.pendingClear = false → namesString s s.lastcode.toNat
  /-- I6. -/
  last_first : s.st = .running → s.pendingClear = false → (stringOf s s.lastcode).bind List.head? = some s.lastfirst
  /-- I8. -/
  clearing : s.pendingClear = true →
    s.block = true ∧ s.forceRefill = true ∧ s.codewidth.toNat = 9 ∧ s.nextfree.toNat = 257
  /-- R194. -/
  clear_running : s.pendingClear = true → s.st = .running
  /-- The first code is read at width 9. -/
  start_width : s.st = .start → s.codewidth.toNat = 9
  /-- I9. -/
  header_valid : s.hdrValid = true

/-- What holds between steps in every state but for what the buffer holds: I7 and I10 of R43, the canonical form of the
RAM, the positions (R22, R23, R24), the error registers (R37), what `Idle` still has from reset (R44), and `SessionInv` in
a session. It says nothing of the contents of `BUF`. -/
structure InvBase (s : State) : Prop where
  ram_wf : Memory.wf s.ram = true
  /-- I7. -/
  stack_empty : s.stk = []
  inpos_le : s.inpos ≤ s.input.length
  buffer_read : s.bufbase + s.bytes.toNat ≤ s.inpos
  bitpos_le : bitpos s ≤ 8 * s.inpos
  fault_iff : s.st = .fault ↔ s.err ≠ .none
  no_info : s.err = .none → s.errinfo = 0
  idle_flags : s.st = .idle → s.hdrValid = false ∧ s.pendingClear = false ∧ s.forceRefill = false
  idle_reader : s.st = .idle → s.bytes = 0 ∧ s.usable = 0 ∧ s.bitoff = 0
  idle_positions : s.st = .idle → s.inpos = 0 ∧ s.bufbase = 0 ∧ s.out = []
  session : inSession s = true → SessionInv s

/-- What holds between steps in every state: `InvBase`, and the bytes that the buffer holds. -/
structure Inv (s : State) : Prop extends InvBase s where
  /-- `BUF[i]` is the byte of `IN` at `BUFBASE + i` (R23, R73). -/
  buffer_content : ∀ i < s.bytes.toNat, s.buf.toList[i]? = s.input[s.bufbase + i]?

/-- The condition of R99 under which a code instruction is the class of its code. -/
def ClassHolds (x : CodeContext) : Instr → Prop
  | .first _ => x.start = true
  | .firstInvalid c => x.start = true ∧ 256 ≤ c.toNat
  | .postclr _ => x.start = false ∧ x.pendingClear = true
  | .postclrInvalid c => x.start = false ∧ x.pendingClear = true ∧ 256 ≤ c.toNat
  | .clr => x.start = false ∧ x.pendingClear = false ∧ x.block = true
  | .lit _ => x.start = false ∧ x.pendingClear = false
  | .kwk c => x.start = false ∧ x.pendingClear = false ∧ ¬(x.block = true ∧ c.toNat = 256) ∧ 256 ≤ c.toNat ∧
      c.toNat = x.nextfree
  | .ref c => x.start = false ∧ x.pendingClear = false ∧ 256 + x.block.toNat ≤ c.toNat ∧ c.toNat < x.nextfree
  | .codeOutOfRange c => x.start = false ∧ x.pendingClear = false ∧ ¬(x.block = true ∧ c.toNat = 256) ∧
      256 ≤ c.toNat ∧ x.nextfree < c.toNat
  | .header _ _ _ => False
  | .headerBadMagic _ _ _ => False
  | .headerWidthTooLarge _ _ _ => False
  | .headerWidthTooSmall _ _ _ => False
  | .headerShort _ => False
  | .eos => False
  | .resetCommand => False
  | .openCommand => False
  | .decodeNext => False
  | .nextcode => False
  | .signalRefill => False
  | .refill => False
  | .extract => False
  | .dtReset => False
  | .dtAppend _ _ => False
  | .dtResolve _ => False
  | .string _ => False

/-- What a `LIT`, `REF` or `KWK` step of code `c` with the string `b :: rest` leaves (R201 to R204, R208), and that it
changes nothing else. -/
structure TailEffect (s t : State) (c : Code) (b : Byte) (rest : List Byte) : Prop where
  emitted : t.out = s.out ++ b :: rest
  table : ∀ a, ramLookup t.ram a =
    if a = s.nextfree.toNat ∧ s.nextfree.toNat < maxmaxOf s then some { pre := s.lastcode, suffix := b }
    else ramLookup s.ram a
  grown : t.nextfree.toNat = min (s.nextfree.toNat + 1) (maxmaxOf s)
  width : t.codewidth.toNat = if s.maxcode.toNat < t.nextfree.toNat then s.codewidth.toNat + 1 else s.codewidth.toNat
  maxcode : t.maxcode.toNat = maxcodeOf t.codewidth.toNat s.maxbits.toNat
  refill : t.forceRefill = (s.forceRefill || decide (s.maxcode.toNat < t.nextfree.toNat))
  last : t.lastcode = c ∧ t.lastfirst = b
  told : t.answer = .emitted (rest.length + 1)
  frame : t = { s with
    out := t.out, ram := t.ram, nextfree := t.nextfree, codewidth := t.codewidth, maxcode := t.maxcode,
    forceRefill := t.forceRefill, lastcode := t.lastcode, lastfirst := t.lastfirst, answer := t.answer }

/-- The instructions that end in the common tail. -/
def isTailInstr : Instr → Bool
  | .lit _ => true
  | .ref _ => true
  | .kwk _ => true
  | .first _ => false
  | .firstInvalid _ => false
  | .postclr _ => false
  | .postclrInvalid _ => false
  | .clr => false
  | .codeOutOfRange _ => false
  | .header _ _ _ => false
  | .headerBadMagic _ _ _ => false
  | .headerWidthTooLarge _ _ _ => false
  | .headerWidthTooSmall _ _ _ => false
  | .headerShort _ => false
  | .eos => false
  | .resetCommand => false
  | .openCommand => false
  | .decodeNext => false
  | .nextcode => false
  | .signalRefill => false
  | .refill => false
  | .extract => false
  | .dtReset => false
  | .dtAppend _ _ => false
  | .dtResolve _ => false
  | .string _ => false

/-- The instructions of format H. -/
def isHeaderInstr : Instr → Bool
  | .header _ _ _ => true
  | .headerBadMagic _ _ _ => true
  | .headerWidthTooLarge _ _ _ => true
  | .headerWidthTooSmall _ _ _ => true
  | .headerShort _ => true
  | .first _ => false
  | .firstInvalid _ => false
  | .postclr _ => false
  | .postclrInvalid _ => false
  | .clr => false
  | .lit _ => false
  | .kwk _ => false
  | .ref _ => false
  | .codeOutOfRange _ => false
  | .eos => false
  | .resetCommand => false
  | .openCommand => false
  | .decodeNext => false
  | .nextcode => false
  | .signalRefill => false
  | .refill => false
  | .extract => false
  | .dtReset => false
  | .dtAppend _ _ => false
  | .dtResolve _ => false
  | .string _ => false

/-- The values that R44 and R270 give for reset. -/
structure GivenAtReset (s : State) : Prop where
  st : s.st = .idle
  err : s.err = .none
  errinfo : s.errinfo = 0
  hdrValid : s.hdrValid = false
  pendingClear : s.pendingClear = false
  forceRefill : s.forceRefill = false
  bytes : s.bytes = 0
  usable : s.usable = 0
  bitoff : s.bitoff = 0
  stk : s.stk = []
  inpos : s.inpos = 0
  bufbase : s.bufbase = 0
  out : s.out = []

/-- The header items with which `OPEN` succeeds (R126). -/
def headerAccepted : HeaderItem → Bool
  | .accepted _ _ _ => true
  | .badMagic _ _ _ => false
  | .widthTooLarge _ _ _ => false
  | .widthTooSmall _ _ _ => false
  | .short _ => false

/-- The classes of R99 that raise `DecodeError`. -/
def isInvalidClass : CodeItem → Bool
  | .firstInvalid _ => true
  | .postclrInvalid _ => true
  | .outOfRange _ => true
  | .first _ => false
  | .postclr _ => false
  | .clr => false
  | .lit _ => false
  | .kwk _ => false
  | .ref _ => false

/-- The state to which R206 takes a `DECODE_NEXT` of a session, by what was fetched. -/
def stateAfter (s : State) : Option Code → DecoderState
  | none => .done
  | some c => if isInvalidClass (classify (codeContext s) c) then .fault else .running

/-- So many `DECODE_NEXT` one after another; `none` where one of them stops. -/
def decodeSteps : Nat → State → Option State
  | 0, s => some s
  | n + 1, s =>
    match exec .decodeNext s with
    | .next t => decodeSteps n t
    | .fault _ => none
    | .refused _ => none

/-- `t` is `s` but for the reader's registers and `INPOS` (R140) and the answer. -/
def OnlyReaderChanged (s t : State) : Prop :=
  t = { s with
    buf := t.buf, bytes := t.bytes, usable := t.usable, bitoff := t.bitoff, forceRefill := t.forceRefill,
    bufbase := t.bufbase, inpos := t.inpos, answer := t.answer }

/-- How many bytes a step of `DECODE_NEXT` emits, by its answer (R190). -/
def emittedBytes : Answer → Nat
  | .emitted n => n
  | .none => 0
  | .ok => 0
  | .done => 0
  | .fault => 0
  | .refused => 0
  | .code _ => 0
  | .endOfStream => 0
  | .index _ => 0
  | .nothing => 0
  | .entry _ => 0
  | .bytes _ => 0

/-- Two states that agree on all but the hidden state of R41 (and, in `Start`, `LASTCODE` and `LASTFIRST`, which hold no
value yet, R33): the buffer agrees where the next `NEXTCODE` will extract from it, the RAM at the valid indices, and the
last code and first byte where a next step can use them. -/
structure SameButHidden (s t : State) : Prop where
  rest : t = { s with buf := t.buf, ram := t.ram, lastcode := t.lastcode, lastfirst := t.lastfirst }
  buffer : needsRefill s = false → ∀ i, i < s.bytes.toNat → s.buf.toList[i]? = t.buf.toList[i]?
  table : ∀ a, validIndex a s = true → ramLookup s.ram a = ramLookup t.ram a
  last : s.st = .running → s.pendingClear = false → s.lastcode = t.lastcode ∧ s.lastfirst = t.lastfirst

/-- The stream position from which the next code will be taken (R24): from the next group after a refill, else `BITPOS`. -/
def fetchPos (s : State) : Nat := if needsRefill s then 8 * s.inpos else bitpos s

end Sys2Proof.Machine
end

