-- ==== Sys2Proof/Certificates/Slice0/Obligations.lean ====
section
/-!
DEFINITION. The statements for the provers. Each docstring names the rules it formalises. `exec` of a stream item is what a
step does once the item is fetched; of a command or an internal operation, that operation.
-/

open Sys2Proof Sys2Proof.Machine

/-! ## Decoding and encoding -/

/-- R91, R94, R99: words written out from the spec's encodings decode to the items they stand for: the headers of scenario
1 and of vectors HV2, HV6, HV9, HV12, the codes of vectors X1, X4, X11, X18, and a value of each class (R99). -/
def Obligations.SpecWordsDecode : Prop :=
  decodeHeader [0x1F, 0x9D, 0x09] = .accepted false 0 9 ∧
  decodeHeader [0x1F, 0x9D, 0x90] = .accepted true 0 16 ∧
  decodeHeader [0x00, 0x00, 0x09] = .badMagic 0x00 0x00 0x09 ∧
  decodeHeader [0x1F, 0x9D, 0x11] = .widthTooLarge false 0 17 ∧
  decodeHeader [0x1F, 0x9D, 0x08] = .widthTooSmall false 0 8 ∧
  decodeHeader [0x1F, 0x9D] = .short [0x1F, 0x9D] ∧
  codeAt [0x41, 0x00] 0 9 = 65 ∧
  codeAt [0x61, 0xC4, 0x04, 0x04, 0x08] 18 9 = 257 ∧
  codeAt [0x00, 0x00, 0x00, 0x00, 0x00, 0x00, 0x80, 0x2A, 0x00] 55 11 = 85 ∧
  codeAt [0x34, 0x12, 0xCD, 0xAB] 16 16 = 43981 ∧
  classify ⟨true, false, false, 256⟩ 65 = .first 65 ∧
  classify ⟨true, false, true, 257⟩ 256 = .firstInvalid 256 ∧
  classify ⟨false, true, true, 257⟩ 99 = .postclr 99 ∧
  classify ⟨false, true, true, 257⟩ 256 = .postclrInvalid 256 ∧
  classify ⟨false, false, true, 259⟩ 256 = .clr ∧
  classify ⟨false, false, true, 257⟩ 98 = .lit 98 ∧
  classify ⟨false, false, false, 256⟩ 256 = .kwk 256 ∧
  classify ⟨false, false, true, 258⟩ 257 = .ref 257 ∧
  classify ⟨false, false, false, 258⟩ 259 = .outOfRange 259

/-- R91, R92, R125: every well-formed header item, with every value of its fields, decodes from its own bytes. -/
def Obligations.HeaderDecodesFromItsBytes : Prop :=
  ∀ i : Instr, isHeaderInstr i = true → WellFormed i = true → headerInstr (decodeHeader (encode i)) = i

/-- R67, R93, R94, R99: a code of any legal width, at any bit position and with any bits before and after it, is read back
from the packed bytes, and in a context in which the instruction's condition holds it decodes to the instruction. -/
def Obligations.CodeDecodesFromItsBits : Prop :=
  ∀ (x : CodeContext) (i : Instr) (c : Code) (w : Nat) (before after : List Bool),
    codeOf i = some c → WellFormed i = true → ClassHolds x i → legalWidth w = true → c.toNat < 2 ^ w →
    codeInstr (classify x (BitVec.ofNat 16
      (codeAt (packBits (before ++ codeBits w c.toNat ++ after)) before.length w))) = i

/-- R95, R103: the two bytes of a code instruction's 16-bit value read back as that value at width 16. -/
def Obligations.CodeValueDecodesFromItsBytes : Prop :=
  ∀ (i : Instr) (c : Code), codeOf i = some c → codeAt (encode i) 0 16 = c.toNat

/-- R99: the class the decoder gives a code is the one instruction of that code value whose condition holds. -/
def Obligations.EveryCodeHasExactlyOneClass : Prop :=
  ∀ (x : CodeContext) (c : Code) (i : Instr),
    codeInstr (classify x c) = i ↔ (codeOf i = some c ∧ ClassHolds x i)

/-- R148: the shift-register form of the extraction equals the definition of R147 wherever the code lies inside the bytes. -/
def Obligations.ShiftFormEqualsBitSum : Prop :=
  ∀ (bs : List Byte) (q w : Nat), 9 ≤ w → w ≤ 16 → q + w ≤ 8 * bs.length → codeAtShift bs q w = codeAt bs q w

/-! ## Reset -/

/-- R44, R270: the values the spec gives for reset, after power-on and after the command `RESET`, which completes in every
state. Of the registers the rule leaves unspecified nothing is said. -/
def Obligations.ResetLeavesTheGivenValues : Prop :=
  GivenAtReset State.reset ∧ ∀ s : State, ∃ t, exec .resetCommand s = .next t ∧ GivenAtReset t

/-- All that `RESET` does, the model's choices among it (log entries 2, 3 and 4): the registers that become unspecified
hold the model's free values, the RAM lists nothing, and the host's stream and its further actions stay. -/
def Obligations.ResetCommandFrame : Prop :=
  ∀ s : State, exec .resetCommand s = .next { s with
    st := .idle, err := .none, errinfo := 0, hdrValid := false, pendingClear := false, forceRefill := false,
    bytes := 0, usable := 0, bitoff := 0, stk := [], inpos := 0, bufbase := 0, out := [], ram := [],
    maxbits := Config.freeMaxbits s.freeCount, block := Config.freeBlock s.freeCount,
    codewidth := Config.freeCodewidth s.freeCount, maxcode := Config.freeMaxcode s.freeCount,
    nextfree := Config.freeNextfree s.freeCount, lastcode := Config.freeLastcode s.freeCount,
    lastfirst := Config.freeLastfirst s.freeCount, buf := Config.freeBuf s.freeCount,
    answer := .none, freeCount := s.freeCount + 1 }

/-! ## The Header Parser -/

/-- R126, R45: a legal header starts the session; nothing else changes, and the spare bits are stored nowhere (R123). -/
def Obligations.HeaderStartsSession : Prop :=
  ∀ (s : State) (block : Bool) (spare : BitVec 2) (mb : BitVec 5),
    s.st = .idle → 9 ≤ mb.toNat → mb.toNat ≤ 16 →
    exec (.header block spare mb) s = .next { s with
      hdrValid := true, maxbits := mb, block := block, codewidth := 9,
      maxcode := if mb = 9 then 512 else 511, nextfree := if block then 257 else 256,
      pendingClear := false, forceRefill := false, bytes := 0, usable := 0, bitoff := 0, bufbase := 3,
      st := .start, answer := .ok }

/-- R122, R235, R236: a header without the magic raises `FormatError` cause 1, whatever its third byte. -/
def Obligations.BadMagicRaisesCauseOne : Prop :=
  ∀ (s : State) (m0 m1 control : Byte), s.st = .idle → ¬(m0 = 0x1F ∧ m1 = 0x9D) →
    ∃ t, exec (.headerBadMagic m0 m1 control) s = .next t ∧
      t.errinfo.toNat = m0.toNat + 256 * m1.toNat ∧ causeNumber t.err = 1 ∧
      t = { s with st := .fault, err := t.err, errinfo := t.errinfo, answer := .fault }

/-- R124, R235, R236: `maxbits` above 16 raises cause 2, below 9 cause 3, with the control byte recorded. -/
def Obligations.BadWidthRaisesCauseTwoOrThree : Prop :=
  (∀ (s : State) (block : Bool) (spare : BitVec 2) (mb : BitVec 5), s.st = .idle → 16 < mb.toNat →
    ∃ t, exec (.headerWidthTooLarge block spare mb) s = .next t ∧
      t.errinfo.toNat = 128 * block.toNat + 32 * spare.toNat + mb.toNat ∧ causeNumber t.err = 2 ∧
      t = { s with st := .fault, err := t.err, errinfo := t.errinfo, answer := .fault }) ∧
  (∀ (s : State) (block : Bool) (spare : BitVec 2) (mb : BitVec 5), s.st = .idle → mb.toNat < 9 →
    ∃ t, exec (.headerWidthTooSmall block spare mb) s = .next t ∧
      t.errinfo.toNat = 128 * block.toNat + 32 * spare.toNat + mb.toNat ∧ causeNumber t.err = 3 ∧
      t = { s with st := .fault, err := t.err, errinfo := t.errinfo, answer := .fault })

/-- R125, R235, R236: a stream of fewer than three bytes raises cause 4 with their number recorded. -/
def Obligations.ShortHeaderRaisesCauseFour : Prop :=
  ∀ (s : State) (present : List Byte), s.st = .idle → present.length < 3 →
    ∃ t, exec (.headerShort present) s = .next t ∧ t.errinfo.toNat = present.length ∧ causeNumber t.err = 4 ∧
      t = { s with st := .fault, err := t.err, errinfo := t.errinfo, answer := .fault }

/-- R130 (and R121): `OPEN` in `Idle` completes and starts a session exactly when the stream begins with the magic and a
control byte whose low five bits are 9 to 16; it then reports exactly those bits and bit 7. Of the 256 control bytes 64
are accepted. -/
def Obligations.OpenAcceptsExactlyLegalHeaders : Prop :=
  (∀ s : State, s.st = .idle → s.inpos = 0 →
    ∃ t, exec .openCommand s = .next t ∧
      ((∃ c rest, s.input = 0x1F :: 0x9D :: c :: rest ∧ 9 ≤ c.toNat % 32 ∧ c.toNat % 32 ≤ 16 ∧
          t.st = .start ∧ t.answer = .ok ∧ t.hdrValid = true ∧ t.maxbits.toNat = c.toNat % 32 ∧
          t.block = decide (128 ≤ c.toNat)) ∨
        ((∀ c rest, s.input = 0x1F :: 0x9D :: c :: rest → ¬(9 ≤ c.toNat % 32 ∧ c.toNat % 32 ≤ 16)) ∧
          t.st = .fault ∧ t.answer = .fault ∧ isFormatError t.err = true))) ∧
  ((List.range 256).filter fun n => headerAccepted (decodeHeader [0x1F, 0x9D, BitVec.ofNat 8 n])).length = 64

/-- R127, R231, R235: which error a bad header reports: short header, then bad magic, then width too large, then width too
small. -/
def Obligations.OpenReportsTheFirstError : Prop :=
  ∀ s t : State, s.st = .idle → s.inpos = 0 → exec .openCommand s = .next t → t.st = .fault →
    (s.input.length < 3 ∧ causeNumber t.err = 4 ∧ t.errinfo.toNat = s.input.length) ∨
    (∃ m0 m1 c rest, s.input = m0 :: m1 :: c :: rest ∧
      ((¬(m0 = 0x1F ∧ m1 = 0x9D) ∧ causeNumber t.err = 1 ∧ t.errinfo.toNat = m0.toNat + 256 * m1.toNat) ∨
        (m0 = 0x1F ∧ m1 = 0x9D ∧ 16 < c.toNat % 32 ∧ causeNumber t.err = 2 ∧ t.errinfo.toNat = c.toNat) ∨
        (m0 = 0x1F ∧ m1 = 0x9D ∧ c.toNat % 32 < 9 ∧ causeNumber t.err = 3 ∧ t.errinfo.toNat = c.toNat)))

/-- R128: after `OPEN` `INPOS` is `min(3, len(IN))` whether it succeeded or failed, and a failed one changes `STATE`,
`ERR`, `ERRINFO` and `INPOS` (and the answer) and nothing else. -/
def Obligations.OpenReadsOnlyTheHeader : Prop :=
  ∀ s : State, s.st = .idle → s.inpos = 0 →
    ∃ t, exec .openCommand s = .next t ∧ t.inpos = min 3 s.input.length ∧
      (t.st = .fault →
        t = { s with st := .fault, err := t.err, errinfo := t.errinfo, inpos := t.inpos, answer := .fault })

/-- R123: two streams whose control bytes differ only in bits 6 and 5 start identical sessions. -/
def Obligations.SpareBitsStartIdenticalSessions : Prop :=
  ∀ (s : State) (c c' : Byte) (body : List Byte), s.st = .idle → s.inpos = 0 → c &&& 0x9F = c' &&& 0x9F →
    ∀ t, exec .openCommand { s with input := 0x1F :: 0x9D :: c :: body } = .next t → t.st = .start →
      exec .openCommand { s with input := 0x1F :: 0x9D :: c' :: body } =
        .next { t with input := 0x1F :: 0x9D :: c' :: body }

/-! ## Refused commands -/

/-- R129, R210, R246: an `OPEN` outside `Idle` and a `DECODE_NEXT` outside `Start` and `Running` change nothing and the
host is told `Refused`. -/
def Obligations.IllegalCommandsAreRefused : Prop :=
  (∀ s : State, s.st ≠ .idle → exec .openCommand s = .next { s with answer := .refused }) ∧
  (∀ s : State, s.st ≠ .start → s.st ≠ .running → exec .decodeNext s = .next { s with answer := .refused })

/-! ## The Bit Code Reader -/

/-- R144, R73, R146: `REFILL` at a legal width completes: it asks for `CODEWIDTH` bytes at `INPOS`, loads those that came,
leaves the rest of `BUF`, and sets the margin; nothing else changes. On no byte it answers `EndOfStream` (R145). -/
def Obligations.RefillLoadsOneGroup : Prop :=
  ∀ s : State, 9 ≤ s.codewidth.toNat → s.codewidth.toNat ≤ 16 →
    ∃ t, exec .refill s = .next t ∧
      t.inpos = s.inpos + min s.codewidth.toNat (s.input.length - s.inpos) ∧ t.bufbase = s.inpos ∧
      t.bytes.toNat = t.inpos - s.inpos ∧ t.bitoff = 0 ∧ t.forceRefill = false ∧
      (t.usable.toNat : Int) = max 0 (8 * (t.bytes.toNat : Int) - ((s.codewidth.toNat : Int) - 1)) ∧
      (∀ i < 16, t.buf.toList[i]? =
        if i < t.bytes.toNat then s.input[s.inpos + i]? else s.buf.toList[i]?) ∧
      t.answer = (if t.bytes.toNat = 0 then .endOfStream else .ok) ∧
      OnlyReaderChanged s t

/-- R147, R149: `EXTRACT` in a buffer loaded at its width completes: it returns the `CODEWIDTH` bits at `BITOFF`, below
`2^CODEWIDTH`, and advances `BITOFF` by `CODEWIDTH`; nothing else changes. -/
def Obligations.ExtractReturnsTheBitsAtOffset : Prop :=
  ∀ s : State, s.forceRefill = false → s.bitoff.toNat < s.usable.toNat →
    s.usable.toNat = usableBits s.bytes.toNat s.codewidth.toNat → s.bytes.toNat ≤ 16 →
    9 ≤ s.codewidth.toNat → s.codewidth.toNat ≤ 16 →
    ∃ c : Code, c.toNat = codeAt s.buf.toList s.bitoff.toNat s.codewidth.toNat ∧ c.toNat < 2 ^ s.codewidth.toNat ∧
      exec .extract s = .next { s with
        bitoff := BitVec.ofNat 8 (s.bitoff.toNat + s.codewidth.toNat), answer := .code c } ∧
      s.bitoff.toNat + s.codewidth.toNat < 2 ^ 8

/-- R143: `SIGNAL_REFILL` sets `FORCE_REFILL` and nothing else. -/
def Obligations.SignalRefillSetsTheFlag : Prop :=
  ∀ s : State, exec .signalRefill s = .next { s with forceRefill := true, answer := .none }

/-- R140, R141: `NEXTCODE` in a session completes with a code below `2^CODEWIDTH` or with `EndOfStream`, and changes reader
state and `INPOS` only. -/
def Obligations.NextcodeCompletesInTheReader : Prop :=
  ∀ s : State, SessionInv s →
    ∃ t, exec .nextcode s = .next t ∧ OnlyReaderChanged s t ∧ t.forceRefill = false ∧
      (t.answer = .endOfStream ∨ ∃ c : Code, t.answer = .code c ∧ c.toNat < 2 ^ s.codewidth.toNat)

/-- R152, R64: in a session two turns of the loop are enough: `NEXTCODE` makes at most two refills. -/
def Obligations.NextcodeNeedsAtMostTwoTurns : Prop :=
  ∀ s : State, SessionInv s → nextcode s = nextcodeLoop 2 s

/-- R24, R67, R102, R151: in a session `NEXTCODE` returns a code exactly when a whole code is left in the stream from the
position R24 names, and the code is the `CODEWIDTH` bits of `IN` that start there; `BITPOS` is then just behind them. -/
def Obligations.NextcodeReadsTheStreamBits : Prop :=
  ∀ s : State, Inv s → inSession s = true →
    (fetchPos s + s.codewidth.toNat ≤ 8 * s.input.length →
      ∃ c t, nextcode s = .next (some c, t) ∧ c.toNat = codeAt s.input (fetchPos s) s.codewidth.toNat ∧
        bitpos t = fetchPos s + s.codewidth.toNat) ∧
    (8 * s.input.length < fetchPos s + s.codewidth.toNat → ∃ t, nextcode s = .next (none, t))

/-- R145: `NEXTCODE` returns `EndOfStream` only after a refill that returned no byte: the stream is used up and the reader
is empty. -/
def Obligations.EndOfStreamMeansNoByteLeft : Prop :=
  ∀ s t : State, Inv s → inSession s = true → nextcode s = .next (none, t) →
    t.inpos = s.input.length ∧ t.bytes = 0 ∧ t.usable = 0 ∧ t.bitoff = 0

/-- R143, R97: with `FORCE_REFILL` set the rest of the buffer is abandoned: the next code is the first of the group that
starts at `INPOS`. -/
def Obligations.ForcedRefillStartsTheNextGroup : Prop :=
  ∀ s : State, Inv s → inSession s = true → s.forceRefill = true → s.inpos + 2 ≤ s.input.length →
    ∃ c t, nextcode s = .next (some c, t) ∧ t.bufbase = s.inpos ∧ t.bitoff.toNat = s.codewidth.toNat ∧
      c.toNat = codeAt s.input (8 * s.inpos) s.codewidth.toNat

/-! ## The Dictionary Table -/

/-- R171: `DT_RESET` sets `NEXTFREE` to `FIRST` and writes nothing else, no RAM location among it. -/
def Obligations.DtResetTruncatesTheTable : Prop :=
  ∀ s : State, exec .dtReset s = .next { s with nextfree := if s.block then 257 else 256, answer := .none }

/-- R172, R173: below the cap `DT_APPEND` writes the one location `NEXTFREE` and returns its index, and every other
location and register stays; at the cap it changes nothing, which is no error. -/
def Obligations.DtAppendWritesOneLocationOrNothing : Prop :=
  (∀ (s : State) (p : Code) (b : Byte), s.nextfree.toNat < 2 ^ s.maxbits.toNat → s.maxbits.toNat ≤ 16 →
    ∃ t, exec (.dtAppend p b) s = .next t ∧ t.nextfree.toNat = s.nextfree.toNat + 1 ∧
      (∀ a, ramLookup t.ram a =
        if a = s.nextfree.toNat then some { pre := p, suffix := b } else ramLookup s.ram a) ∧
      t = { s with ram := t.ram, nextfree := t.nextfree, answer := .index s.nextfree.toNat }) ∧
  (∀ (s : State) (p : Code) (b : Byte), 2 ^ s.maxbits.toNat ≤ s.nextfree.toNat →
    exec (.dtAppend p b) s = .next { s with answer := .nothing })

/-- R174, R176, R70: `DT_RESOLVE` returns the pair of a valid index that holds one, and is refused, never answered with a
value, at every other index. -/
def Obligations.DtResolveReadsValidIndicesOnly : Prop :=
  (∀ (s : State) (a : Code) (e : Entry), 256 + s.block.toNat ≤ a.toNat → a.toNat < s.nextfree.toNat →
    ramLookup s.ram a.toNat = some e → exec (.dtResolve a) s = .next { s with answer := .entry e }) ∧
  (∀ (s : State) (a : Code), ¬(256 + s.block.toNat ≤ a.toNat ∧ a.toNat < s.nextfree.toNat) →
    exec (.dtResolve a) s = .refused .resolveOutOfRange)

/-- R178: the stack form of `STRING` and its mathematical definition are equal: with an empty stack on entry, the row
answers a byte string, with the state otherwise unchanged, exactly when the definition gives that string. -/
def Obligations.StackFormEqualsStringDefinition : Prop :=
  ∀ (s : State) (a : Code) (bs : List Byte), s.stk = [] →
    (exec (.string a) s = .next { s with answer := .bytes bs } ↔ stringOf s a = some bs)

/-- R178 (and R180): in a session `STRING` of a literal or of a valid index completes: a literal's string is its byte, an
index's is the string of its prefix and then its suffix, so at least two bytes, and at most `a - FIRST + 2`; nothing else
changes. -/
def Obligations.StringFollowsItsDefinition : Prop :=
  ∀ (s : State) (a : Code), SessionInv s → s.stk = [] → namesString s a.toNat →
    ∃ bs, stringOf s a = some bs ∧ exec (.string a) s = .next { s with answer := .bytes bs } ∧
      (a.toNat < 256 → bs = [a.extractLsb' 0 8]) ∧
      (256 ≤ a.toNat →
        (∃ e bs', ramLookup s.ram a.toNat = some e ∧ stringOf s e.pre = some bs' ∧ bs = bs' ++ [e.suffix]) ∧
        2 ≤ bs.length ∧ bs.length + firstOf s ≤ a.toNat + 2)

/-! ## The Decoder -/

/-- R192: the first code, a literal, is emitted and remembered, and nothing is appended and the width stays; a code of 256
or more raises `DecodeError` cause 5 with the code recorded. -/
def Obligations.FirstCodeMustBeALiteral : Prop :=
  (∀ (s : State) (b : Byte), s.st = .start →
    exec (.first b) s = .next { s with
      out := s.out ++ [b], lastcode := b.zeroExtend 16, lastfirst := b, st := .running, answer := .emitted 1 }) ∧
  (∀ (s : State) (c : Code), s.st = .start → 256 ≤ c.toNat →
    exec (.firstInvalid c) s =
      .next { s with st := .fault, err := .firstNotLiteral, errinfo := c, answer := .fault }) ∧
  causeNumber .firstNotLiteral = 5 ∧ isDecodeError .firstNotLiteral = true

/-- R195: the literal after a CLEAR is emitted and remembered, clears `PENDING_CLEAR`, and appends nothing; a code of 256
or more there raises `DecodeError` cause 6 with the code recorded. -/
def Obligations.CodeAfterClearMustBeALiteral : Prop :=
  (∀ (s : State) (b : Byte), s.st = .running → s.pendingClear = true →
    exec (.postclr b) s = .next { s with
      out := s.out ++ [b], lastcode := b.zeroExtend 16, lastfirst := b, pendingClear := false, answer := .emitted 1 }) ∧
  (∀ (s : State) (c : Code), s.st = .running → s.pendingClear = true → 256 ≤ c.toNat →
    exec (.postclrInvalid c) s =
      .next { s with st := .fault, err := .postclearNotLiteral, errinfo := c, answer := .fault }) ∧
  causeNumber .postclearNotLiteral = 6 ∧ isDecodeError .postclearNotLiteral = true

/-- R200: a code above `NEXTFREE` raises `DecodeError` cause 7 with the code recorded, before any output. -/
def Obligations.CodeAboveNextfreeIsOutOfRange : Prop :=
  (∀ (s : State) (c : Code), s.st = .running → s.pendingClear = false → 256 ≤ c.toNat →
    ¬(s.block = true ∧ c.toNat = 256) → s.nextfree.toNat < c.toNat →
    exec (.codeOutOfRange c) s =
      .next { s with st := .fault, err := .codeOutOfRange, errinfo := c, answer := .fault }) ∧
  causeNumber .codeOutOfRange = 7 ∧ isDecodeError .codeOutOfRange = true

/-- R194: `CLR` empties the table, takes the width back to 9, forces a refill, sets `PENDING_CLEAR`, emits nothing and
leaves the rest, `LASTCODE` and `LASTFIRST` among it; with `BLOCK = 0` code 256 is never `CLR`. -/
def Obligations.ClrRestartsAtWidthNine : Prop :=
  (∀ s : State, s.st = .running → s.pendingClear = false → s.block = true →
    exec .clr s = .next { s with
      nextfree := 257, codewidth := 9, maxcode := BitVec.ofNat 17 (maxcodeOf 9 s.maxbits.toNat),
      forceRefill := true, pendingClear := true, answer := .emitted 0 }) ∧
  (∀ (x : CodeContext) (c : Code), x.block = false → classify x c ≠ .clr)

/-- R197, R201, R202, R203, R204: a literal in `Running` completes with the common tail of the string of that one byte. -/
def Obligations.LitEmitsAndAppends : Prop :=
  ∀ (s : State) (b : Byte), SessionInv s → s.st = .running → s.pendingClear = false →
    ∃ t, exec (.lit b) s = .next t ∧ TailEffect s t (b.zeroExtend 16) b []

/-- R198, R201, R202, R203, R204: a reference to a valid index completes with the common tail of `STRING(c)`. -/
def Obligations.RefEmitsItsString : Prop :=
  ∀ (s : State) (c : Code), SessionInv s → s.stk = [] → s.st = .running → s.pendingClear = false →
    firstOf s ≤ c.toNat → c.toNat < s.nextfree.toNat →
    ∃ b rest t, stringOf s c = some (b :: rest) ∧ rest ≠ [] ∧ exec (.ref c) s = .next t ∧ TailEffect s t c b rest

/-- R199: the code equal to `NEXTFREE` completes with the common tail of the previous string with its own first byte
appended; that first byte is `LASTFIRST`. A code of the current width names the entry that the step then creates: the
append happens, and afterwards `STRING(c)` is the string the step emitted. -/
def Obligations.KwkRepeatsTheLastString : Prop :=
  ∀ (s : State) (c : Code), SessionInv s → s.stk = [] → s.st = .running → s.pendingClear = false →
    c.toNat = s.nextfree.toNat →
    ∃ rest t, stringOf s s.lastcode = some (s.lastfirst :: rest) ∧ exec (.kwk c) s = .next t ∧
      TailEffect s t c s.lastfirst (rest ++ [s.lastfirst]) ∧
      (c.toNat < 2 ^ s.codewidth.toNat →
        t.nextfree.toNat = c.toNat + 1 ∧ stringOf t c = some (s.lastfirst :: rest ++ [s.lastfirst]))

/-- R100: a `KWK` can only occur when the step will append an entry: a code that `NEXTCODE` fetched and that is `NEXTFREE`
lies below `MAXMAX`. -/
def Obligations.KwkOccursOnlyBelowTheCap : Prop :=
  ∀ (s u : State) (c : Code), Inv s → inSession s = true → nextcode s = .next (some c, u) →
    classify (codeContext u) c = .kwk c → s.nextfree.toNat < 2 ^ s.maxbits.toNat

/-- R172, R75: the table is append-only: a step of the common tail leaves the string of every literal and valid index as
it was. -/
def Obligations.TailStepKeepsEveryString : Prop :=
  ∀ (s t : State) (i : Instr) (a : Code), SessionInv s → s.stk = [] → s.st = .running → s.pendingClear = false →
    isTailInstr i = true → exec i s = .next t → namesString s a.toNat → stringOf t a = stringOf s a

/-- R203: a step of the common tail widens the code exactly when its append has made `NEXTFREE = 2^CODEWIDTH` below
`MAXBITS`; it then adds one to `CODEWIDTH`, rewrites `MAXCODE` and signals a refill, and else leaves all three. -/
def Obligations.WidthGrowsExactlyAtTheBumpPoint : Prop :=
  ∀ (s t : State) (i : Instr), SessionInv s → s.stk = [] → s.st = .running → s.pendingClear = false →
    isTailInstr i = true → exec i s = .next t →
    ((s.nextfree.toNat + 1 = 2 ^ s.codewidth.toNat ∧ s.codewidth.toNat < s.maxbits.toNat) →
      t.codewidth.toNat = s.codewidth.toNat + 1 ∧
        t.maxcode.toNat = maxcodeOf (s.codewidth.toNat + 1) s.maxbits.toNat ∧ t.forceRefill = true) ∧
    (¬(s.nextfree.toNat + 1 = 2 ^ s.codewidth.toNat ∧ s.codewidth.toNat < s.maxbits.toNat) →
      t.codewidth = s.codewidth ∧ t.forceRefill = s.forceRefill ∧ t.maxcode = s.maxcode)

/-- R193: the end of the stream ends the session; no other register of the block changes. -/
def Obligations.EndOfStreamEndsTheSession : Prop :=
  ∀ s : State, inSession s = true → exec .eos s = .next { s with st := .done, answer := .done }

/-- R190, R191, R230: in every legal state of a session `DECODE_NEXT` completes: it runs the class of the code that
`NEXTCODE` fetched, or ends the session, and is told as `Emitted`, `Done` or `Fault`. -/
def Obligations.DecodeNextRunsOneCode : Prop :=
  ∀ s : State, Inv s → inSession s = true →
    ∃ f u t, nextcode s = .next (f, u) ∧ exec .decodeNext s = .next t ∧
      (∀ c, f = some c → exec (codeInstr (classify (codeContext u) c)) u = .next t) ∧
      (f = none → t = { u with st := .done, answer := .done }) ∧
      ((t.st = .running ∧ ∃ n, t.answer = .emitted n) ∨ (t.st = .done ∧ t.answer = .done) ∨
        (t.st = .fault ∧ t.answer = .fault))

/-! ## The whole machine -/

/-- The model's choice (log entry 4, DESIGN CHOICE), of which no rule of the spec speaks: the host's actions still to come are
a list held in the state, and a step takes the next one off it and is that command, or, in `Idle`, a new stream made
available; with none to come a step leaves the state. What the spec gives is which commands there are, and that the block
keeps its state while none is issued. -/
def Obligations.StepIssuesTheHostsAction : Prop :=
  ∀ (s : State) (rest : List HostAction),
    (s.host = [] → step s = .next s) ∧
    (s.host = .reset :: rest → step s = exec .resetCommand { s with host := rest }) ∧
    (s.host = .openStream :: rest → step s = exec .openCommand { s with host := rest }) ∧
    (s.host = .decodeNext :: rest → step s = exec .decodeNext { s with host := rest }) ∧
    (∀ stream, s.host = .present stream :: rest → s.st = .idle →
      step s = .next { s with host := rest, input := stream })

/-- R121, R191: a step runs the decoded instruction: with `OPEN` to come in `Idle` the header item that the bytes at
`INPOS` decode to, behind them; with `DECODE_NEXT` to come in a session the class of the code that `NEXTCODE` fetched, on
the state it left, or the end of the stream. -/
def Obligations.StepRunsTheDecodedInstruction : Prop :=
  (∀ (s : State) (rest : List HostAction), s.host = .openStream :: rest → s.st = .idle →
    step s = exec (headerInstr (decodeHeader (memRead s.input s.inpos 3)))
      { s with host := rest, inpos := s.inpos + (memRead s.input s.inpos 3).length }) ∧
  (∀ (s u : State) (rest : List HostAction) (c : Code), s.host = .decodeNext :: rest → inSession s = true →
    nextcode { s with host := rest } = .next (some c, u) →
    step s = exec (codeInstr (classify (codeContext u) c)) u) ∧
  (∀ (s u : State) (rest : List HostAction), s.host = .decodeNext :: rest → inSession s = true →
    nextcode { s with host := rest } = .next (none, u) → step s = exec .eos u)

/-- The invariants hold at reset (the registers that R44 leaves unspecified play no part in `Idle`). -/
def Obligations.InvariantsHoldAtReset : Prop := Inv State.reset

/-- R43: every step from a state that meets the invariants leaves one that meets them, and the same of the invariants
without what they say of the contents of the buffer. -/
def Obligations.StepKeepsTheInvariants : Prop :=
  (∀ s t : State, Inv s → step s = .next t → Inv t) ∧
  (∀ s t : State, InvBase s → step s = .next t → InvBase t)

/-- R16, R176, R230: no stop of the model's own is ever reached: in a state that meets the invariants every step answers a
next state, but for the one move the host may not make, a new stream outside `Idle` (U16). -/
def Obligations.LegalStatesNeverStop : Prop :=
  ∀ s : State, Inv s → (∀ stream rest, s.host = .present stream :: rest → s.st = .idle) → ∃ t, step s = .next t

/-- The canonical form of the dictionary RAM is kept by every step, from every state. -/
def Obligations.StepKeepsTheRamCanonical : Prop :=
  ∀ s t : State, Memory.wf s.ram = true → step s = .next t → Memory.wf t.ram = true

/-- R206: every step takes `STATE` along the transition that the rule lists for its event, and along no other. -/
def Obligations.StateTransitionsAreTheListedOnes : Prop :=
  ∀ (s t : State) (rest : List HostAction), Inv s → step s = .next t →
    (s.host = .reset :: rest → t.st = .idle) ∧
    (s.host = .openStream :: rest →
      t.st = if s.st = .idle then
        (if headerAccepted (decodeHeader (memRead s.input s.inpos 3)) then .start else .fault) else s.st) ∧
    (∀ stream, s.host = .present stream :: rest → t.st = s.st) ∧
    (s.host = .decodeNext :: rest → inSession s = false → t.st = s.st) ∧
    (∀ f u, s.host = .decodeNext :: rest → inSession s = true → nextcode (s.withHost rest) = .next (f, u) →
      t.st = stateAfter s f)

/-- R27, R37, R42: `DECODE_NEXT` never writes a header register, `IN` or the stack, and it writes the error registers only
when it raises. -/
def Obligations.DecodeNextLeavesTheHeader : Prop :=
  ∀ s t : State, s.stk = [] → exec .decodeNext s = .next t →
    t.hdrValid = s.hdrValid ∧ t.maxbits = s.maxbits ∧ t.block = s.block ∧ t.input = s.input ∧ t.stk = [] ∧
      t.host = s.host ∧ t.freeCount = s.freeCount ∧
      (¬(inSession s = true ∧ t.st = .fault) → t.err = s.err ∧ t.errinfo = s.errinfo)

/-- R207: within a session the width stays or grows by one, up to `MAXBITS`, and returns to 9 at a CLEAR, which happens in
block mode only; with `BLOCK = 0` it never decreases. -/
def Obligations.WidthIsMonotonicBetweenClears : Prop :=
  ∀ s t : State, Inv s → inSession s = true → exec .decodeNext s = .next t →
    (t.answer ≠ .emitted 0 → t.codewidth.toNat = s.codewidth.toNat ∨
      (t.codewidth.toNat = s.codewidth.toNat + 1 ∧ s.codewidth.toNat < s.maxbits.toNat)) ∧
    (t.answer = .emitted 0 → t.codewidth.toNat = 9 ∧ s.block = true ∧ t.pendingClear = true)

/-- R25, R66, R190, R22: every step but `RESET` only extends `OUT` and never decreases `INPOS`, and `DECODE_NEXT` extends
`OUT` by as many bytes as its answer tells. -/
def Obligations.OutputGrowsByTheAnswer : Prop :=
  (∀ s t : State, (∀ rest, s.host ≠ .reset :: rest) → step s = .next t →
    s.inpos ≤ t.inpos ∧ ∃ bs, t.out = s.out ++ bs) ∧
  (∀ s t : State, exec .decodeNext s = .next t →
    s.inpos ≤ t.inpos ∧ ∃ bs, t.out = s.out ++ bs ∧ bs.length = emittedBytes t.answer)

/-- R24, R149, R235, R282: a step of `DECODE_NEXT` that does not end the session, and one that raises, moves `BITPOS` to
just behind the code it fetched, so it uses up at least nine more bits of the finite stream. -/
def Obligations.EachCodeConsumesItsWidth : Prop :=
  ∀ s t : State, Inv s → inSession s = true → exec .decodeNext s = .next t → t.st ≠ .done →
    bitpos t = fetchPos s + s.codewidth.toNat ∧ fetchPos s + 9 ≤ bitpos t ∧ bitpos t ≤ fetchPos t ∧
      fetchPos t ≤ 8 * s.input.length

/-- R237, R238, R236: a `DecodeError` is precise: `OUT`, the RAM and every decoder register are as before the step, the
code has been consumed, and the cause is the one that belongs to the code's place. -/
def Obligations.DecodeErrorIsPrecise : Prop :=
  ∀ s t : State, Inv s → inSession s = true → exec .decodeNext s = .next t → t.st = .fault →
    ∃ c u, nextcode s = .next (some c, u) ∧ OnlyReaderChanged s u ∧ 256 ≤ c.toNat ∧
      t = { u with st := .fault, err := t.err, errinfo := c, answer := .fault } ∧
      causeNumber t.err = (if s.st = .start then 5 else if s.pendingClear then 6 else 7)

/-- R208: after a `LIT`, `REF` or `KWK` step `NEXTFREE` has grown by one up to `MAXMAX`; the other steps that end in
`Running` leave it, but for `CLR`, which sets it to 257. -/
def Obligations.TableGrowsOncePerCode : Prop :=
  ∀ s t : State, Inv s → inSession s = true → exec .decodeNext s = .next t → t.st = .running →
    t.nextfree.toNat =
      if t.answer = .emitted 0 then 257
      else if s.st = .start ∨ s.pendingClear = true then s.nextfree.toNat
      else min (s.nextfree.toNat + 1) (2 ^ s.maxbits.toNat)

/-- R41: hidden state is not observable: two legal states that agree on all but it take the same step, to states that
agree on all but it. Of the contents of `BUF` nothing is asked but that the two agree on `BUF[0..BYTES-1]` where the next
code will be extracted from it, so after a forced refill, or with `BITOFF >= USABLE`, all of `BUF` may differ; the RAM may
differ outside the valid indices, `LASTCODE` and `LASTFIRST` while `PENDING_CLEAR = 1`. -/
def Obligations.HiddenStateIsNotObservable : Prop :=
  ∀ s s' t : State, InvBase s → InvBase s' → SameButHidden s s' → step s = .next t →
    ∃ t', step s' = .next t' ∧ SameButHidden t t'

/-- R210, R236, R241: `Done` and `Fault` are absorbing: until a `RESET` every step leaves the state as it is, told
`Refused`. -/
def Obligations.DoneAndFaultAreAbsorbing : Prop :=
  ∀ (s t : State) (a : HostAction) (rest : List HostAction), s.st = .done ∨ s.st = .fault → s.host = a :: rest →
    a ≠ .reset → step s = .next t → t = { s with host := rest, answer := .refused }

/-- R99, R129, R210 and the model's choice (log entry 9): an item outside its place has no effect. A header item outside
`Idle`, a code item and the end of the stream outside a session are the refused command they belong to; a header item with
fields of another row and a code item that R99 gives another class stop as no item of that class. -/
def Obligations.ItemsOutsideTheirPlaceHaveNoEffect : Prop :=
  (∀ (s : State) (i : Instr), isHeaderInstr i = true → s.st ≠ .idle → exec i s = .next { s with answer := .refused }) ∧
  (∀ (s : State) (i : Instr), isHeaderInstr i = true → s.st = .idle → WellFormed i = false →
    exec i s = .refused .notThisClass) ∧
  (∀ (s : State) (i : Instr), (codeOf i).isSome = true ∨ i = .eos → inSession s = false →
    exec i s = .next { s with answer := .refused }) ∧
  (∀ (s : State) (i : Instr), (codeOf i).isSome = true → inSession s = true → ¬ClassHolds (codeContext s) i →
    exec i s = .refused .notThisClass)

/-- R147: `EXTRACT` without its precondition stops, refused (log entry 11). -/
def Obligations.ExtractNeedsItsPrecondition : Prop :=
  ∀ s : State, s.forceRefill = true ∨ s.usable.toNat ≤ s.bitoff.toNat → exec .extract s = .refused .extractUnready

/-- R282, R211: every decode ends. From a legal state of a session at most `(8 len(IN) - p) div 9 + 1` steps of
`DECODE_NEXT` reach `Done` or `Fault`, where `p` is the position of the next fetch; after `OPEN` that is bit 24, the rule's
`(8 (len(IN) - 3)) div 9 + 1`. -/
def Obligations.EveryDecodeEnds : Prop :=
  ∀ s : State, Inv s → inSession s = true →
    ∃ t, decodeSteps ((8 * s.input.length - fetchPos s) / 9 + 1) s = some t ∧ (t.st = .done ∨ t.st = .fault)
end

