-- ==== Sys2Proof/Laws/Bits.lean ====
section
/-!
SUPPORT. The small lemmas of the bit fields: the bound of a code, the length of what the encoder writes.
-/

namespace Sys2Proof

theorem codeAt_lt (bs : List Byte) (q w : Nat) : codeAt bs q w < 2 ^ w := by
  induction w with
  | zero => simp [codeAt]
  | succ w ih =>
    have h := Bool.toNat_le (bitAt bs (q + w))
    simp only [codeAt, Nat.pow_succ]
    nlinarith

@[simp] theorem packBytes_length (n : Nat) (bits : List Bool) : (packBytes n bits).length = n := by
  induction n generalizing bits with
  | zero => rfl
  | succ n ih => simp [packBytes, ih]

@[simp] theorem codeBits_length (w c : Nat) : (codeBits w c).length = w := by simp [codeBits]

theorem codeBytes_length (c : Code) : (codeBytes c).length = 2 := rfl

theorem headerBytes_length (b : Bool) (p : BitVec 2) (m : BitVec 5) : (headerBytes b p m).length = 3 := rfl

theorem literalByte_literalCode (b : Byte) : literalByte (literalCode b) = b := by
  apply BitVec.eq_of_toNat_eq
  have := b.isLt
  simp [literalByte, literalCode]
  omega

theorem isLiteral_literalCode (b : Byte) : isLiteral (literalCode b) = true := by
  have := b.isLt
  simp [isLiteral, literalCode, Config.literals]
  omega

end Sys2Proof
end

