-- ==== Sys2Proof/Laws/State.lean ====
section
/-!
SUPPORT. What each named update does to each field of the state, true by definition, for `simp`.
-/

namespace Sys2Proof.Machine

/-! ## `consumeBytes` -/

@[simp] theorem consumeBytes_hdrValid (n : Nat) (s : State) : (consumeBytes n s).hdrValid = s.hdrValid := rfl
@[simp] theorem consumeBytes_maxbits (n : Nat) (s : State) : (consumeBytes n s).maxbits = s.maxbits := rfl
@[simp] theorem consumeBytes_block (n : Nat) (s : State) : (consumeBytes n s).block = s.block := rfl
@[simp] theorem consumeBytes_st (n : Nat) (s : State) : (consumeBytes n s).st = s.st := rfl
@[simp] theorem consumeBytes_codewidth (n : Nat) (s : State) : (consumeBytes n s).codewidth = s.codewidth := rfl
@[simp] theorem consumeBytes_maxcode (n : Nat) (s : State) : (consumeBytes n s).maxcode = s.maxcode := rfl
@[simp] theorem consumeBytes_pendingClear (n : Nat) (s : State) :
    (consumeBytes n s).pendingClear = s.pendingClear := rfl
@[simp] theorem consumeBytes_nextfree (n : Nat) (s : State) : (consumeBytes n s).nextfree = s.nextfree := rfl
@[simp] theorem consumeBytes_lastcode (n : Nat) (s : State) : (consumeBytes n s).lastcode = s.lastcode := rfl
@[simp] theorem consumeBytes_lastfirst (n : Nat) (s : State) : (consumeBytes n s).lastfirst = s.lastfirst := rfl
@[simp] theorem consumeBytes_forceRefill (n : Nat) (s : State) : (consumeBytes n s).forceRefill = s.forceRefill := rfl
@[simp] theorem consumeBytes_buf (n : Nat) (s : State) : (consumeBytes n s).buf = s.buf := rfl
@[simp] theorem consumeBytes_bytes (n : Nat) (s : State) : (consumeBytes n s).bytes = s.bytes := rfl
@[simp] theorem consumeBytes_usable (n : Nat) (s : State) : (consumeBytes n s).usable = s.usable := rfl
@[simp] theorem consumeBytes_bitoff (n : Nat) (s : State) : (consumeBytes n s).bitoff = s.bitoff := rfl
@[simp] theorem consumeBytes_err (n : Nat) (s : State) : (consumeBytes n s).err = s.err := rfl
@[simp] theorem consumeBytes_errinfo (n : Nat) (s : State) : (consumeBytes n s).errinfo = s.errinfo := rfl
@[simp] theorem consumeBytes_ram (n : Nat) (s : State) : (consumeBytes n s).ram = s.ram := rfl
@[simp] theorem consumeBytes_stk (n : Nat) (s : State) : (consumeBytes n s).stk = s.stk := rfl
@[simp] theorem consumeBytes_inpos (n : Nat) (s : State) :
    (consumeBytes n s).inpos = s.inpos + (bytesToRead n s).length := rfl
@[simp] theorem consumeBytes_bufbase (n : Nat) (s : State) : (consumeBytes n s).bufbase = s.bufbase := rfl
@[simp] theorem consumeBytes_out (n : Nat) (s : State) : (consumeBytes n s).out = s.out := rfl
@[simp] theorem consumeBytes_input (n : Nat) (s : State) : (consumeBytes n s).input = s.input := rfl
@[simp] theorem consumeBytes_host (n : Nat) (s : State) : (consumeBytes n s).host = s.host := rfl
@[simp] theorem consumeBytes_answer (n : Nat) (s : State) : (consumeBytes n s).answer = s.answer := rfl
@[simp] theorem consumeBytes_freeCount (n : Nat) (s : State) : (consumeBytes n s).freeCount = s.freeCount := rfl

/-! ## `emitBytes` -/

@[simp] theorem emitBytes_hdrValid (bs : List Byte) (s : State) : (emitBytes bs s).hdrValid = s.hdrValid := rfl
@[simp] theorem emitBytes_maxbits (bs : List Byte) (s : State) : (emitBytes bs s).maxbits = s.maxbits := rfl
@[simp] theorem emitBytes_block (bs : List Byte) (s : State) : (emitBytes bs s).block = s.block := rfl
@[simp] theorem emitBytes_st (bs : List Byte) (s : State) : (emitBytes bs s).st = s.st := rfl
@[simp] theorem emitBytes_codewidth (bs : List Byte) (s : State) : (emitBytes bs s).codewidth = s.codewidth := rfl
@[simp] theorem emitBytes_maxcode (bs : List Byte) (s : State) : (emitBytes bs s).maxcode = s.maxcode := rfl
@[simp] theorem emitBytes_pendingClear (bs : List Byte) (s : State) :
    (emitBytes bs s).pendingClear = s.pendingClear := rfl
@[simp] theorem emitBytes_nextfree (bs : List Byte) (s : State) : (emitBytes bs s).nextfree = s.nextfree := rfl
@[simp] theorem emitBytes_lastcode (bs : List Byte) (s : State) : (emitBytes bs s).lastcode = s.lastcode := rfl
@[simp] theorem emitBytes_lastfirst (bs : List Byte) (s : State) : (emitBytes bs s).lastfirst = s.lastfirst := rfl
@[simp] theorem emitBytes_forceRefill (bs : List Byte) (s : State) :
    (emitBytes bs s).forceRefill = s.forceRefill := rfl
@[simp] theorem emitBytes_buf (bs : List Byte) (s : State) : (emitBytes bs s).buf = s.buf := rfl
@[simp] theorem emitBytes_bytes (bs : List Byte) (s : State) : (emitBytes bs s).bytes = s.bytes := rfl
@[simp] theorem emitBytes_usable (bs : List Byte) (s : State) : (emitBytes bs s).usable = s.usable := rfl
@[simp] theorem emitBytes_bitoff (bs : List Byte) (s : State) : (emitBytes bs s).bitoff = s.bitoff := rfl
@[simp] theorem emitBytes_err (bs : List Byte) (s : State) : (emitBytes bs s).err = s.err := rfl
@[simp] theorem emitBytes_errinfo (bs : List Byte) (s : State) : (emitBytes bs s).errinfo = s.errinfo := rfl
@[simp] theorem emitBytes_ram (bs : List Byte) (s : State) : (emitBytes bs s).ram = s.ram := rfl
@[simp] theorem emitBytes_stk (bs : List Byte) (s : State) : (emitBytes bs s).stk = s.stk := rfl
@[simp] theorem emitBytes_inpos (bs : List Byte) (s : State) : (emitBytes bs s).inpos = s.inpos := rfl
@[simp] theorem emitBytes_bufbase (bs : List Byte) (s : State) : (emitBytes bs s).bufbase = s.bufbase := rfl
@[simp] theorem emitBytes_out (bs : List Byte) (s : State) : (emitBytes bs s).out = s.out ++ bs := rfl
@[simp] theorem emitBytes_input (bs : List Byte) (s : State) : (emitBytes bs s).input = s.input := rfl
@[simp] theorem emitBytes_host (bs : List Byte) (s : State) : (emitBytes bs s).host = s.host := rfl
@[simp] theorem emitBytes_answer (bs : List Byte) (s : State) : (emitBytes bs s).answer = s.answer := rfl
@[simp] theorem emitBytes_freeCount (bs : List Byte) (s : State) : (emitBytes bs s).freeCount = s.freeCount := rfl

/-! ## `push` -/

@[simp] theorem push_hdrValid (b : Byte) (s : State) : (push b s).hdrValid = s.hdrValid := rfl
@[simp] theorem push_maxbits (b : Byte) (s : State) : (push b s).maxbits = s.maxbits := rfl
@[simp] theorem push_block (b : Byte) (s : State) : (push b s).block = s.block := rfl
@[simp] theorem push_st (b : Byte) (s : State) : (push b s).st = s.st := rfl
@[simp] theorem push_codewidth (b : Byte) (s : State) : (push b s).codewidth = s.codewidth := rfl
@[simp] theorem push_maxcode (b : Byte) (s : State) : (push b s).maxcode = s.maxcode := rfl
@[simp] theorem push_pendingClear (b : Byte) (s : State) : (push b s).pendingClear = s.pendingClear := rfl
@[simp] theorem push_nextfree (b : Byte) (s : State) : (push b s).nextfree = s.nextfree := rfl
@[simp] theorem push_lastcode (b : Byte) (s : State) : (push b s).lastcode = s.lastcode := rfl
@[simp] theorem push_lastfirst (b : Byte) (s : State) : (push b s).lastfirst = s.lastfirst := rfl
@[simp] theorem push_forceRefill (b : Byte) (s : State) : (push b s).forceRefill = s.forceRefill := rfl
@[simp] theorem push_buf (b : Byte) (s : State) : (push b s).buf = s.buf := rfl
@[simp] theorem push_bytes (b : Byte) (s : State) : (push b s).bytes = s.bytes := rfl
@[simp] theorem push_usable (b : Byte) (s : State) : (push b s).usable = s.usable := rfl
@[simp] theorem push_bitoff (b : Byte) (s : State) : (push b s).bitoff = s.bitoff := rfl
@[simp] theorem push_err (b : Byte) (s : State) : (push b s).err = s.err := rfl
@[simp] theorem push_errinfo (b : Byte) (s : State) : (push b s).errinfo = s.errinfo := rfl
@[simp] theorem push_ram (b : Byte) (s : State) : (push b s).ram = s.ram := rfl
@[simp] theorem push_stk (b : Byte) (s : State) : (push b s).stk = b :: s.stk := rfl
@[simp] theorem push_inpos (b : Byte) (s : State) : (push b s).inpos = s.inpos := rfl
@[simp] theorem push_bufbase (b : Byte) (s : State) : (push b s).bufbase = s.bufbase := rfl
@[simp] theorem push_out (b : Byte) (s : State) : (push b s).out = s.out := rfl
@[simp] theorem push_input (b : Byte) (s : State) : (push b s).input = s.input := rfl
@[simp] theorem push_host (b : Byte) (s : State) : (push b s).host = s.host := rfl
@[simp] theorem push_answer (b : Byte) (s : State) : (push b s).answer = s.answer := rfl
@[simp] theorem push_freeCount (b : Byte) (s : State) : (push b s).freeCount = s.freeCount := rfl

/-! ## `popAll` -/

@[simp] theorem popAll_hdrValid (s : State) : (popAll s).hdrValid = s.hdrValid := rfl
@[simp] theorem popAll_maxbits (s : State) : (popAll s).maxbits = s.maxbits := rfl
@[simp] theorem popAll_block (s : State) : (popAll s).block = s.block := rfl
@[simp] theorem popAll_st (s : State) : (popAll s).st = s.st := rfl
@[simp] theorem popAll_codewidth (s : State) : (popAll s).codewidth = s.codewidth := rfl
@[simp] theorem popAll_maxcode (s : State) : (popAll s).maxcode = s.maxcode := rfl
@[simp] theorem popAll_pendingClear (s : State) : (popAll s).pendingClear = s.pendingClear := rfl
@[simp] theorem popAll_nextfree (s : State) : (popAll s).nextfree = s.nextfree := rfl
@[simp] theorem popAll_lastcode (s : State) : (popAll s).lastcode = s.lastcode := rfl
@[simp] theorem popAll_lastfirst (s : State) : (popAll s).lastfirst = s.lastfirst := rfl
@[simp] theorem popAll_forceRefill (s : State) : (popAll s).forceRefill = s.forceRefill := rfl
@[simp] theorem popAll_buf (s : State) : (popAll s).buf = s.buf := rfl
@[simp] theorem popAll_bytes (s : State) : (popAll s).bytes = s.bytes := rfl
@[simp] theorem popAll_usable (s : State) : (popAll s).usable = s.usable := rfl
@[simp] theorem popAll_bitoff (s : State) : (popAll s).bitoff = s.bitoff := rfl
@[simp] theorem popAll_err (s : State) : (popAll s).err = s.err := rfl
@[simp] theorem popAll_errinfo (s : State) : (popAll s).errinfo = s.errinfo := rfl
@[simp] theorem popAll_ram (s : State) : (popAll s).ram = s.ram := rfl
@[simp] theorem popAll_stk (s : State) : (popAll s).stk = [] := rfl
@[simp] theorem popAll_inpos (s : State) : (popAll s).inpos = s.inpos := rfl
@[simp] theorem popAll_bufbase (s : State) : (popAll s).bufbase = s.bufbase := rfl
@[simp] theorem popAll_out (s : State) : (popAll s).out = s.out := rfl
@[simp] theorem popAll_input (s : State) : (popAll s).input = s.input := rfl
@[simp] theorem popAll_host (s : State) : (popAll s).host = s.host := rfl
@[simp] theorem popAll_answer (s : State) : (popAll s).answer = s.answer := rfl
@[simp] theorem popAll_freeCount (s : State) : (popAll s).freeCount = s.freeCount := rfl

/-! ## `answerWith` -/

@[simp] theorem answerWith_hdrValid (a : Answer) (s : State) : (answerWith a s).hdrValid = s.hdrValid := rfl
@[simp] theorem answerWith_maxbits (a : Answer) (s : State) : (answerWith a s).maxbits = s.maxbits := rfl
@[simp] theorem answerWith_block (a : Answer) (s : State) : (answerWith a s).block = s.block := rfl
@[simp] theorem answerWith_st (a : Answer) (s : State) : (answerWith a s).st = s.st := rfl
@[simp] theorem answerWith_codewidth (a : Answer) (s : State) : (answerWith a s).codewidth = s.codewidth := rfl
@[simp] theorem answerWith_maxcode (a : Answer) (s : State) : (answerWith a s).maxcode = s.maxcode := rfl
@[simp] theorem answerWith_pendingClear (a : Answer) (s : State) :
    (answerWith a s).pendingClear = s.pendingClear := rfl
@[simp] theorem answerWith_nextfree (a : Answer) (s : State) : (answerWith a s).nextfree = s.nextfree := rfl
@[simp] theorem answerWith_lastcode (a : Answer) (s : State) : (answerWith a s).lastcode = s.lastcode := rfl
@[simp] theorem answerWith_lastfirst (a : Answer) (s : State) : (answerWith a s).lastfirst = s.lastfirst := rfl
@[simp] theorem answerWith_forceRefill (a : Answer) (s : State) : (answerWith a s).forceRefill = s.forceRefill := rfl
@[simp] theorem answerWith_buf (a : Answer) (s : State) : (answerWith a s).buf = s.buf := rfl
@[simp] theorem answerWith_bytes (a : Answer) (s : State) : (answerWith a s).bytes = s.bytes := rfl
@[simp] theorem answerWith_usable (a : Answer) (s : State) : (answerWith a s).usable = s.usable := rfl
@[simp] theorem answerWith_bitoff (a : Answer) (s : State) : (answerWith a s).bitoff = s.bitoff := rfl
@[simp] theorem answerWith_err (a : Answer) (s : State) : (answerWith a s).err = s.err := rfl
@[simp] theorem answerWith_errinfo (a : Answer) (s : State) : (answerWith a s).errinfo = s.errinfo := rfl
@[simp] theorem answerWith_ram (a : Answer) (s : State) : (answerWith a s).ram = s.ram := rfl
@[simp] theorem answerWith_stk (a : Answer) (s : State) : (answerWith a s).stk = s.stk := rfl
@[simp] theorem answerWith_inpos (a : Answer) (s : State) : (answerWith a s).inpos = s.inpos := rfl
@[simp] theorem answerWith_bufbase (a : Answer) (s : State) : (answerWith a s).bufbase = s.bufbase := rfl
@[simp] theorem answerWith_out (a : Answer) (s : State) : (answerWith a s).out = s.out := rfl
@[simp] theorem answerWith_input (a : Answer) (s : State) : (answerWith a s).input = s.input := rfl
@[simp] theorem answerWith_host (a : Answer) (s : State) : (answerWith a s).host = s.host := rfl
@[simp] theorem answerWith_answer (a : Answer) (s : State) : (answerWith a s).answer = a := rfl
@[simp] theorem answerWith_freeCount (a : Answer) (s : State) : (answerWith a s).freeCount = s.freeCount := rfl

/-! ## `refuseCommand` -/

@[simp] theorem refuseCommand_hdrValid (s : State) : (refuseCommand s).hdrValid = s.hdrValid := rfl
@[simp] theorem refuseCommand_maxbits (s : State) : (refuseCommand s).maxbits = s.maxbits := rfl
@[simp] theorem refuseCommand_block (s : State) : (refuseCommand s).block = s.block := rfl
@[simp] theorem refuseCommand_st (s : State) : (refuseCommand s).st = s.st := rfl
@[simp] theorem refuseCommand_codewidth (s : State) : (refuseCommand s).codewidth = s.codewidth := rfl
@[simp] theorem refuseCommand_maxcode (s : State) : (refuseCommand s).maxcode = s.maxcode := rfl
@[simp] theorem refuseCommand_pendingClear (s : State) : (refuseCommand s).pendingClear = s.pendingClear := rfl
@[simp] theorem refuseCommand_nextfree (s : State) : (refuseCommand s).nextfree = s.nextfree := rfl
@[simp] theorem refuseCommand_lastcode (s : State) : (refuseCommand s).lastcode = s.lastcode := rfl
@[simp] theorem refuseCommand_lastfirst (s : State) : (refuseCommand s).lastfirst = s.lastfirst := rfl
@[simp] theorem refuseCommand_forceRefill (s : State) : (refuseCommand s).forceRefill = s.forceRefill := rfl
@[simp] theorem refuseCommand_buf (s : State) : (refuseCommand s).buf = s.buf := rfl
@[simp] theorem refuseCommand_bytes (s : State) : (refuseCommand s).bytes = s.bytes := rfl
@[simp] theorem refuseCommand_usable (s : State) : (refuseCommand s).usable = s.usable := rfl
@[simp] theorem refuseCommand_bitoff (s : State) : (refuseCommand s).bitoff = s.bitoff := rfl
@[simp] theorem refuseCommand_err (s : State) : (refuseCommand s).err = s.err := rfl
@[simp] theorem refuseCommand_errinfo (s : State) : (refuseCommand s).errinfo = s.errinfo := rfl
@[simp] theorem refuseCommand_ram (s : State) : (refuseCommand s).ram = s.ram := rfl
@[simp] theorem refuseCommand_stk (s : State) : (refuseCommand s).stk = s.stk := rfl
@[simp] theorem refuseCommand_inpos (s : State) : (refuseCommand s).inpos = s.inpos := rfl
@[simp] theorem refuseCommand_bufbase (s : State) : (refuseCommand s).bufbase = s.bufbase := rfl
@[simp] theorem refuseCommand_out (s : State) : (refuseCommand s).out = s.out := rfl
@[simp] theorem refuseCommand_input (s : State) : (refuseCommand s).input = s.input := rfl
@[simp] theorem refuseCommand_host (s : State) : (refuseCommand s).host = s.host := rfl
@[simp] theorem refuseCommand_answer (s : State) : (refuseCommand s).answer = .refused := rfl
@[simp] theorem refuseCommand_freeCount (s : State) : (refuseCommand s).freeCount = s.freeCount := rfl

/-! ## `raise` -/

@[simp] theorem raise_hdrValid (c : Cause) (info : BitVec 16) (s : State) :
    (raise c info s).hdrValid = s.hdrValid := rfl
@[simp] theorem raise_maxbits (c : Cause) (info : BitVec 16) (s : State) : (raise c info s).maxbits = s.maxbits := rfl
@[simp] theorem raise_block (c : Cause) (info : BitVec 16) (s : State) : (raise c info s).block = s.block := rfl
@[simp] theorem raise_st (c : Cause) (info : BitVec 16) (s : State) : (raise c info s).st = .fault := rfl
@[simp] theorem raise_codewidth (c : Cause) (info : BitVec 16) (s : State) :
    (raise c info s).codewidth = s.codewidth := rfl
@[simp] theorem raise_maxcode (c : Cause) (info : BitVec 16) (s : State) : (raise c info s).maxcode = s.maxcode := rfl
@[simp] theorem raise_pendingClear (c : Cause) (info : BitVec 16) (s : State) :
    (raise c info s).pendingClear = s.pendingClear := rfl
@[simp] theorem raise_nextfree (c : Cause) (info : BitVec 16) (s : State) :
    (raise c info s).nextfree = s.nextfree := rfl
@[simp] theorem raise_lastcode (c : Cause) (info : BitVec 16) (s : State) :
    (raise c info s).lastcode = s.lastcode := rfl
@[simp] theorem raise_lastfirst (c : Cause) (info : BitVec 16) (s : State) :
    (raise c info s).lastfirst = s.lastfirst := rfl
@[simp] theorem raise_forceRefill (c : Cause) (info : BitVec 16) (s : State) :
    (raise c info s).forceRefill = s.forceRefill := rfl
@[simp] theorem raise_buf (c : Cause) (info : BitVec 16) (s : State) : (raise c info s).buf = s.buf := rfl
@[simp] theorem raise_bytes (c : Cause) (info : BitVec 16) (s : State) : (raise c info s).bytes = s.bytes := rfl
@[simp] theorem raise_usable (c : Cause) (info : BitVec 16) (s : State) : (raise c info s).usable = s.usable := rfl
@[simp] theorem raise_bitoff (c : Cause) (info : BitVec 16) (s : State) : (raise c info s).bitoff = s.bitoff := rfl
@[simp] theorem raise_err (c : Cause) (info : BitVec 16) (s : State) : (raise c info s).err = c := rfl
@[simp] theorem raise_errinfo (c : Cause) (info : BitVec 16) (s : State) : (raise c info s).errinfo = info := rfl
@[simp] theorem raise_ram (c : Cause) (info : BitVec 16) (s : State) : (raise c info s).ram = s.ram := rfl
@[simp] theorem raise_stk (c : Cause) (info : BitVec 16) (s : State) : (raise c info s).stk = s.stk := rfl
@[simp] theorem raise_inpos (c : Cause) (info : BitVec 16) (s : State) : (raise c info s).inpos = s.inpos := rfl
@[simp] theorem raise_bufbase (c : Cause) (info : BitVec 16) (s : State) : (raise c info s).bufbase = s.bufbase := rfl
@[simp] theorem raise_out (c : Cause) (info : BitVec 16) (s : State) : (raise c info s).out = s.out := rfl
@[simp] theorem raise_input (c : Cause) (info : BitVec 16) (s : State) : (raise c info s).input = s.input := rfl
@[simp] theorem raise_host (c : Cause) (info : BitVec 16) (s : State) : (raise c info s).host = s.host := rfl
@[simp] theorem raise_answer (c : Cause) (info : BitVec 16) (s : State) : (raise c info s).answer = .fault := rfl
@[simp] theorem raise_freeCount (c : Cause) (info : BitVec 16) (s : State) :
    (raise c info s).freeCount = s.freeCount := rfl

/-! ## `resetBlock` -/

@[simp] theorem resetBlock_hdrValid (s : State) : (resetBlock s).hdrValid = false := rfl
@[simp] theorem resetBlock_maxbits (s : State) : (resetBlock s).maxbits = Config.freeMaxbits s.freeCount := rfl
@[simp] theorem resetBlock_block (s : State) : (resetBlock s).block = Config.freeBlock s.freeCount := rfl
@[simp] theorem resetBlock_st (s : State) : (resetBlock s).st = .idle := rfl
@[simp] theorem resetBlock_codewidth (s : State) : (resetBlock s).codewidth = Config.freeCodewidth s.freeCount := rfl
@[simp] theorem resetBlock_maxcode (s : State) : (resetBlock s).maxcode = Config.freeMaxcode s.freeCount := rfl
@[simp] theorem resetBlock_pendingClear (s : State) : (resetBlock s).pendingClear = false := rfl
@[simp] theorem resetBlock_nextfree (s : State) : (resetBlock s).nextfree = Config.freeNextfree s.freeCount := rfl
@[simp] theorem resetBlock_lastcode (s : State) : (resetBlock s).lastcode = Config.freeLastcode s.freeCount := rfl
@[simp] theorem resetBlock_lastfirst (s : State) : (resetBlock s).lastfirst = Config.freeLastfirst s.freeCount := rfl
@[simp] theorem resetBlock_forceRefill (s : State) : (resetBlock s).forceRefill = false := rfl
@[simp] theorem resetBlock_buf (s : State) : (resetBlock s).buf = Config.freeBuf s.freeCount := rfl
@[simp] theorem resetBlock_bytes (s : State) : (resetBlock s).bytes = 0 := rfl
@[simp] theorem resetBlock_usable (s : State) : (resetBlock s).usable = 0 := rfl
@[simp] theorem resetBlock_bitoff (s : State) : (resetBlock s).bitoff = 0 := rfl
@[simp] theorem resetBlock_err (s : State) : (resetBlock s).err = .none := rfl
@[simp] theorem resetBlock_errinfo (s : State) : (resetBlock s).errinfo = 0 := rfl
@[simp] theorem resetBlock_ram (s : State) : (resetBlock s).ram = [] := rfl
@[simp] theorem resetBlock_stk (s : State) : (resetBlock s).stk = [] := rfl
@[simp] theorem resetBlock_inpos (s : State) : (resetBlock s).inpos = 0 := rfl
@[simp] theorem resetBlock_bufbase (s : State) : (resetBlock s).bufbase = 0 := rfl
@[simp] theorem resetBlock_out (s : State) : (resetBlock s).out = [] := rfl
@[simp] theorem resetBlock_input (s : State) : (resetBlock s).input = s.input := rfl
@[simp] theorem resetBlock_host (s : State) : (resetBlock s).host = s.host := rfl
@[simp] theorem resetBlock_answer (s : State) : (resetBlock s).answer = .none := rfl
@[simp] theorem resetBlock_freeCount (s : State) : (resetBlock s).freeCount = s.freeCount + 1 := rfl

/-! ## `startSession` -/

@[simp] theorem startSession_hdrValid (b : Bool) (m : BitVec 5) (s : State) :
    (startSession b m s).hdrValid = true := rfl
@[simp] theorem startSession_maxbits (b : Bool) (m : BitVec 5) (s : State) : (startSession b m s).maxbits = m := rfl
@[simp] theorem startSession_block (b : Bool) (m : BitVec 5) (s : State) : (startSession b m s).block = b := rfl
@[simp] theorem startSession_st (b : Bool) (m : BitVec 5) (s : State) : (startSession b m s).st = .start := rfl
@[simp] theorem startSession_codewidth (b : Bool) (m : BitVec 5) (s : State) :
    (startSession b m s).codewidth = BitVec.ofNat 5 Config.initBits := rfl
@[simp] theorem startSession_maxcode (b : Bool) (m : BitVec 5) (s : State) :
    (startSession b m s).maxcode = maxcodeFor Config.initBits m := rfl
@[simp] theorem startSession_pendingClear (b : Bool) (m : BitVec 5) (s : State) :
    (startSession b m s).pendingClear = false := rfl
@[simp] theorem startSession_nextfree (b : Bool) (m : BitVec 5) (s : State) :
    (startSession b m s).nextfree = BitVec.ofNat 17 (firstIndex b) := rfl
@[simp] theorem startSession_lastcode (b : Bool) (m : BitVec 5) (s : State) :
    (startSession b m s).lastcode = s.lastcode := rfl
@[simp] theorem startSession_lastfirst (b : Bool) (m : BitVec 5) (s : State) :
    (startSession b m s).lastfirst = s.lastfirst := rfl
@[simp] theorem startSession_forceRefill (b : Bool) (m : BitVec 5) (s : State) :
    (startSession b m s).forceRefill = false := rfl
@[simp] theorem startSession_buf (b : Bool) (m : BitVec 5) (s : State) : (startSession b m s).buf = s.buf := rfl
@[simp] theorem startSession_bytes (b : Bool) (m : BitVec 5) (s : State) : (startSession b m s).bytes = 0 := rfl
@[simp] theorem startSession_usable (b : Bool) (m : BitVec 5) (s : State) : (startSession b m s).usable = 0 := rfl
@[simp] theorem startSession_bitoff (b : Bool) (m : BitVec 5) (s : State) : (startSession b m s).bitoff = 0 := rfl
@[simp] theorem startSession_err (b : Bool) (m : BitVec 5) (s : State) : (startSession b m s).err = s.err := rfl
@[simp] theorem startSession_errinfo (b : Bool) (m : BitVec 5) (s : State) :
    (startSession b m s).errinfo = s.errinfo := rfl
@[simp] theorem startSession_ram (b : Bool) (m : BitVec 5) (s : State) : (startSession b m s).ram = s.ram := rfl
@[simp] theorem startSession_stk (b : Bool) (m : BitVec 5) (s : State) : (startSession b m s).stk = s.stk := rfl
@[simp] theorem startSession_inpos (b : Bool) (m : BitVec 5) (s : State) : (startSession b m s).inpos = s.inpos := rfl
@[simp] theorem startSession_bufbase (b : Bool) (m : BitVec 5) (s : State) : (startSession b m s).bufbase = 3 := rfl
@[simp] theorem startSession_out (b : Bool) (m : BitVec 5) (s : State) : (startSession b m s).out = s.out := rfl
@[simp] theorem startSession_input (b : Bool) (m : BitVec 5) (s : State) : (startSession b m s).input = s.input := rfl
@[simp] theorem startSession_host (b : Bool) (m : BitVec 5) (s : State) : (startSession b m s).host = s.host := rfl
@[simp] theorem startSession_answer (b : Bool) (m : BitVec 5) (s : State) :
    (startSession b m s).answer = s.answer := rfl
@[simp] theorem startSession_freeCount (b : Bool) (m : BitVec 5) (s : State) :
    (startSession b m s).freeCount = s.freeCount := rfl

/-! ## `signalRefill` -/

@[simp] theorem signalRefill_hdrValid (s : State) : (signalRefill s).hdrValid = s.hdrValid := rfl
@[simp] theorem signalRefill_maxbits (s : State) : (signalRefill s).maxbits = s.maxbits := rfl
@[simp] theorem signalRefill_block (s : State) : (signalRefill s).block = s.block := rfl
@[simp] theorem signalRefill_st (s : State) : (signalRefill s).st = s.st := rfl
@[simp] theorem signalRefill_codewidth (s : State) : (signalRefill s).codewidth = s.codewidth := rfl
@[simp] theorem signalRefill_maxcode (s : State) : (signalRefill s).maxcode = s.maxcode := rfl
@[simp] theorem signalRefill_pendingClear (s : State) : (signalRefill s).pendingClear = s.pendingClear := rfl
@[simp] theorem signalRefill_nextfree (s : State) : (signalRefill s).nextfree = s.nextfree := rfl
@[simp] theorem signalRefill_lastcode (s : State) : (signalRefill s).lastcode = s.lastcode := rfl
@[simp] theorem signalRefill_lastfirst (s : State) : (signalRefill s).lastfirst = s.lastfirst := rfl
@[simp] theorem signalRefill_forceRefill (s : State) : (signalRefill s).forceRefill = true := rfl
@[simp] theorem signalRefill_buf (s : State) : (signalRefill s).buf = s.buf := rfl
@[simp] theorem signalRefill_bytes (s : State) : (signalRefill s).bytes = s.bytes := rfl
@[simp] theorem signalRefill_usable (s : State) : (signalRefill s).usable = s.usable := rfl
@[simp] theorem signalRefill_bitoff (s : State) : (signalRefill s).bitoff = s.bitoff := rfl
@[simp] theorem signalRefill_err (s : State) : (signalRefill s).err = s.err := rfl
@[simp] theorem signalRefill_errinfo (s : State) : (signalRefill s).errinfo = s.errinfo := rfl
@[simp] theorem signalRefill_ram (s : State) : (signalRefill s).ram = s.ram := rfl
@[simp] theorem signalRefill_stk (s : State) : (signalRefill s).stk = s.stk := rfl
@[simp] theorem signalRefill_inpos (s : State) : (signalRefill s).inpos = s.inpos := rfl
@[simp] theorem signalRefill_bufbase (s : State) : (signalRefill s).bufbase = s.bufbase := rfl
@[simp] theorem signalRefill_out (s : State) : (signalRefill s).out = s.out := rfl
@[simp] theorem signalRefill_input (s : State) : (signalRefill s).input = s.input := rfl
@[simp] theorem signalRefill_host (s : State) : (signalRefill s).host = s.host := rfl
@[simp] theorem signalRefill_answer (s : State) : (signalRefill s).answer = s.answer := rfl
@[simp] theorem signalRefill_freeCount (s : State) : (signalRefill s).freeCount = s.freeCount := rfl

/-! ## `startGroup` -/

@[simp] theorem startGroup_hdrValid (k : Nat) (s : State) : (startGroup k s).hdrValid = s.hdrValid := rfl
@[simp] theorem startGroup_maxbits (k : Nat) (s : State) : (startGroup k s).maxbits = s.maxbits := rfl
@[simp] theorem startGroup_block (k : Nat) (s : State) : (startGroup k s).block = s.block := rfl
@[simp] theorem startGroup_st (k : Nat) (s : State) : (startGroup k s).st = s.st := rfl
@[simp] theorem startGroup_codewidth (k : Nat) (s : State) : (startGroup k s).codewidth = s.codewidth := rfl
@[simp] theorem startGroup_maxcode (k : Nat) (s : State) : (startGroup k s).maxcode = s.maxcode := rfl
@[simp] theorem startGroup_pendingClear (k : Nat) (s : State) : (startGroup k s).pendingClear = s.pendingClear := rfl
@[simp] theorem startGroup_nextfree (k : Nat) (s : State) : (startGroup k s).nextfree = s.nextfree := rfl
@[simp] theorem startGroup_lastcode (k : Nat) (s : State) : (startGroup k s).lastcode = s.lastcode := rfl
@[simp] theorem startGroup_lastfirst (k : Nat) (s : State) : (startGroup k s).lastfirst = s.lastfirst := rfl
@[simp] theorem startGroup_forceRefill (k : Nat) (s : State) : (startGroup k s).forceRefill = false := rfl
@[simp] theorem startGroup_buf (k : Nat) (s : State) : (startGroup k s).buf = s.buf := rfl
@[simp] theorem startGroup_bytes (k : Nat) (s : State) : (startGroup k s).bytes = BitVec.ofNat 5 k := rfl
@[simp] theorem startGroup_usable (k : Nat) (s : State) :
    (startGroup k s).usable = BitVec.ofNat 7 (usableBits k s.codewidth.toNat) := rfl
@[simp] theorem startGroup_bitoff (k : Nat) (s : State) : (startGroup k s).bitoff = 0 := rfl
@[simp] theorem startGroup_err (k : Nat) (s : State) : (startGroup k s).err = s.err := rfl
@[simp] theorem startGroup_errinfo (k : Nat) (s : State) : (startGroup k s).errinfo = s.errinfo := rfl
@[simp] theorem startGroup_ram (k : Nat) (s : State) : (startGroup k s).ram = s.ram := rfl
@[simp] theorem startGroup_stk (k : Nat) (s : State) : (startGroup k s).stk = s.stk := rfl
@[simp] theorem startGroup_inpos (k : Nat) (s : State) : (startGroup k s).inpos = s.inpos + k := rfl
@[simp] theorem startGroup_bufbase (k : Nat) (s : State) : (startGroup k s).bufbase = s.inpos := rfl
@[simp] theorem startGroup_out (k : Nat) (s : State) : (startGroup k s).out = s.out := rfl
@[simp] theorem startGroup_input (k : Nat) (s : State) : (startGroup k s).input = s.input := rfl
@[simp] theorem startGroup_host (k : Nat) (s : State) : (startGroup k s).host = s.host := rfl
@[simp] theorem startGroup_answer (k : Nat) (s : State) : (startGroup k s).answer = s.answer := rfl
@[simp] theorem startGroup_freeCount (k : Nat) (s : State) : (startGroup k s).freeCount = s.freeCount := rfl

/-! ## `loadGroup` -/

@[simp] theorem loadGroup_hdrValid (bs : List Byte) (s : State) : (loadGroup bs s).hdrValid = s.hdrValid := rfl
@[simp] theorem loadGroup_maxbits (bs : List Byte) (s : State) : (loadGroup bs s).maxbits = s.maxbits := rfl
@[simp] theorem loadGroup_block (bs : List Byte) (s : State) : (loadGroup bs s).block = s.block := rfl
@[simp] theorem loadGroup_st (bs : List Byte) (s : State) : (loadGroup bs s).st = s.st := rfl
@[simp] theorem loadGroup_codewidth (bs : List Byte) (s : State) : (loadGroup bs s).codewidth = s.codewidth := rfl
@[simp] theorem loadGroup_maxcode (bs : List Byte) (s : State) : (loadGroup bs s).maxcode = s.maxcode := rfl
@[simp] theorem loadGroup_pendingClear (bs : List Byte) (s : State) :
    (loadGroup bs s).pendingClear = s.pendingClear := rfl
@[simp] theorem loadGroup_nextfree (bs : List Byte) (s : State) : (loadGroup bs s).nextfree = s.nextfree := rfl
@[simp] theorem loadGroup_lastcode (bs : List Byte) (s : State) : (loadGroup bs s).lastcode = s.lastcode := rfl
@[simp] theorem loadGroup_lastfirst (bs : List Byte) (s : State) : (loadGroup bs s).lastfirst = s.lastfirst := rfl
@[simp] theorem loadGroup_forceRefill (bs : List Byte) (s : State) :
    (loadGroup bs s).forceRefill = s.forceRefill := rfl
@[simp] theorem loadGroup_buf (bs : List Byte) (s : State) : (loadGroup bs s).buf = loadBuf bs s.buf := rfl
@[simp] theorem loadGroup_bytes (bs : List Byte) (s : State) : (loadGroup bs s).bytes = s.bytes := rfl
@[simp] theorem loadGroup_usable (bs : List Byte) (s : State) : (loadGroup bs s).usable = s.usable := rfl
@[simp] theorem loadGroup_bitoff (bs : List Byte) (s : State) : (loadGroup bs s).bitoff = s.bitoff := rfl
@[simp] theorem loadGroup_err (bs : List Byte) (s : State) : (loadGroup bs s).err = s.err := rfl
@[simp] theorem loadGroup_errinfo (bs : List Byte) (s : State) : (loadGroup bs s).errinfo = s.errinfo := rfl
@[simp] theorem loadGroup_ram (bs : List Byte) (s : State) : (loadGroup bs s).ram = s.ram := rfl
@[simp] theorem loadGroup_stk (bs : List Byte) (s : State) : (loadGroup bs s).stk = s.stk := rfl
@[simp] theorem loadGroup_inpos (bs : List Byte) (s : State) : (loadGroup bs s).inpos = s.inpos := rfl
@[simp] theorem loadGroup_bufbase (bs : List Byte) (s : State) : (loadGroup bs s).bufbase = s.bufbase := rfl
@[simp] theorem loadGroup_out (bs : List Byte) (s : State) : (loadGroup bs s).out = s.out := rfl
@[simp] theorem loadGroup_input (bs : List Byte) (s : State) : (loadGroup bs s).input = s.input := rfl
@[simp] theorem loadGroup_host (bs : List Byte) (s : State) : (loadGroup bs s).host = s.host := rfl
@[simp] theorem loadGroup_answer (bs : List Byte) (s : State) : (loadGroup bs s).answer = s.answer := rfl
@[simp] theorem loadGroup_freeCount (bs : List Byte) (s : State) : (loadGroup bs s).freeCount = s.freeCount := rfl

/-! ## `advanceOffset` -/

@[simp] theorem advanceOffset_hdrValid (s : State) : (advanceOffset s).hdrValid = s.hdrValid := rfl
@[simp] theorem advanceOffset_maxbits (s : State) : (advanceOffset s).maxbits = s.maxbits := rfl
@[simp] theorem advanceOffset_block (s : State) : (advanceOffset s).block = s.block := rfl
@[simp] theorem advanceOffset_st (s : State) : (advanceOffset s).st = s.st := rfl
@[simp] theorem advanceOffset_codewidth (s : State) : (advanceOffset s).codewidth = s.codewidth := rfl
@[simp] theorem advanceOffset_maxcode (s : State) : (advanceOffset s).maxcode = s.maxcode := rfl
@[simp] theorem advanceOffset_pendingClear (s : State) : (advanceOffset s).pendingClear = s.pendingClear := rfl
@[simp] theorem advanceOffset_nextfree (s : State) : (advanceOffset s).nextfree = s.nextfree := rfl
@[simp] theorem advanceOffset_lastcode (s : State) : (advanceOffset s).lastcode = s.lastcode := rfl
@[simp] theorem advanceOffset_lastfirst (s : State) : (advanceOffset s).lastfirst = s.lastfirst := rfl
@[simp] theorem advanceOffset_forceRefill (s : State) : (advanceOffset s).forceRefill = s.forceRefill := rfl
@[simp] theorem advanceOffset_buf (s : State) : (advanceOffset s).buf = s.buf := rfl
@[simp] theorem advanceOffset_bytes (s : State) : (advanceOffset s).bytes = s.bytes := rfl
@[simp] theorem advanceOffset_usable (s : State) : (advanceOffset s).usable = s.usable := rfl
@[simp] theorem advanceOffset_bitoff (s : State) :
    (advanceOffset s).bitoff = BitVec.ofNat 8 (s.bitoff.toNat + s.codewidth.toNat) := rfl
@[simp] theorem advanceOffset_err (s : State) : (advanceOffset s).err = s.err := rfl
@[simp] theorem advanceOffset_errinfo (s : State) : (advanceOffset s).errinfo = s.errinfo := rfl
@[simp] theorem advanceOffset_ram (s : State) : (advanceOffset s).ram = s.ram := rfl
@[simp] theorem advanceOffset_stk (s : State) : (advanceOffset s).stk = s.stk := rfl
@[simp] theorem advanceOffset_inpos (s : State) : (advanceOffset s).inpos = s.inpos := rfl
@[simp] theorem advanceOffset_bufbase (s : State) : (advanceOffset s).bufbase = s.bufbase := rfl
@[simp] theorem advanceOffset_out (s : State) : (advanceOffset s).out = s.out := rfl
@[simp] theorem advanceOffset_input (s : State) : (advanceOffset s).input = s.input := rfl
@[simp] theorem advanceOffset_host (s : State) : (advanceOffset s).host = s.host := rfl
@[simp] theorem advanceOffset_answer (s : State) : (advanceOffset s).answer = s.answer := rfl
@[simp] theorem advanceOffset_freeCount (s : State) : (advanceOffset s).freeCount = s.freeCount := rfl

/-! ## `dtReset` -/

@[simp] theorem dtReset_hdrValid (s : State) : (dtReset s).hdrValid = s.hdrValid := rfl
@[simp] theorem dtReset_maxbits (s : State) : (dtReset s).maxbits = s.maxbits := rfl
@[simp] theorem dtReset_block (s : State) : (dtReset s).block = s.block := rfl
@[simp] theorem dtReset_st (s : State) : (dtReset s).st = s.st := rfl
@[simp] theorem dtReset_codewidth (s : State) : (dtReset s).codewidth = s.codewidth := rfl
@[simp] theorem dtReset_maxcode (s : State) : (dtReset s).maxcode = s.maxcode := rfl
@[simp] theorem dtReset_pendingClear (s : State) : (dtReset s).pendingClear = s.pendingClear := rfl
@[simp] theorem dtReset_nextfree (s : State) : (dtReset s).nextfree = BitVec.ofNat 17 (firstOf s) := rfl
@[simp] theorem dtReset_lastcode (s : State) : (dtReset s).lastcode = s.lastcode := rfl
@[simp] theorem dtReset_lastfirst (s : State) : (dtReset s).lastfirst = s.lastfirst := rfl
@[simp] theorem dtReset_forceRefill (s : State) : (dtReset s).forceRefill = s.forceRefill := rfl
@[simp] theorem dtReset_buf (s : State) : (dtReset s).buf = s.buf := rfl
@[simp] theorem dtReset_bytes (s : State) : (dtReset s).bytes = s.bytes := rfl
@[simp] theorem dtReset_usable (s : State) : (dtReset s).usable = s.usable := rfl
@[simp] theorem dtReset_bitoff (s : State) : (dtReset s).bitoff = s.bitoff := rfl
@[simp] theorem dtReset_err (s : State) : (dtReset s).err = s.err := rfl
@[simp] theorem dtReset_errinfo (s : State) : (dtReset s).errinfo = s.errinfo := rfl
@[simp] theorem dtReset_ram (s : State) : (dtReset s).ram = s.ram := rfl
@[simp] theorem dtReset_stk (s : State) : (dtReset s).stk = s.stk := rfl
@[simp] theorem dtReset_inpos (s : State) : (dtReset s).inpos = s.inpos := rfl
@[simp] theorem dtReset_bufbase (s : State) : (dtReset s).bufbase = s.bufbase := rfl
@[simp] theorem dtReset_out (s : State) : (dtReset s).out = s.out := rfl
@[simp] theorem dtReset_input (s : State) : (dtReset s).input = s.input := rfl
@[simp] theorem dtReset_host (s : State) : (dtReset s).host = s.host := rfl
@[simp] theorem dtReset_answer (s : State) : (dtReset s).answer = s.answer := rfl
@[simp] theorem dtReset_freeCount (s : State) : (dtReset s).freeCount = s.freeCount := rfl

/-! ## `growTable` -/

@[simp] theorem growTable_hdrValid (s : State) : (growTable s).hdrValid = s.hdrValid := rfl
@[simp] theorem growTable_maxbits (s : State) : (growTable s).maxbits = s.maxbits := rfl
@[simp] theorem growTable_block (s : State) : (growTable s).block = s.block := rfl
@[simp] theorem growTable_st (s : State) : (growTable s).st = s.st := rfl
@[simp] theorem growTable_codewidth (s : State) : (growTable s).codewidth = s.codewidth := rfl
@[simp] theorem growTable_maxcode (s : State) : (growTable s).maxcode = s.maxcode := rfl
@[simp] theorem growTable_pendingClear (s : State) : (growTable s).pendingClear = s.pendingClear := rfl
@[simp] theorem growTable_nextfree (s : State) :
    (growTable s).nextfree = BitVec.ofNat 17 (s.nextfree.toNat + 1) := rfl
@[simp] theorem growTable_lastcode (s : State) : (growTable s).lastcode = s.lastcode := rfl
@[simp] theorem growTable_lastfirst (s : State) : (growTable s).lastfirst = s.lastfirst := rfl
@[simp] theorem growTable_forceRefill (s : State) : (growTable s).forceRefill = s.forceRefill := rfl
@[simp] theorem growTable_buf (s : State) : (growTable s).buf = s.buf := rfl
@[simp] theorem growTable_bytes (s : State) : (growTable s).bytes = s.bytes := rfl
@[simp] theorem growTable_usable (s : State) : (growTable s).usable = s.usable := rfl
@[simp] theorem growTable_bitoff (s : State) : (growTable s).bitoff = s.bitoff := rfl
@[simp] theorem growTable_err (s : State) : (growTable s).err = s.err := rfl
@[simp] theorem growTable_errinfo (s : State) : (growTable s).errinfo = s.errinfo := rfl
@[simp] theorem growTable_ram (s : State) : (growTable s).ram = s.ram := rfl
@[simp] theorem growTable_stk (s : State) : (growTable s).stk = s.stk := rfl
@[simp] theorem growTable_inpos (s : State) : (growTable s).inpos = s.inpos := rfl
@[simp] theorem growTable_bufbase (s : State) : (growTable s).bufbase = s.bufbase := rfl
@[simp] theorem growTable_out (s : State) : (growTable s).out = s.out := rfl
@[simp] theorem growTable_input (s : State) : (growTable s).input = s.input := rfl
@[simp] theorem growTable_host (s : State) : (growTable s).host = s.host := rfl
@[simp] theorem growTable_answer (s : State) : (growTable s).answer = s.answer := rfl
@[simp] theorem growTable_freeCount (s : State) : (growTable s).freeCount = s.freeCount := rfl

/-! ## `remember` -/

@[simp] theorem remember_hdrValid (c : Code) (b : Byte) (s : State) : (remember c b s).hdrValid = s.hdrValid := rfl
@[simp] theorem remember_maxbits (c : Code) (b : Byte) (s : State) : (remember c b s).maxbits = s.maxbits := rfl
@[simp] theorem remember_block (c : Code) (b : Byte) (s : State) : (remember c b s).block = s.block := rfl
@[simp] theorem remember_st (c : Code) (b : Byte) (s : State) : (remember c b s).st = s.st := rfl
@[simp] theorem remember_codewidth (c : Code) (b : Byte) (s : State) : (remember c b s).codewidth = s.codewidth := rfl
@[simp] theorem remember_maxcode (c : Code) (b : Byte) (s : State) : (remember c b s).maxcode = s.maxcode := rfl
@[simp] theorem remember_pendingClear (c : Code) (b : Byte) (s : State) :
    (remember c b s).pendingClear = s.pendingClear := rfl
@[simp] theorem remember_nextfree (c : Code) (b : Byte) (s : State) : (remember c b s).nextfree = s.nextfree := rfl
@[simp] theorem remember_lastcode (c : Code) (b : Byte) (s : State) : (remember c b s).lastcode = c := rfl
@[simp] theorem remember_lastfirst (c : Code) (b : Byte) (s : State) : (remember c b s).lastfirst = b := rfl
@[simp] theorem remember_forceRefill (c : Code) (b : Byte) (s : State) :
    (remember c b s).forceRefill = s.forceRefill := rfl
@[simp] theorem remember_buf (c : Code) (b : Byte) (s : State) : (remember c b s).buf = s.buf := rfl
@[simp] theorem remember_bytes (c : Code) (b : Byte) (s : State) : (remember c b s).bytes = s.bytes := rfl
@[simp] theorem remember_usable (c : Code) (b : Byte) (s : State) : (remember c b s).usable = s.usable := rfl
@[simp] theorem remember_bitoff (c : Code) (b : Byte) (s : State) : (remember c b s).bitoff = s.bitoff := rfl
@[simp] theorem remember_err (c : Code) (b : Byte) (s : State) : (remember c b s).err = s.err := rfl
@[simp] theorem remember_errinfo (c : Code) (b : Byte) (s : State) : (remember c b s).errinfo = s.errinfo := rfl
@[simp] theorem remember_ram (c : Code) (b : Byte) (s : State) : (remember c b s).ram = s.ram := rfl
@[simp] theorem remember_stk (c : Code) (b : Byte) (s : State) : (remember c b s).stk = s.stk := rfl
@[simp] theorem remember_inpos (c : Code) (b : Byte) (s : State) : (remember c b s).inpos = s.inpos := rfl
@[simp] theorem remember_bufbase (c : Code) (b : Byte) (s : State) : (remember c b s).bufbase = s.bufbase := rfl
@[simp] theorem remember_out (c : Code) (b : Byte) (s : State) : (remember c b s).out = s.out := rfl
@[simp] theorem remember_input (c : Code) (b : Byte) (s : State) : (remember c b s).input = s.input := rfl
@[simp] theorem remember_host (c : Code) (b : Byte) (s : State) : (remember c b s).host = s.host := rfl
@[simp] theorem remember_answer (c : Code) (b : Byte) (s : State) : (remember c b s).answer = s.answer := rfl
@[simp] theorem remember_freeCount (c : Code) (b : Byte) (s : State) : (remember c b s).freeCount = s.freeCount := rfl

/-! ## `widen` -/

@[simp] theorem widen_hdrValid (s : State) : (widen s).hdrValid = s.hdrValid := rfl
@[simp] theorem widen_maxbits (s : State) : (widen s).maxbits = s.maxbits := rfl
@[simp] theorem widen_block (s : State) : (widen s).block = s.block := rfl
@[simp] theorem widen_st (s : State) : (widen s).st = s.st := rfl
@[simp] theorem widen_codewidth (s : State) : (widen s).codewidth = BitVec.ofNat 5 (s.codewidth.toNat + 1) := rfl
@[simp] theorem widen_maxcode (s : State) : (widen s).maxcode = maxcodeFor (s.codewidth.toNat + 1) s.maxbits := rfl
@[simp] theorem widen_pendingClear (s : State) : (widen s).pendingClear = s.pendingClear := rfl
@[simp] theorem widen_nextfree (s : State) : (widen s).nextfree = s.nextfree := rfl
@[simp] theorem widen_lastcode (s : State) : (widen s).lastcode = s.lastcode := rfl
@[simp] theorem widen_lastfirst (s : State) : (widen s).lastfirst = s.lastfirst := rfl
@[simp] theorem widen_forceRefill (s : State) : (widen s).forceRefill = s.forceRefill := rfl
@[simp] theorem widen_buf (s : State) : (widen s).buf = s.buf := rfl
@[simp] theorem widen_bytes (s : State) : (widen s).bytes = s.bytes := rfl
@[simp] theorem widen_usable (s : State) : (widen s).usable = s.usable := rfl
@[simp] theorem widen_bitoff (s : State) : (widen s).bitoff = s.bitoff := rfl
@[simp] theorem widen_err (s : State) : (widen s).err = s.err := rfl
@[simp] theorem widen_errinfo (s : State) : (widen s).errinfo = s.errinfo := rfl
@[simp] theorem widen_ram (s : State) : (widen s).ram = s.ram := rfl
@[simp] theorem widen_stk (s : State) : (widen s).stk = s.stk := rfl
@[simp] theorem widen_inpos (s : State) : (widen s).inpos = s.inpos := rfl
@[simp] theorem widen_bufbase (s : State) : (widen s).bufbase = s.bufbase := rfl
@[simp] theorem widen_out (s : State) : (widen s).out = s.out := rfl
@[simp] theorem widen_input (s : State) : (widen s).input = s.input := rfl
@[simp] theorem widen_host (s : State) : (widen s).host = s.host := rfl
@[simp] theorem widen_answer (s : State) : (widen s).answer = s.answer := rfl
@[simp] theorem widen_freeCount (s : State) : (widen s).freeCount = s.freeCount := rfl

/-! ## `restartWidth` -/

@[simp] theorem restartWidth_hdrValid (s : State) : (restartWidth s).hdrValid = s.hdrValid := rfl
@[simp] theorem restartWidth_maxbits (s : State) : (restartWidth s).maxbits = s.maxbits := rfl
@[simp] theorem restartWidth_block (s : State) : (restartWidth s).block = s.block := rfl
@[simp] theorem restartWidth_st (s : State) : (restartWidth s).st = s.st := rfl
@[simp] theorem restartWidth_codewidth (s : State) :
    (restartWidth s).codewidth = BitVec.ofNat 5 Config.initBits := rfl
@[simp] theorem restartWidth_maxcode (s : State) :
    (restartWidth s).maxcode = maxcodeFor Config.initBits s.maxbits := rfl
@[simp] theorem restartWidth_pendingClear (s : State) : (restartWidth s).pendingClear = s.pendingClear := rfl
@[simp] theorem restartWidth_nextfree (s : State) : (restartWidth s).nextfree = s.nextfree := rfl
@[simp] theorem restartWidth_lastcode (s : State) : (restartWidth s).lastcode = s.lastcode := rfl
@[simp] theorem restartWidth_lastfirst (s : State) : (restartWidth s).lastfirst = s.lastfirst := rfl
@[simp] theorem restartWidth_forceRefill (s : State) : (restartWidth s).forceRefill = s.forceRefill := rfl
@[simp] theorem restartWidth_buf (s : State) : (restartWidth s).buf = s.buf := rfl
@[simp] theorem restartWidth_bytes (s : State) : (restartWidth s).bytes = s.bytes := rfl
@[simp] theorem restartWidth_usable (s : State) : (restartWidth s).usable = s.usable := rfl
@[simp] theorem restartWidth_bitoff (s : State) : (restartWidth s).bitoff = s.bitoff := rfl
@[simp] theorem restartWidth_err (s : State) : (restartWidth s).err = s.err := rfl
@[simp] theorem restartWidth_errinfo (s : State) : (restartWidth s).errinfo = s.errinfo := rfl
@[simp] theorem restartWidth_ram (s : State) : (restartWidth s).ram = s.ram := rfl
@[simp] theorem restartWidth_stk (s : State) : (restartWidth s).stk = s.stk := rfl
@[simp] theorem restartWidth_inpos (s : State) : (restartWidth s).inpos = s.inpos := rfl
@[simp] theorem restartWidth_bufbase (s : State) : (restartWidth s).bufbase = s.bufbase := rfl
@[simp] theorem restartWidth_out (s : State) : (restartWidth s).out = s.out := rfl
@[simp] theorem restartWidth_input (s : State) : (restartWidth s).input = s.input := rfl
@[simp] theorem restartWidth_host (s : State) : (restartWidth s).host = s.host := rfl
@[simp] theorem restartWidth_answer (s : State) : (restartWidth s).answer = s.answer := rfl
@[simp] theorem restartWidth_freeCount (s : State) : (restartWidth s).freeCount = s.freeCount := rfl

/-! ## `State.withHost` -/

@[simp] theorem withHost_hdrValid (h : List HostAction) (s : State) : (s.withHost h).hdrValid = s.hdrValid := rfl
@[simp] theorem withHost_maxbits (h : List HostAction) (s : State) : (s.withHost h).maxbits = s.maxbits := rfl
@[simp] theorem withHost_block (h : List HostAction) (s : State) : (s.withHost h).block = s.block := rfl
@[simp] theorem withHost_st (h : List HostAction) (s : State) : (s.withHost h).st = s.st := rfl
@[simp] theorem withHost_codewidth (h : List HostAction) (s : State) : (s.withHost h).codewidth = s.codewidth := rfl
@[simp] theorem withHost_maxcode (h : List HostAction) (s : State) : (s.withHost h).maxcode = s.maxcode := rfl
@[simp] theorem withHost_pendingClear (h : List HostAction) (s : State) :
    (s.withHost h).pendingClear = s.pendingClear := rfl
@[simp] theorem withHost_nextfree (h : List HostAction) (s : State) : (s.withHost h).nextfree = s.nextfree := rfl
@[simp] theorem withHost_lastcode (h : List HostAction) (s : State) : (s.withHost h).lastcode = s.lastcode := rfl
@[simp] theorem withHost_lastfirst (h : List HostAction) (s : State) : (s.withHost h).lastfirst = s.lastfirst := rfl
@[simp] theorem withHost_forceRefill (h : List HostAction) (s : State) :
    (s.withHost h).forceRefill = s.forceRefill := rfl
@[simp] theorem withHost_buf (h : List HostAction) (s : State) : (s.withHost h).buf = s.buf := rfl
@[simp] theorem withHost_bytes (h : List HostAction) (s : State) : (s.withHost h).bytes = s.bytes := rfl
@[simp] theorem withHost_usable (h : List HostAction) (s : State) : (s.withHost h).usable = s.usable := rfl
@[simp] theorem withHost_bitoff (h : List HostAction) (s : State) : (s.withHost h).bitoff = s.bitoff := rfl
@[simp] theorem withHost_err (h : List HostAction) (s : State) : (s.withHost h).err = s.err := rfl
@[simp] theorem withHost_errinfo (h : List HostAction) (s : State) : (s.withHost h).errinfo = s.errinfo := rfl
@[simp] theorem withHost_ram (h : List HostAction) (s : State) : (s.withHost h).ram = s.ram := rfl
@[simp] theorem withHost_stk (h : List HostAction) (s : State) : (s.withHost h).stk = s.stk := rfl
@[simp] theorem withHost_inpos (h : List HostAction) (s : State) : (s.withHost h).inpos = s.inpos := rfl
@[simp] theorem withHost_bufbase (h : List HostAction) (s : State) : (s.withHost h).bufbase = s.bufbase := rfl
@[simp] theorem withHost_out (h : List HostAction) (s : State) : (s.withHost h).out = s.out := rfl
@[simp] theorem withHost_input (h : List HostAction) (s : State) : (s.withHost h).input = s.input := rfl
@[simp] theorem withHost_host (h : List HostAction) (s : State) : (s.withHost h).host = h := rfl
@[simp] theorem withHost_answer (h : List HostAction) (s : State) : (s.withHost h).answer = s.answer := rfl
@[simp] theorem withHost_freeCount (h : List HostAction) (s : State) : (s.withHost h).freeCount = s.freeCount := rfl

end Sys2Proof.Machine
end

