-- ==== Sys2Proof/Laws/Memory.lean ====
section
/-!
SUPPORT. The laws of the dictionary RAM: a read after a write, a write elsewhere, the canonical form kept; and what
`DictRead` and `DictWrite` can answer.
-/

namespace Sys2Proof.Machine

theorem ramLookup_ramInsert_same (m : Memory) (a : Nat) (e : Entry) : ramLookup (ramInsert m a e) a = some e := by
  induction m with
  | nil => simp [ramInsert, ramLookup]
  | cons p rest ih =>
    obtain ⟨k, e'⟩ := p
    unfold ramInsert
    split
    · simp [ramLookup]
    · split
      · simp [ramLookup]
      · rename_i hne
        simp [ramLookup, ih, Ne.symm hne]

theorem ramLookup_ramInsert_other (m : Memory) {a b : Nat} (e : Entry) (h : b ≠ a) :
    ramLookup (ramInsert m a e) b = ramLookup m b := by
  induction m with
  | nil => simp [ramInsert, ramLookup, h.symm]
  | cons p rest ih =>
    obtain ⟨k, e'⟩ := p
    unfold ramInsert
    split
    · simp [ramLookup, h.symm]
    · split
      · rename_i heq
        simp [ramLookup, ← heq, h.symm]
      · simp [ramLookup, ih]

theorem wfFrom_ramInsert (m : Memory) {lo a : Nat} (e : Entry) (hm : wfFrom lo m = true) (hlo : lo ≤ a)
    (ha : a < Config.ramLocations) : wfFrom lo (ramInsert m a e) = true := by
  induction m generalizing lo with
  | nil => simp [ramInsert, wfFrom, hlo, ha]
  | cons p rest ih =>
    obtain ⟨k, e'⟩ := p
    simp only [wfFrom, Bool.and_eq_true, decide_eq_true_eq] at hm
    obtain ⟨⟨h1, h2⟩, h3⟩ := hm
    unfold ramInsert
    split
    · rename_i hlt
      simp only [wfFrom, Bool.and_eq_true, decide_eq_true_eq]
      exact ⟨⟨hlo, ha⟩, ⟨hlt, h2⟩, h3⟩
    · split
      · rename_i heq
        simp only [wfFrom, Bool.and_eq_true, decide_eq_true_eq]
        exact ⟨⟨hlo, ha⟩, heq ▸ h3⟩
      · rename_i hnlt hne
        simp only [wfFrom, Bool.and_eq_true, decide_eq_true_eq]
        exact ⟨⟨h1, h2⟩, ih h3 (by omega)⟩

/-- The one write of the RAM keeps its canonical form. -/
theorem ramInsert_wf {m : Memory} (hm : Memory.wf m = true) (a : Nat) (e : Entry) (ha : a < Config.ramLocations) :
    Memory.wf (ramInsert m a e) = true :=
  wfFrom_ramInsert m e hm (Nat.zero_le a) ha

theorem reset_wf : Memory.wf State.reset.ram = true := rfl

theorem resetBlock_wf (s : State) : Memory.wf (resetBlock s).ram = true := rfl

/-- `DictWrite` answers a next state only at an address that exists, with that one location written. -/
theorem dictWrite_next {a : Nat} {p : Code} {b : Byte} {s t : State} (h : dictWrite a p b s = .next t) :
    a < Config.ramLocations ∧ t = { s with ram := ramInsert s.ram a { pre := p, suffix := b } } := by
  unfold dictWrite at h
  split at h
  · exact ⟨‹_›, by simpa using h.symm⟩
  · cases h

theorem dictWrite_keeps_wf {a : Nat} {p : Code} {b : Byte} {s t : State} (h : dictWrite a p b s = .next t)
    (hs : Memory.wf s.ram = true) : Memory.wf t.ram = true := by
  obtain ⟨ha, rfl⟩ := dictWrite_next h
  exact ramInsert_wf hs a _ ha

/-- `DictRead` answers an entry exactly when the index is valid and the location holds that entry. -/
theorem dictRead_next_iff {a : Code} {s : State} {e : Entry} :
    dictRead a s = .next e ↔ validIndex a.toNat s = true ∧ ramLookup s.ram a.toNat = some e := by
  unfold dictRead
  cases validIndex a.toNat s <;> cases ramLookup s.ram a.toNat <;> simp

/-- `DictRead` refuses exactly the indices that are not valid (R70). -/
theorem dictRead_refused_iff {a : Code} {s : State} {r : Refusal} :
    dictRead a s = .refused r ↔ validIndex a.toNat s = false ∧ r = .resolveOutOfRange := by
  unfold dictRead
  cases validIndex a.toNat s <;> cases ramLookup s.ram a.toNat <;> simp [eq_comm]

end Sys2Proof.Machine
end

