-- ==== Sys2Proof/Laws/Ops.lean ====
section
/-!
SUPPORT. What each shared operation can answer, one lemma each: the chaining of outcomes, the steps of header and code
items, a refill, an extraction, an append, the common tail, the width bump.
-/

namespace Sys2Proof.Machine

@[simp] theorem bindRes_next {α β : Type} (a : α) (f : α → Res β) : bindRes (.next a) f = f a := rfl
@[simp] theorem bindRes_fault {α β : Type} (e : Fault) (f : α → Res β) : bindRes (.fault e) f = .fault e := rfl
@[simp] theorem bindRes_refused {α β : Type} (e : Refusal) (f : α → Res β) : bindRes (.refused e) f = .refused e := rfl

/-- A chain answers exactly when its first part answers and the rest answers on what it hands on. -/
theorem bindRes_eq_next_iff {α β : Type} {r : Res α} {f : α → Res β} {b : β} :
    bindRes r f = .next b ↔ ∃ a, r = .next a ∧ f a = .next b := by
  cases r <;> simp [bindRes]

/-- A header item answers: in `Idle` with its own effect when its fields fit, elsewhere as a refused command. -/
theorem headerStep_next_iff {fits : Bool} {s t u : State} :
    headerStep fits s t = .next u ↔
      (s.st = .idle ∧ fits = true ∧ u = t) ∨ (s.st ≠ .idle ∧ u = refuseCommand s) := by
  unfold headerStep
  split <;> rename_i h
  · cases fits <;> simp [h, eq_comm]
  · simp [h, eq_comm]

/-- A code item answers: in a session when it is the class, with its own outcome, elsewhere as a refused command. -/
theorem codeStep_next_iff {isClass : Bool} {s : State} {r : Res State} {u : State} :
    codeStep isClass s r = .next u ↔
      (inSession s = true ∧ isClass = true ∧ r = .next u) ∨ (inSession s = false ∧ u = refuseCommand s) := by
  unfold codeStep
  cases inSession s <;> cases isClass <;> simp [eq_comm]

theorem bytesToRead_length (n : Nat) (s : State) : (bytesToRead n s).length = min n (s.input.length - s.inpos) := by
  simp [bytesToRead, memRead]

/-- Everything a refill can answer (R144): the end of the stream on no byte, else a loaded group. -/
theorem refill_next {s : State} {more : Bool} {t : State} (h : refill s = .next (more, t)) :
    (more = false ∧ (bytesToRead s.codewidth.toNat s).length = 0 ∧ t = startGroup 0 s) ∨
    (more = true ∧ 0 < (bytesToRead s.codewidth.toNat s).length ∧
      (bytesToRead s.codewidth.toNat s).length ≤ Config.bufBytes ∧
      t = loadGroup (bytesToRead s.codewidth.toNat s) (startGroup (bytesToRead s.codewidth.toNat s).length s)) := by
  simp only [refill] at h
  by_cases hk : (bytesToRead s.codewidth.toNat s).length = 0
  · rw [if_pos hk] at h
    left
    simp only [Host.Outcome.next.injEq, Prod.mk.injEq] at h
    exact ⟨h.1.symm, hk, h.2.symm⟩
  · rw [if_neg hk] at h
    split at h
    · right
      simp only [Host.Outcome.next.injEq, Prod.mk.injEq] at h
      exact ⟨h.1.symm, Nat.pos_of_ne_zero hk, ‹_›, h.2.symm⟩
    · cases h

/-- Everything an extraction can answer (R147): the code at `BITOFF`, wholly inside the bytes fetched. -/
theorem extract_next_iff {s : State} {c : Code} {t : State} :
    extract s = .next (c, t) ↔
      needsRefill s = false ∧ s.codewidth.toNat ≤ Config.maxMaxbits ∧ bitsFetched s = true ∧
        c = bufferCode s ∧ t = advanceOffset s := by
  unfold extract
  by_cases hw : Config.maxMaxbits < s.codewidth.toNat <;>
    cases needsRefill s <;> cases bitsFetched s <;> simp [hw, eq_comm, Nat.le_of_not_lt]

/-- Everything an append can answer (R172): the entry written and the table grown, or nothing at the cap. -/
theorem dtAppend_next {p : Code} {b : Byte} {s : State} {a : Option Nat} {t : State}
    (h : dtAppend p b s = .next (a, t)) :
    (s.nextfree.toNat < maxmaxOf s ∧ s.nextfree.toNat < Config.ramLocations ∧ a = some s.nextfree.toNat ∧
      t = growTable { s with ram := ramInsert s.ram s.nextfree.toNat { pre := p, suffix := b } }) ∨
    (maxmaxOf s ≤ s.nextfree.toNat ∧ a = none ∧ t = s) := by
  unfold dtAppend at h
  split at h
  · obtain ⟨u, hu, h⟩ := bindRes_eq_next_iff.1 h
    obtain ⟨hlt, rfl⟩ := dictWrite_next hu
    left
    simp_all
  · right
    simp_all

theorem maxbits9Blocked_eq_false (s : State) : maxbits9Blocked s = false := by
  simp [maxbits9Blocked, Config.allowMaxbits9Full]

/-- Everything the common tail can answer (R201 to R204). -/
theorem commonTail_next {c : Code} {b : Byte} {rest : List Byte} {s t : State}
    (h : commonTail c b rest s = .next t) :
    ∃ a u, dtAppend s.lastcode b (emitBytes (b :: rest) s) = .next (a, u) ∧
      t = answerWith (.emitted (rest.length + 1)) (remember c b (bumpWidth u)) := by
  unfold commonTail at h
  rw [maxbits9Blocked_eq_false] at h
  obtain ⟨⟨a, u⟩, hu, h⟩ := bindRes_eq_next_iff.1 h
  exact ⟨a, u, hu, by simpa using h.symm⟩

/-- The width bump (R203): one bit wider with a refill signalled, or nothing. -/
theorem bumpWidth_cases (s : State) :
    (s.maxcode.toNat < s.nextfree.toNat ∧ bumpWidth s = signalRefill (widen s)) ∨
    (s.nextfree.toNat ≤ s.maxcode.toNat ∧ bumpWidth s = s) := by
  simp only [bumpWidth, crossed]
  by_cases h : s.maxcode.toNat < s.nextfree.toNat <;> simp [h]; omega

/-- The walk hands on its stack grown by the suffixes alone. -/
theorem walkChain_next {n : Nat} {a : Code} {s t : State} {b : Byte} (h : walkChain n a s = .next (b, t)) :
    ∃ pushed, t = { s with stk := pushed ++ s.stk } := by
  induction n generalizing a s with
  | zero => cases h
  | succ n ih =>
    unfold walkChain at h
    split at h
    · simp only [Host.Outcome.next.injEq, Prod.mk.injEq] at h
      exact ⟨[], by simp [← h.2]⟩
    · obtain ⟨e, -, h⟩ := bindRes_eq_next_iff.1 h
      obtain ⟨pushed, rfl⟩ := ih h
      exact ⟨pushed ++ [e.suffix], by simp [push]⟩

/-- `STRING` leaves the state as it was but for the stack, which it leaves empty (R39). -/
theorem stringStack_next {a : Code} {s t : State} {bs : Byte × List Byte} (h : stringStack a s = .next (bs, t)) :
    t = { s with stk := [] } := by
  obtain ⟨⟨b, u⟩, hw, h⟩ := bindRes_eq_next_iff.1 h
  obtain ⟨pushed, rfl⟩ := walkChain_next hw
  simp only [Host.Outcome.next.injEq, Prod.mk.injEq] at h
  rw [← h.2]
  rfl

/-- `EOS` answers a next state in a session (R193). -/
theorem execEos_session {s : State} (h : inSession s = true) :
    execEos s = .next { s with st := .done, answer := .done } := by
  simp [execEos, codeStep, h]

end Sys2Proof.Machine
end

