-- ==== Sys2Proof/Laws/PerInstr.lean ====
section
/-!
SUPPORT. A statement about every instruction as syntax: the encoder writes as many bytes as the format of the
instruction's row in spec/opcode_table.json has.
-/

namespace Sys2Proof.Laws.EncodedLength

/-- How many bytes the row's format has: three for format H, fewer where the stream is shorter, two for the 16-bit value
of a code, none for what is not encoded in the stream. -/
def formatBytes : Instr → Nat
  | .header _ _ _ => 3
  | .headerBadMagic _ _ _ => 3
  | .headerWidthTooLarge _ _ _ => 3
  | .headerWidthTooSmall _ _ _ => 3
  | .headerShort present => present.length
  | .first _ => 2
  | .firstInvalid _ => 2
  | .postclr _ => 2
  | .postclrInvalid _ => 2
  | .clr => 2
  | .lit _ => 2
  | .kwk _ => 2
  | .ref _ => 2
  | .codeOutOfRange _ => 2
  | .eos => 0
  | .resetCommand => 0
  | .openCommand => 0
  | .decodeNext => 0
  | .nextcode => 0
  | .signalRefill => 0
  | .refill => 0
  | .extract => 0
  | .dtReset => 0
  | .dtAppend _ _ => 0
  | .dtResolve _ => 0
  | .string _ => 0

/-- A well-formed instruction is encoded in the bytes of its format, at most three. -/
def Statement (i : Instr) : Prop := WellFormed i = true → (encode i).length = formatBytes i ∧ formatBytes i ≤ 3

theorem header (b : Bool) (p : BitVec 2) (m : BitVec 5) : Statement (.header b p m) := fun _ => ⟨rfl, Nat.le_refl 3⟩
theorem headerBadMagic (m0 m1 c : Byte) : Statement (.headerBadMagic m0 m1 c) := fun _ => ⟨rfl, Nat.le_refl 3⟩
theorem headerWidthTooLarge (b : Bool) (p : BitVec 2) (m : BitVec 5) : Statement (.headerWidthTooLarge b p m) :=
  fun _ => ⟨rfl, Nat.le_refl 3⟩
theorem headerWidthTooSmall (b : Bool) (p : BitVec 2) (m : BitVec 5) : Statement (.headerWidthTooSmall b p m) :=
  fun _ => ⟨rfl, Nat.le_refl 3⟩
theorem headerShort (present : List Byte) : Statement (.headerShort present) := fun h =>
  ⟨rfl, Nat.le_of_lt (of_decide_eq_true h)⟩
theorem first (b : Byte) : Statement (.first b) := fun _ => ⟨rfl, Nat.le_of_ble_eq_true rfl⟩
theorem firstInvalid (c : Code) : Statement (.firstInvalid c) := fun _ => ⟨rfl, Nat.le_of_ble_eq_true rfl⟩
theorem postclr (b : Byte) : Statement (.postclr b) := fun _ => ⟨rfl, Nat.le_of_ble_eq_true rfl⟩
theorem postclrInvalid (c : Code) : Statement (.postclrInvalid c) := fun _ => ⟨rfl, Nat.le_of_ble_eq_true rfl⟩
theorem clr : Statement .clr := fun _ => ⟨rfl, Nat.le_of_ble_eq_true rfl⟩
theorem lit (b : Byte) : Statement (.lit b) := fun _ => ⟨rfl, Nat.le_of_ble_eq_true rfl⟩
theorem kwk (c : Code) : Statement (.kwk c) := fun _ => ⟨rfl, Nat.le_of_ble_eq_true rfl⟩
theorem ref (c : Code) : Statement (.ref c) := fun _ => ⟨rfl, Nat.le_of_ble_eq_true rfl⟩
theorem codeOutOfRange (c : Code) : Statement (.codeOutOfRange c) := fun _ => ⟨rfl, Nat.le_of_ble_eq_true rfl⟩
theorem eos : Statement .eos := fun _ => ⟨rfl, Nat.le_of_ble_eq_true rfl⟩
theorem resetCommand : Statement .resetCommand := fun _ => ⟨rfl, Nat.le_of_ble_eq_true rfl⟩
theorem openCommand : Statement .openCommand := fun _ => ⟨rfl, Nat.le_of_ble_eq_true rfl⟩
theorem decodeNext : Statement .decodeNext := fun _ => ⟨rfl, Nat.le_of_ble_eq_true rfl⟩
theorem nextcode : Statement .nextcode := fun _ => ⟨rfl, Nat.le_of_ble_eq_true rfl⟩
theorem signalRefill : Statement .signalRefill := fun _ => ⟨rfl, Nat.le_of_ble_eq_true rfl⟩
theorem refill : Statement .refill := fun _ => ⟨rfl, Nat.le_of_ble_eq_true rfl⟩
theorem extract : Statement .extract := fun _ => ⟨rfl, Nat.le_of_ble_eq_true rfl⟩
theorem dtReset : Statement .dtReset := fun _ => ⟨rfl, Nat.le_of_ble_eq_true rfl⟩
theorem dtAppend (p : Code) (b : Byte) : Statement (.dtAppend p b) := fun _ => ⟨rfl, Nat.le_of_ble_eq_true rfl⟩
theorem dtResolve (a : Code) : Statement (.dtResolve a) := fun _ => ⟨rfl, Nat.le_of_ble_eq_true rfl⟩
theorem string (a : Code) : Statement (.string a) := fun _ => ⟨rfl, Nat.le_of_ble_eq_true rfl⟩

end Sys2Proof.Laws.EncodedLength
end

