-- ==== Sys2Proof/Laws/Reader.lean ====
section
/-!
SUPPORT. What `NEXTCODE` can do: in every state it changes reader state only, and in a session it ends in one of four
ways, given by how many bytes the stream still has.
-/

namespace Sys2Proof.Machine

/-- `t` is `s` but for the reader's registers and `INPOS`. -/
def ReaderStep (s t : State) : Prop :=
  t = { s with
    buf := t.buf, bytes := t.bytes, usable := t.usable, bitoff := t.bitoff, forceRefill := t.forceRefill,
    bufbase := t.bufbase, inpos := t.inpos }

theorem ReaderStep_trans {s t u : State} (h : ReaderStep s t) (k : ReaderStep t u) : ReaderStep s u := by
  unfold ReaderStep at *
  rw [k, h]

theorem ReaderStep_startGroup (n : Nat) (s : State) : ReaderStep s (startGroup n s) := rfl

theorem ReaderStep_loadGroup (bs : List Byte) (s : State) : ReaderStep s (loadGroup bs s) := rfl

theorem ReaderStep_advanceOffset (s : State) : ReaderStep s (advanceOffset s) := rfl

theorem refill_readerStep {s t : State} {more : Bool} (h : refill s = .next (more, t)) : ReaderStep s t := by
  obtain ⟨-, -, rfl⟩ | ⟨-, -, -, rfl⟩ := refill_next h
  · exact ReaderStep_startGroup 0 s
  · exact ReaderStep_trans (ReaderStep_startGroup _ s) (ReaderStep_loadGroup _ _)

theorem nextcodeLoop_readerStep {n : Nat} {s t : State} {f : Option Code} (h : nextcodeLoop n s = .next (f, t)) :
    ReaderStep s t := by
  induction n generalizing s with
  | zero => cases h
  | succ n ih =>
    unfold nextcodeLoop at h
    split at h
    · obtain ⟨⟨more, u⟩, hu, h⟩ := bindRes_eq_next_iff.1 h
      have hs := refill_readerStep hu
      cases more
      · simp only [Bool.false_eq_true, if_false, Host.Outcome.next.injEq, Prod.mk.injEq] at h
        exact h.2 ▸ hs
      · exact ReaderStep_trans hs (ih h)
    · obtain ⟨⟨c, u⟩, hu, h⟩ := bindRes_eq_next_iff.1 h
      simp only [Host.Outcome.next.injEq, Prod.mk.injEq] at h
      obtain ⟨-, -, -, -, rfl⟩ := extract_next_iff.1 hu
      exact h.2 ▸ ReaderStep_advanceOffset s

/-- R140: `NEXTCODE` changes reader state and `INPOS` only. -/
theorem nextcode_readerStep {s t : State} {f : Option Code} (h : nextcode s = .next (f, t)) : ReaderStep s t :=
  nextcodeLoop_readerStep h

theorem needsRefill_false_iff {s : State} :
    needsRefill s = false ↔ s.forceRefill = false ∧ s.bitoff.toNat < s.usable.toNat := by
  simp [needsRefill]

/-- In a session every code that is not behind a refill lies inside the bytes fetched (R150). -/
theorem bitsFetched_of_session {s : State} (hs : SessionInv s) (h : needsRefill s = false) : bitsFetched s = true := by
  obtain ⟨hf, hb⟩ := needsRefill_false_iff.1 h
  have hu := hs.usable_eq hf
  have := hs.bytes_high
  have := hs.width_low
  simp only [usableBits] at hu
  refine decide_eq_true ?_
  simp only [Config.bufBytes]
  omega

/-- In a session an extraction is never refused and never stops. -/
theorem extract_of_session {s : State} (hs : SessionInv s) (h : needsRefill s = false) :
    extract s = .next (bufferCode s, advanceOffset s) :=
  extract_next_iff.2 ⟨h, Nat.le_trans hs.width_high hs.maxbits_high, bitsFetched_of_session hs h, rfl, rfl⟩

/-- The group a refill of `k` bytes loads. -/
def loadedGroup (s : State) : State :=
  loadGroup (bytesToRead s.codewidth.toNat s) (startGroup (bytesToRead s.codewidth.toNat s).length s)

theorem refill_of_width {s : State} (hw : s.codewidth.toNat ≤ 16) :
    refill s = if (bytesToRead s.codewidth.toNat s).length = 0 then .next (false, startGroup 0 s)
      else .next (true, loadedGroup s) := by
  have : (bytesToRead s.codewidth.toNat s).length ≤ Config.bufBytes := by
    rw [bytesToRead_length]
    simp only [Config.bufBytes]
    omega
  simp [refill, this, loadedGroup]

theorem loadedGroup_fields {s : State} (hw : s.codewidth.toNat ≤ 16) :
    (loadedGroup s).bytes.toNat = (bytesToRead s.codewidth.toNat s).length ∧
    (9 ≤ s.codewidth.toNat →
      (loadedGroup s).usable.toNat = usableBits (bytesToRead s.codewidth.toNat s).length s.codewidth.toNat) ∧
    (loadedGroup s).bitoff = 0 ∧ (loadedGroup s).forceRefill = false ∧
    (loadedGroup s).inpos = s.inpos + (bytesToRead s.codewidth.toNat s).length ∧ (loadedGroup s).bufbase = s.inpos ∧
    (loadedGroup s).codewidth = s.codewidth ∧ (loadedGroup s).input = s.input := by
  have := bytesToRead_length s.codewidth.toNat s
  refine ⟨?_, fun hl => ?_, rfl, rfl, rfl, rfl, rfl, rfl⟩
  · simp only [loadedGroup, loadGroup_bytes, startGroup_bytes, BitVec.toNat_ofNat]
    omega
  · simp only [loadedGroup, loadGroup_usable, startGroup_usable, BitVec.toNat_ofNat, usableBits]
    omega

/-- The four ways in which `NEXTCODE` ends in a session (R141, R151, R152): a code of the group at hand; the end of the
stream on no byte; the end of the stream after a group of one byte; the first code of a new group. -/
inductive FetchCase (s : State) (f : Option Code) (t : State) : Prop where
  | inGroup (h : needsRefill s = false) (hf : f = some (bufferCode s)) (ht : t = advanceOffset s)
  | atEnd (h : needsRefill s = true) (hk : (bytesToRead s.codewidth.toNat s).length = 0) (hf : f = none)
      (ht : t = startGroup 0 s)
  | oneByte (h : needsRefill s = true) (hk : (bytesToRead s.codewidth.toNat s).length = 1) (hf : f = none)
      (ht : t = startGroup 0 (loadedGroup s))
  | newGroup (h : needsRefill s = true) (hk : 2 ≤ (bytesToRead s.codewidth.toNat s).length)
      (hf : f = some (bufferCode (loadedGroup s))) (ht : t = advanceOffset (loadedGroup s))

theorem loadedGroup_needsRefill {s : State} (hl : 9 ≤ s.codewidth.toNat) (hw : s.codewidth.toNat ≤ 16) :
    needsRefill (loadedGroup s) = decide ((bytesToRead s.codewidth.toNat s).length < 2) := by
  obtain ⟨-, hu, hb, hf, -⟩ := loadedGroup_fields hw
  have hu := hu hl
  have := bytesToRead_length s.codewidth.toNat s
  have hz : (0 : BitVec 8).toNat = 0 := rfl
  simp only [usableBits] at hu
  simp only [needsRefill, hf, hb, hz, Bool.false_or, decide_eq_decide]
  omega

theorem extract_loadedGroup {s : State} (hl : 9 ≤ s.codewidth.toNat) (hw : s.codewidth.toNat ≤ 16)
    (hk : 2 ≤ (bytesToRead s.codewidth.toNat s).length) :
    extract (loadedGroup s) = .next (bufferCode (loadedGroup s), advanceOffset (loadedGroup s)) := by
  obtain ⟨hby, -, hb, -, -, -, hcw, -⟩ := loadedGroup_fields hw
  have := bytesToRead_length s.codewidth.toNat s
  refine extract_next_iff.2 ⟨?_, ?_, ?_, rfl, rfl⟩
  · rw [loadedGroup_needsRefill hl hw, decide_eq_false_iff_not]
    omega
  · rw [hcw]
    exact hw
  · have hz : (0 : BitVec 8).toNat = 0 := rfl
    refine decide_eq_true ?_
    simp only [hby, hb, hz, hcw, Config.bufBytes]
    omega

theorem nextcodeLoop_refill {n : Nat} {s t : State} (h : needsRefill s = true) (hr : refill s = .next (true, t)) :
    nextcodeLoop (n + 1) s = nextcodeLoop n t := by
  simp [nextcodeLoop, h, hr]

theorem nextcodeLoop_end {n : Nat} {s t : State} (h : needsRefill s = true) (hr : refill s = .next (false, t)) :
    nextcodeLoop (n + 1) s = .next (none, t) := by
  simp [nextcodeLoop, h, hr]

theorem nextcodeLoop_extract {n : Nat} {s t : State} {c : Code} (h : needsRefill s = false)
    (hr : extract s = .next (c, t)) : nextcodeLoop (n + 1) s = .next (some c, t) := by
  simp [nextcodeLoop, h, hr]

/-- With at least two turns the loop ends in one of the four ways. -/
theorem nextcodeLoop_session {s : State} (hs : SessionInv s) (n : Nat) :
    ∃ f t, nextcodeLoop (n + 2) s = .next (f, t) ∧ FetchCase s f t := by
  have hl := hs.width_low
  have hw := Nat.le_trans hs.width_high hs.maxbits_high
  by_cases h : needsRefill s = true
  · have hlen := bytesToRead_length s.codewidth.toNat s
    by_cases h0 : (bytesToRead s.codewidth.toNat s).length = 0
    · exact ⟨none, startGroup 0 s, nextcodeLoop_end h (by rw [refill_of_width hw, if_pos h0]), .atEnd h h0 rfl rfl⟩
    · obtain ⟨-, -, -, -, hi, -, hcw, hin⟩ := loadedGroup_fields hw
      have hr : refill s = .next (true, loadedGroup s) := by rw [refill_of_width hw, if_neg h0]
      by_cases h1 : (bytesToRead s.codewidth.toNat s).length = 1
      · refine ⟨none, startGroup 0 (loadedGroup s), ?_, .oneByte h h1 rfl rfl⟩
        have hk : (bytesToRead (loadedGroup s).codewidth.toNat (loadedGroup s)).length = 0 := by
          rw [bytesToRead_length, hi, hin]
          omega
        rw [nextcodeLoop_refill h hr]
        refine nextcodeLoop_end ?_ ?_
        · rw [loadedGroup_needsRefill hl hw]
          simp [h1]
        · rw [refill_of_width (by rw [hcw]; exact hw), if_pos hk]
      · have h2 : 2 ≤ (bytesToRead s.codewidth.toNat s).length := by omega
        refine ⟨_, _, ?_, .newGroup h h2 rfl rfl⟩
        rw [nextcodeLoop_refill h hr]
        refine nextcodeLoop_extract ?_ (extract_loadedGroup hl hw h2)
        rw [loadedGroup_needsRefill hl hw]
        exact decide_eq_false (by omega)
  · have h' : needsRefill s = false := by simpa using h
    exact ⟨_, _, nextcodeLoop_extract h' (extract_of_session hs h'), .inGroup h' rfl rfl⟩

theorem nextcode_session {s : State} (hs : SessionInv s) :
    ∃ f t, nextcode s = .next (f, t) ∧ FetchCase s f t :=
  nextcodeLoop_session hs _

theorem nextcode_cases {s t : State} {f : Option Code} (hs : SessionInv s) (h : nextcode s = .next (f, t)) :
    FetchCase s f t := by
  obtain ⟨f', t', h', hc⟩ := nextcode_session hs
  rw [h] at h'
  simp only [Host.Outcome.next.injEq, Prod.mk.injEq] at h'
  obtain ⟨rfl, rfl⟩ := h'
  exact hc

/-- A refill's bytes in the buffer (R73). -/
theorem loadBuf_new (bs : List Byte) (buf : Vector Byte 16) {i : Nat} (hi : i < 16) (h : i < bs.length) :
    (loadBuf bs buf).toList[i]? = bs[i]? := by
  rw [Vector.getElem?_toList]
  simp [loadBuf, hi, h]

/-- The bytes that a refill leaves (R73). -/
theorem loadBuf_old (bs : List Byte) (buf : Vector Byte 16) {i : Nat} (hi : i < 16) (h : bs.length ≤ i) :
    (loadBuf bs buf).toList[i]? = buf.toList[i]? := by
  rw [Vector.getElem?_toList]
  simp [loadBuf, hi, h]

/-- What `ReadBytes` returns, byte by byte (R61, R62). -/
theorem bytesToRead_get {n : Nat} {s : State} {i : Nat} (h : i < (bytesToRead n s).length) :
    (bytesToRead n s)[i]? = s.input[s.inpos + i]? := by
  rw [bytesToRead_length] at h
  simp [bytesToRead, memRead, List.getElem?_take, List.getElem?_drop]
  omega

/-- A code of at most sixteen bits lies below `2^CODEWIDTH` (R93). -/
theorem bufferCode_lt {s : State} (h : s.codewidth.toNat ≤ 16) : (bufferCode s).toNat < 2 ^ s.codewidth.toNat := by
  have h1 := codeAt_lt s.buf.toList s.bitoff.toNat s.codewidth.toNat
  have h2 : 2 ^ s.codewidth.toNat ≤ 2 ^ 16 := Nat.pow_le_pow_right (by omega) h
  rw [bufferCode, BitVec.toNat_ofNat, Nat.mod_eq_of_lt (by omega)]
  exact h1

end Sys2Proof.Machine
end

