-- ==== Sys2Proof/Laws/Strings.lean ====
section
/-!
SUPPORT. The strings of codes (R177, R178): the chain walk pushes what the definition gives, chains end under the
invariants, and a string depends on the valid part of the table only.
-/

namespace Sys2Proof.Machine

@[simp] theorem isLiteral_iff {a : Code} : isLiteral a = true ↔ a.toNat < 256 := by simp [isLiteral, Config.literals]

theorem isLiteral_false_iff {a : Code} : isLiteral a = false ↔ 256 ≤ a.toNat := by simp [isLiteral, Config.literals]

@[simp] theorem validIndex_iff {a : Nat} {s : State} :
    validIndex a s = true ↔ firstOf s ≤ a ∧ a < s.nextfree.toNat := by simp [validIndex]

theorem firstOf_cases (s : State) : (s.block = false ∧ firstOf s = 256) ∨ (s.block = true ∧ firstOf s = 257) := by
  cases h : s.block <;> simp [firstOf, firstIndex, Config.literals, h]

theorem firstOf_ge (s : State) : 256 ≤ firstOf s := by
  obtain ⟨-, h⟩ | ⟨-, h⟩ := firstOf_cases s <;> omega

theorem stringFrom_literal {s : State} {n : Nat} {a : Code} (h : isLiteral a = true) :
    stringFrom s (n + 1) a = some [literalByte a] := by simp only [stringFrom, h, if_true]

theorem stringFrom_entry {s : State} {n : Nat} {a : Code} {e : Entry} (h : isLiteral a = false)
    (he : dtResolve a s = .next e) :
    stringFrom s (n + 1) a = (stringFrom s n e.pre).map fun bs => bs ++ [e.suffix] := by
  simp only [stringFrom, h, he, Bool.false_eq_true, if_false]

/-- What a defined string of a table index is made of (R178). -/
theorem stringFrom_eq_some {s : State} {n : Nat} {a : Code} {bs : List Byte} (h : stringFrom s (n + 1) a = some bs) :
    (isLiteral a = true ∧ bs = [literalByte a]) ∨
    (isLiteral a = false ∧ ∃ e bs', dtResolve a s = .next e ∧ stringFrom s n e.pre = some bs' ∧ bs = bs' ++ [e.suffix]) := by
  cases hl : isLiteral a
  · right
    cases he : dtResolve a s with
    | next e =>
      rw [stringFrom_entry hl he, Option.map_eq_some_iff] at h
      obtain ⟨bs', h1, h2⟩ := h
      exact ⟨rfl, e, bs', rfl, h1, h2.symm⟩
    | fault _ => simp only [stringFrom, hl, he, Bool.false_eq_true, if_false, reduceCtorEq] at h
    | refused _ => simp only [stringFrom, hl, he, Bool.false_eq_true, if_false, reduceCtorEq] at h
  · left
    rw [stringFrom_literal hl] at h
    exact ⟨rfl, (Option.some.inj h).symm⟩

/-- A string is never empty. -/
theorem stringFrom_ne_nil {s : State} {n : Nat} {a : Code} {bs : List Byte} (h : stringFrom s n a = some bs) :
    bs ≠ [] := by
  cases n with
  | zero => cases h
  | succ n =>
    obtain ⟨-, rfl⟩ | ⟨-, e, bs', -, -, rfl⟩ := stringFrom_eq_some h <;> simp

/-- The walk reads no stack. -/
theorem dtResolve_push (a : Code) (b : Byte) (s : State) : dtResolve a (push b s) = dtResolve a s := rfl

theorem stringFrom_push (s : State) (n : Nat) (a : Code) (b : Byte) :
    stringFrom (push b s) n a = stringFrom s n a := by
  induction n generalizing a with
  | zero => rfl
  | succ n ih => simp only [stringFrom, dtResolve_push, ih]

/-- The chain walk and the definition agree: the literal and the bytes pushed are the string (R178). -/
theorem walkChain_iff {n : Nat} {a : Code} {s u : State} {b : Byte} :
    walkChain n a s = .next (b, u) ↔
      ∃ rest, stringFrom s n a = some (b :: rest) ∧ u = { s with stk := rest ++ s.stk } := by
  induction n generalizing a s with
  | zero => simp [walkChain, stringFrom]
  | succ n ih =>
    cases hl : isLiteral a
    · rw [walkChain, if_neg (by simp [hl]), bindRes_eq_next_iff]
      constructor
      · rintro ⟨e, he, h⟩
        obtain ⟨rest, h1, h2⟩ := ih.1 h
        rw [stringFrom_push] at h1
        refine ⟨rest ++ [e.suffix], ?_, ?_⟩
        · rw [stringFrom_entry hl he, h1]
          rfl
        · rw [h2]
          simp [push]
      · rintro ⟨rest, h1, rfl⟩
        obtain ⟨hl', -⟩ | ⟨-, e, bs', he, h2, h3⟩ := stringFrom_eq_some h1
        · simp [hl] at hl'
        · refine ⟨e, he, ih.2 ?_⟩
          cases bs' with
          | nil => exact absurd rfl (stringFrom_ne_nil h2)
          | cons b' rest' =>
            simp only [List.cons_append, List.cons.injEq] at h3
            obtain ⟨rfl, rfl⟩ := h3
            exact ⟨rest', by rw [stringFrom_push]; exact h2, by simp [push]⟩
    · rw [walkChain, if_pos hl, stringFrom_literal hl]
      simp only [Host.Outcome.next.injEq, Prod.mk.injEq, Option.some.injEq, List.cons.injEq]
      constructor
      · rintro ⟨rfl, rfl⟩
        exact ⟨[], ⟨rfl, rfl⟩, by simp⟩
      · rintro ⟨rest, ⟨rfl, rfl⟩, rfl⟩
        simp

/-- `STRING` on an empty stack answers the string the definition gives and leaves the state (R178). -/
theorem stringStack_iff {a : Code} {s t : State} {b : Byte} {rest : List Byte} (hs : s.stk = []) :
    stringStack a s = .next ((b, rest), t) ↔ stringOf s a = some (b :: rest) ∧ t = s := by
  have hpop (r : List Byte) : popAll { s with stk := r ++ s.stk } = s := by
    simp only [popAll]
    rw [← hs]
  simp only [stringStack, bindRes_eq_next_iff, freePlaces, hs, stringOf, List.length_nil, Nat.sub_zero]
  constructor
  · rintro ⟨⟨b', u⟩, hw, h⟩
    obtain ⟨rest', h1, rfl⟩ := walkChain_iff.1 hw
    simp only [Host.Outcome.next.injEq, Prod.mk.injEq, hs, List.append_nil] at h
    obtain ⟨⟨rfl, rfl⟩, rfl⟩ := h
    exact ⟨h1, by simpa [hs] using hpop rest'⟩
  · rintro ⟨h1, rfl⟩
    refine ⟨(b, { t with stk := rest ++ t.stk }), walkChain_iff.2 ⟨rest, h1, rfl⟩, ?_⟩
    rw [hpop rest]
    simp [hs]

/-- What I5 says of a valid location, as an entry (R177). -/
theorem entry_of_valid {s : State} (hs : SessionInv s) {a : Nat} (h1 : firstOf s ≤ a) (h2 : a < s.nextfree.toNat) :
    ∃ e, ramLookup s.ram a = some e ∧ e.pre.toNat < a ∧ (e.pre.toNat < 256 ∨ firstOf s ≤ e.pre.toNat) := by
  have h := hs.entries a h2 h1
  unfold entryOk at h
  split at h
  · rename_i e he
    simp only [Bool.and_eq_true, Bool.or_eq_true, decide_eq_true_eq, isLiteral_iff] at h
    exact ⟨e, he, h.1, h.2⟩
  · cases h

theorem dtResolve_of_valid {s : State} {a : Code} {e : Entry} (h1 : firstOf s ≤ a.toNat)
    (h2 : a.toNat < s.nextfree.toNat) (he : ramLookup s.ram a.toNat = some e) : dtResolve a s = .next e :=
  dictRead_next_iff.2 ⟨validIndex_iff.2 ⟨h1, h2⟩, he⟩

/-- Chains end: under the invariants a literal or a valid index has a string, no longer than R180 says. -/
theorem stringFrom_of_session {s : State} (hs : SessionInv s) (k : Nat) :
    ∀ (n : Nat) (a : Code), a.toNat < firstOf s + k → (isLiteral a = true ∨ (firstOf s ≤ a.toNat ∧ a.toNat < s.nextfree.toNat)) →
      k < n → ∃ bs, stringFrom s n a = some bs ∧ (isLiteral a = true → bs.length = 1) ∧
        (isLiteral a = false → 2 ≤ bs.length ∧ bs.length + firstOf s ≤ a.toNat + 2) := by
  induction k with
  | zero =>
    intro n a ha hv hn
    cases n with
    | zero => omega
    | succ n =>
      obtain hl | hv := hv
      · exact ⟨_, stringFrom_literal hl, by simp, by simp [hl]⟩
      · omega
  | succ k ih =>
    intro n a ha hv hn
    cases n with
    | zero => omega
    | succ n =>
      cases hl : isLiteral a with
      | true => exact ⟨_, stringFrom_literal hl, by simp, by simp⟩
      | false =>
        obtain h | ⟨h1, h2⟩ := hv
        · simp [hl] at h
        · obtain ⟨e, he, hlt, hpre⟩ := entry_of_valid hs h1 h2
          obtain ⟨bs, hb, hb1, hb2⟩ := ih n e.pre (by omega) (by
            rw [isLiteral_iff]
            exact hpre.imp_right fun h => ⟨h, by omega⟩) (by omega)
          refine ⟨bs ++ [e.suffix], ?_, by simp, fun _ => ?_⟩
          · rw [stringFrom_entry hl (dtResolve_of_valid h1 h2 he), hb]
            rfl
          · cases hp : isLiteral e.pre with
            | true =>
              have := hb1 hp
              simp only [List.length_append, List.length_singleton]
              omega
            | false =>
              have := hb2 hp
              simp only [List.length_append, List.length_singleton]
              omega

/-- A code that names a string has one (R178, R180). -/
theorem stringOf_of_session {s : State} (hs : SessionInv s) {a : Code} (h : namesString s a.toNat) :
    ∃ b rest, stringOf s a = some (b :: rest) ∧ (a.toNat < 256 → rest = []) ∧
      (256 ≤ a.toNat → rest ≠ [] ∧ rest.length + 1 + firstOf s ≤ a.toNat + 2) := by
  have hb := a.isLt
  have hf := firstOf_ge s
  obtain ⟨bs, h1, h2, h3⟩ := stringFrom_of_session hs (65536 - firstOf s) Config.stkBytes a (by omega)
    (by rw [isLiteral_iff]; simpa [namesString, Config.literals] using h) (by simp only [Config.stkBytes]; omega)
  cases bs with
  | nil => exact absurd rfl (stringFrom_ne_nil h1)
  | cons b rest =>
    refine ⟨b, rest, h1, fun hl => ?_, fun hl => ?_⟩
    · simpa using h2 (isLiteral_iff.2 hl)
    · have := h3 (isLiteral_false_iff.2 hl)
      simp only [List.length_cons] at this
      refine ⟨?_, this.2⟩
      rintro rfl
      simp at this

/-- Two states whose valid entries agree give a code of the first the same string. -/
theorem stringFrom_congr {s t : State} (hs : SessionInv s)
    (h : ∀ a, firstOf s ≤ a → a < s.nextfree.toNat →
      firstOf t ≤ a ∧ a < t.nextfree.toNat ∧ ramLookup t.ram a = ramLookup s.ram a) :
    ∀ (n : Nat) (a : Code), (isLiteral a = true ∨ (firstOf s ≤ a.toNat ∧ a.toNat < s.nextfree.toNat)) →
      stringFrom t n a = stringFrom s n a := by
  intro n
  induction n with
  | zero => intros; rfl
  | succ n ih =>
    intro a hv
    cases hl : isLiteral a with
    | true => rw [stringFrom_literal hl, stringFrom_literal hl]
    | false =>
      obtain h' | ⟨h1, h2⟩ := hv
      · simp [hl] at h'
      · obtain ⟨e, he, hlt, hpre⟩ := entry_of_valid hs h1 h2
        obtain ⟨k1, k2, k3⟩ := h _ h1 h2
        have hv' : isLiteral e.pre = true ∨ (firstOf s ≤ e.pre.toNat ∧ e.pre.toNat < s.nextfree.toNat) := by
          rw [isLiteral_iff]
          exact hpre.imp_right fun h => ⟨h, by omega⟩
        rw [stringFrom_entry hl (dtResolve_of_valid h1 h2 he),
          stringFrom_entry hl (dtResolve_of_valid k1 k2 (k3.trans he)), ih _ hv']

/-- One unit of fuel more does not change a defined string. -/
theorem stringFrom_succ {s : State} {n : Nat} {a : Code} {bs : List Byte} (h : stringFrom s n a = some bs) :
    stringFrom s (n + 1) a = some bs := by
  induction n generalizing a bs with
  | zero => cases h
  | succ n ih =>
    obtain ⟨hl, rfl⟩ | ⟨hl, e, bs', he, h1, rfl⟩ := stringFrom_eq_some h
    · exact stringFrom_literal hl
    · rw [stringFrom_entry hl he, ih h1]
      rfl

/-- The walk reads the RAM, `BLOCK` and `NEXTFREE` only. -/
theorem stringFrom_ext {s t : State} (h1 : t.ram = s.ram) (h2 : t.block = s.block) (h3 : t.nextfree = s.nextfree)
    (n : Nat) (a : Code) : stringFrom t n a = stringFrom s n a := by
  have hr (a : Code) : dtResolve a t = dtResolve a s := by
    have hv : validIndex a.toNat t = validIndex a.toNat s := by
      unfold validIndex firstOf
      rw [h2, h3]
    unfold dtResolve dictRead
    rw [hv, h1]
  induction n generalizing a with
  | zero => rfl
  | succ n ih => simp only [stringFrom, hr, ih]

/-- A string depends on the RAM, `BLOCK` and `NEXTFREE` only. -/
theorem stringOf_ext {s t : State} (h1 : t.ram = s.ram) (h2 : t.block = s.block) (h3 : t.nextfree = s.nextfree)
    (a : Code) : stringOf t a = stringOf s a := stringFrom_ext h1 h2 h3 _ a

/-- The string of a literal is its byte (R178). -/
theorem stringOf_literalCode (s : State) (b : Byte) : stringOf s (literalCode b) = some [b] := by
  rw [stringOf, show Config.stkBytes = 65535 + 1 from rfl, stringFrom_literal (isLiteral_literalCode b),
    literalByte_literalCode]

end Sys2Proof.Machine
end

