-- ==== Sys2Proof/Laws/Tail.lean ====
section
/-!
SUPPORT. What the common tail of `LIT`, `REF` and `KWK` does in a session: it always answers, with the effect that
`TailEffect` says.
-/

namespace Sys2Proof.Machine

theorem maxcodeFor_toNat {w : Nat} {mb : BitVec 5} (h : w ≤ mb.toNat) (hm : mb.toNat ≤ 16) :
    (maxcodeFor w mb).toNat = maxcodeOf w mb.toNat := by
  have h1 : 2 ^ mb.toNat ≤ 2 ^ 16 := Nat.pow_le_pow_right (by omega) hm
  have h2 : 2 ^ w ≤ 2 ^ 16 := Nat.pow_le_pow_right (by omega) (by omega)
  rw [maxcodeFor, BitVec.toNat_ofNat, Nat.mod_eq_of_lt]
  unfold maxcodeOf
  split <;> omega

/-- The table size limit of a session (R9). -/
theorem maxmaxOf_le {s : State} (hs : SessionInv s) : maxmaxOf s ≤ 65536 :=
  show 2 ^ s.maxbits.toNat ≤ 2 ^ 16 from Nat.pow_le_pow_right (by omega) hs.maxbits_high

/-- The two values `MAXCODE` can have in a session (R29). -/
theorem maxcode_cases {s : State} (hs : SessionInv s) :
    (s.codewidth.toNat = s.maxbits.toNat ∧ s.maxcode.toNat = maxmaxOf s) ∨
    (s.codewidth.toNat < s.maxbits.toNat ∧ s.maxcode.toNat = 2 ^ s.codewidth.toNat - 1) := by
  have h := hs.maxcode_eq
  have := hs.width_high
  unfold maxcodeOf at h
  split at h
  · exact .inl ⟨‹_›, h⟩
  · exact .inr ⟨by omega, h⟩

/-- The state after the emission and the append of the tail. -/
def appended (s : State) (b : Byte) (rest : List Byte) : State :=
  if s.nextfree.toNat < maxmaxOf s then
    growTable { emitBytes (b :: rest) s with
      ram := ramInsert s.ram s.nextfree.toNat { pre := s.lastcode, suffix := b } }
  else emitBytes (b :: rest) s

theorem dtAppend_appended {s : State} (hs : SessionInv s) (b : Byte) (rest : List Byte) :
    ∃ a, dtAppend s.lastcode b (emitBytes (b :: rest) s) = .next (a, appended s b rest) := by
  have := maxmaxOf_le hs
  unfold appended dtAppend
  simp only [emitBytes_nextfree, show maxmaxOf (emitBytes (b :: rest) s) = maxmaxOf s from rfl]
  split
  · refine ⟨some s.nextfree.toNat, ?_⟩
    rw [dictWrite, if_pos (by simp only [Config.ramLocations]; omega)]
    rfl
  · exact ⟨_, rfl⟩

theorem appended_grown {s : State} (hs : SessionInv s) (b : Byte) (rest : List Byte) :
    (appended s b rest).nextfree.toNat = min (s.nextfree.toNat + 1) (maxmaxOf s) := by
  have := maxmaxOf_le hs
  have := hs.nextfree_le
  have := hs.maxcode_le
  unfold appended
  split
  · simp only [growTable_nextfree, emitBytes_nextfree, BitVec.toNat_ofNat]
    omega
  · simp only [emitBytes_nextfree]
    omega

theorem appended_lookup (s : State) (b : Byte) (rest : List Byte) (a : Nat) :
    ramLookup (appended s b rest).ram a =
      if a = s.nextfree.toNat ∧ s.nextfree.toNat < maxmaxOf s then some { pre := s.lastcode, suffix := b }
      else ramLookup s.ram a := by
  unfold appended
  split
  · rename_i h
    simp only [growTable_ram]
    by_cases ha : a = s.nextfree.toNat
    · subst ha
      simp [ramLookup_ramInsert_same, h]
    · simp [ramLookup_ramInsert_other _ _ ha, ha]
  · rename_i h
    simp [h]

theorem appended_frame (s : State) (b : Byte) (rest : List Byte) :
    ∃ m n, appended s b rest = { s with out := s.out ++ b :: rest, ram := m, nextfree := n } := by
  unfold appended
  split <;> exact ⟨_, _, rfl⟩

/-- In a session the common tail answers, with the effect `TailEffect` (R201 to R204). -/
theorem commonTail_effect {s : State} (hs : SessionInv s) (c : Code) (b : Byte) (rest : List Byte) :
    ∃ t, commonTail c b rest s = .next t ∧ TailEffect s t c b rest := by
  obtain ⟨a, ha⟩ := dtAppend_appended hs b rest
  have hnf := appended_grown hs b rest
  have hlk := appended_lookup s b rest
  have h1 := hs.nextfree_le
  have h2 := hs.maxcode_le
  have hmb := hs.maxbits_high
  have hmv := maxcode_cases hs
  obtain ⟨m, n, hA⟩ := appended_frame s b rest
  refine ⟨answerWith (.emitted (rest.length + 1)) (remember c b (bumpWidth (appended s b rest))), ?_, ?_⟩
  · rw [commonTail, maxbits9Blocked_eq_false, ha]
    rfl
  · rw [hA] at hnf hlk ⊢
    obtain ⟨hc, hbw⟩ | ⟨hc, hbw⟩ := bumpWidth_cases { s with out := s.out ++ b :: rest, ram := m, nextfree := n }
    · simp only at hnf hc
      have hcw : s.codewidth.toNat < s.maxbits.toNat := by
        obtain ⟨e1, e2⟩ | ⟨e1, e2⟩ := hmv <;> omega
      have hw : (BitVec.ofNat 5 (s.codewidth.toNat + 1)).toNat = s.codewidth.toNat + 1 := by
        rw [BitVec.toNat_ofNat]
        omega
      rw [hbw]
      refine ⟨rfl, hlk, hnf, hw.trans (if_pos hc).symm, ?_, ?_, ⟨rfl, rfl⟩, rfl, rfl⟩
      · refine (maxcodeFor_toNat (w := s.codewidth.toNat + 1) (mb := s.maxbits) (by omega) hmb).trans ?_
        exact congrArg (maxcodeOf · s.maxbits.toNat) hw.symm
      · have : decide (s.maxcode.toNat < n.toNat) = true := decide_eq_true hc
        show true = (s.forceRefill || decide (s.maxcode.toNat < n.toNat))
        rw [this, Bool.or_true]
    · simp only at hnf hc
      rw [hbw]
      refine ⟨rfl, hlk, hnf, (if_neg (Nat.not_lt.2 hc)).symm, hs.maxcode_eq, ?_, ⟨rfl, rfl⟩, rfl, rfl⟩
      have : decide (s.maxcode.toNat < n.toNat) = false := decide_eq_false (Nat.not_lt.2 hc)
      show s.forceRefill = (s.forceRefill || decide (s.maxcode.toNat < n.toNat))
      rw [this, Bool.or_false]

end Sys2Proof.Machine
end

