-- ==== Sys2Proof/Tests/Slice0.lean ====
section
/-!
SUPPORT. Tests with expected results from spec/95_test_vectors.md, the ill-formed terms that `WellFormed` refuses, and for
each obligation with hypotheses a concrete state and operands that meet them.
-/

namespace Sys2Proof.Tests

open Sys2Proof Sys2Proof.Machine

/-! ## Helpers -/

/-- The next state of an outcome. -/
def nextOf {σ φ ρ : Type} (r : Host.Outcome σ φ ρ) : Option σ :=
  match r with
  | .next s => some s
  | .fault _ => none
  | .refused _ => none

/-- A computed view of a next state gives the next state itself. -/
theorem next_of {α σ φ ρ : Type} {r : Host.Outcome σ φ ρ} {f : σ → α} {x : α} (h : (nextOf r).map f = some x) :
    ∃ t, r = .next t ∧ f t = x := by
  cases r with
  | next s => exact ⟨s, rfl, by simpa [nextOf] using h⟩
  | fault e => simp [nextOf] at h
  | refused e => simp [nextOf] at h

/-- The stream of program P2. -/
def p2 : List Byte :=
  [0x1F, 0x9D, 0x90, 0x61, 0xC4, 0x04, 0x04, 0x08, 0, 0, 0, 0, 0x63, 0xC6, 0x04, 0x14, 0x08]

/-- P2 before `OPEN`. -/
def p2Idle : State := { State.reset with input := p2 }

/-- P2 after `OPEN`. -/
def p2Start : State :=
  { p2Idle with
    st := .start, hdrValid := true, maxbits := 16, block := true, codewidth := 9, maxcode := 511, nextfree := 257,
    bufbase := 3, inpos := 3 }

/-- P2 after step 1: the group at byte 3 is in the buffer. -/
def p2One : State :=
  { p2Start with
    st := .running, lastcode := 97, lastfirst := 97, bytes := 9, usable := 64, bitoff := 9, inpos := 12, out := [97]
    buf := #v[0x61, 0xC4, 0x04, 0x04, 0x08, 0, 0, 0, 0, 0, 0, 0, 0, 0, 0, 0] }

/-- P2 after step 2: entry 257 = (97, 0x62). -/
def p2Two : State :=
  { p2One with lastcode := 98, lastfirst := 98, bitoff := 18, nextfree := 258, ram := [(257, ⟨97, 98⟩)], out := [97, 98] }

/-- P2 after step 4, the `CLR`. -/
def p2Clear : State :=
  { p2One with
    lastcode := 257, lastfirst := 97, bitoff := 36, pendingClear := true, forceRefill := true
    ram := [(257, ⟨97, 98⟩), (258, ⟨98, 97⟩)], out := [97, 98, 97, 98] }

/-- P2 with all its codes used up, at the end of the stream (before step 9); the table of step 6. -/
def p2Late : State :=
  { p2One with
    lastcode := 99, lastfirst := 99, bytes := 5, usable := 32, bitoff := 36, bufbase := 12, inpos := 17, nextfree := 258
    ram := [(257, ⟨99, 99⟩)], buf := #v[0x63, 0xC6, 0x04, 0x14, 0x08, 0, 0, 0, 0, 0, 0, 0, 0, 0, 0, 0] }

/-- `n` entries from `lo` on, each the literal 65 followed by `A`. -/
def manyEntries : Nat → Nat → Memory
  | _, 0 => []
  | lo, n + 1 => (lo, ⟨65, 65⟩) :: manyEntries (lo + 1) n

/-- A table one append below the width bump (`NEXTFREE` 511, width 9), as in P3 before step 257. -/
def bumpDue : State := { p2One with nextfree := 511, ram := manyEntries 257 254 }

theorem lookup_manyEntries (lo n a : Nat) (h1 : lo ≤ a) (h2 : a < lo + n) :
    ramLookup (manyEntries lo n) a = some ⟨65, 65⟩ := by
  induction n generalizing lo with
  | zero => omega
  | succ n ih =>
    rw [manyEntries, ramLookup]
    split
    · rfl
    · exact ih (lo + 1) (by omega) (by omega)

/-! ## The sample states are legal -/

theorem inv_p2Idle : Inv p2Idle :=
  ⟨⟨rfl, rfl, by decide, by decide, by decide, by decide, fun _ => rfl, by decide, by decide,
    fun _ => ⟨rfl, rfl, rfl⟩, nofun⟩, by decide⟩

theorem session_p2Start : SessionInv p2Start :=
  ⟨by decide, by decide, by decide, by decide, by decide, by decide, by decide, by decide, by decide, by decide,
    by decide, by decide, by decide, fun a h1 h2 => absurd (Nat.lt_of_le_of_lt h2 h1) (by decide), nofun, by decide,
    by decide, by decide, by decide, rfl⟩

theorem inv_p2Start : Inv p2Start :=
  ⟨⟨rfl, rfl, by decide, by decide, by decide, by decide, fun _ => rfl, by decide, by decide,
    nofun, fun _ => session_p2Start⟩, by decide⟩

theorem session_p2One : SessionInv p2One :=
  ⟨by decide, by decide, by decide, by decide, by decide, by decide, by decide, by decide, by decide, by decide,
    by decide, by decide, by decide, fun a h1 h2 => absurd (Nat.lt_of_le_of_lt h2 h1) (by decide),
    fun _ _ => .inl (by decide), by decide, by decide, by decide, by decide, rfl⟩

theorem inv_p2One : Inv p2One :=
  ⟨⟨rfl, rfl, by decide, by decide, by decide, by decide, fun _ => rfl, by decide, by decide,
    nofun, fun _ => session_p2One⟩, by decide⟩

theorem session_p2Two : SessionInv p2Two := by
  refine ⟨by decide, by decide, by decide, by decide, by decide, by decide, by decide, by decide, by decide, by decide,
    by decide, by decide, by decide, fun a h1 h2 => ?_, fun _ _ => .inl (by decide), by decide, by decide, by decide,
    by decide, rfl⟩
  have h1' : a < 258 := h1
  have h2' : 257 ≤ a := h2
  obtain rfl : a = 257 := by omega
  decide

theorem inv_p2Two : Inv p2Two :=
  ⟨⟨by decide, rfl, by decide, by decide, by decide, by decide, fun _ => rfl, by decide, by decide,
    nofun, fun _ => session_p2Two⟩, by decide⟩

theorem session_p2Clear : SessionInv p2Clear :=
  ⟨by decide, by decide, by decide, by decide, by decide, by decide, by decide, by decide, by decide, by decide,
    by decide, by decide, by decide, fun a h1 h2 => absurd (Nat.lt_of_le_of_lt h2 h1) (by decide), nofun,
    nofun, fun _ => ⟨rfl, rfl, rfl, rfl⟩, by decide, by decide, rfl⟩

theorem inv_p2Clear : Inv p2Clear :=
  ⟨⟨by decide, rfl, by decide, by decide, by decide, by decide, fun _ => rfl, by decide, by decide,
    nofun, fun _ => session_p2Clear⟩, by decide⟩

theorem session_p2Late : SessionInv p2Late := by
  refine ⟨by decide, by decide, by decide, by decide, by decide, by decide, by decide, by decide, by decide, by decide,
    by decide, by decide, by decide, fun a h1 h2 => ?_, fun _ _ => .inl (by decide), by decide, by decide, by decide,
    by decide, rfl⟩
  have h1' : a < 258 := h1
  have h2' : 257 ≤ a := h2
  obtain rfl : a = 257 := by omega
  decide

theorem inv_p2Late : Inv p2Late :=
  ⟨⟨by decide, rfl, by decide, by decide, by decide, by decide, fun _ => rfl, by decide, by decide,
    nofun, fun _ => session_p2Late⟩, by decide⟩

theorem session_bumpDue : SessionInv bumpDue := by
  refine ⟨by decide, by decide, by decide, by decide, by decide, by decide, by decide, by decide, by decide, by decide,
    by decide, by decide, by decide, fun a h1 h2 => ?_, fun _ _ => .inl (by decide), ?_, by decide, by decide,
    by decide, rfl⟩
  · have h1' : a < 511 := h1
    have h2' : 257 ≤ a := h2
    have h : ramLookup bumpDue.ram a = some ⟨65, 65⟩ := lookup_manyEntries 257 254 a h2' (by omega)
    have hp : ((65 : Code).toNat < a) := Nat.lt_of_lt_of_le (by decide) h2'
    rw [entryOk, h]
    simp only [Bool.and_eq_true, decide_eq_true_eq]
    exact ⟨hp, by decide⟩
  · exact fun _ _ => congrArg (Option.bind · List.head?) (stringOf_literalCode bumpDue 97)

/-! ## `WellFormed` refuses an ill-formed term of each check -/

theorem test_wf_header_low : WellFormed (.header false 0 8) = false := by decide
theorem test_wf_header_high : WellFormed (.header false 0 17) = false := by decide
theorem test_wf_badMagic : WellFormed (.headerBadMagic 0x1F 0x9D 9) = false := by decide
theorem test_wf_tooLarge : WellFormed (.headerWidthTooLarge true 3 16) = false := by decide
theorem test_wf_tooSmall : WellFormed (.headerWidthTooSmall true 3 9) = false := by decide
theorem test_wf_short : WellFormed (.headerShort [0x1F, 0x9D, 9]) = false := by decide
theorem test_wf_firstInvalid_low : WellFormed (.firstInvalid 255) = false := by decide
theorem test_wf_firstInvalid_high : WellFormed (.firstInvalid 512) = false := by decide
theorem test_wf_postclrInvalid_low : WellFormed (.postclrInvalid 255) = false := by decide
theorem test_wf_postclrInvalid_high : WellFormed (.postclrInvalid 512) = false := by decide
theorem test_wf_kwk : WellFormed (.kwk 255) = false := by decide
theorem test_wf_ref : WellFormed (.ref 255) = false := by decide
theorem test_wf_outOfRange : WellFormed (.codeOutOfRange 256) = false := by decide

/-! ## Decoding: a word of every constructor that has bits, written out from the spec's encoding -/

-- format H, `00011111 10011101 bssmmmmm` (R91): b = 1, ss = 11, mmmmm = 01100 (HV4)
theorem test_decode_header : decodeTableWord 24 0b000111111001110111101100 = some (.header true 3 12) := by decide
-- second byte 9E (HV7)
theorem test_decode_badMagic : decodeTableWord 24 0x1F9E09 = some (.headerBadMagic 0x1F 0x9E 9) := by decide
-- mmmmm = 10001 (HV9)
theorem test_decode_tooLarge : decodeTableWord 24 0b000111111001110100010001 = some (.headerWidthTooLarge false 0 17) := by
  decide
-- mmmmm = 01000 (HV12)
theorem test_decode_tooSmall : decodeTableWord 24 0b000111111001110100001000 = some (.headerWidthTooSmall false 0 8) := by
  decide
-- one byte (HV15) and none (HV14)
theorem test_decode_short : decodeTableWord 8 0x1F = some (.headerShort [0x1F]) ∧ decodeTableWord 0 0 = some (.headerShort []) := by
  decide

-- the 9-bit code 65 in bytes 41 00 (X1), in `Start`: `00000000 01000001` (R99 line 1)
theorem test_decode_first : codeInstr (classify ⟨true, false, false, 256⟩ (BitVec.ofNat 16 (codeAt [0x41, 0x00] 0 9))) =
    .first 0b01000001 := by decide
-- the 9-bit code 256 in bytes 00 01 (DV3), in `Start` (R99 line 2)
theorem test_decode_firstInvalid :
    codeInstr (classify ⟨true, false, true, 257⟩ (BitVec.ofNat 16 (codeAt [0x00, 0x01] 0 9))) = .firstInvalid 256 := by
  decide
-- the first code of the second group of P2, 99 in bytes 63 C6 (R99 line 3)
theorem test_decode_postclr :
    codeInstr (classify ⟨false, true, true, 257⟩ (BitVec.ofNat 16 (codeAt [0x63, 0xC6, 0x04] 0 9))) = .postclr 0x63 := by
  decide
-- 257 in bytes 01 01 after a CLEAR (DV9, R99 line 4)
theorem test_decode_postclrInvalid :
    codeInstr (classify ⟨false, true, true, 257⟩ (BitVec.ofNat 16 (codeAt [0x01, 0x01] 0 9))) = .postclrInvalid 257 := by
  decide
-- P2 code 4: 256 at bit 27 (X5), in block mode (R99 line 5); without block mode and with no entry it is `KWK`
theorem test_decode_clr :
    codeInstr (classify ⟨false, false, true, 259⟩ (BitVec.ofNat 16 (codeAt [0x61, 0xC4, 0x04, 0x04, 0x08] 27 9))) = .clr := by
  decide
-- P2 code 2: 98 at bit 9 (X3), and the table word of `b` at its own context
theorem test_decode_lit :
    codeInstr (classify ⟨false, false, true, 257⟩ (BitVec.ofNat 16 (codeAt [0x61, 0xC4, 0x04, 0x04, 0x08] 9 9))) =
      .lit 98 ∧ decodeTableWord 16 0b0000000001100010 = some (.lit 98) := by decide
-- P1 code 2: 256 at bit 9 of 41 00 06 14 08, `NEXTFREE` 256, no block mode
theorem test_decode_kwk :
    codeInstr (classify ⟨false, false, false, 256⟩ (BitVec.ofNat 16 (codeAt [0x41, 0x00, 0x06, 0x14, 0x08] 9 9))) =
      .kwk 256 := by decide
-- P2 code 3: 257 at bit 18 (X4)
theorem test_decode_ref :
    codeInstr (classify ⟨false, false, true, 258⟩ (BitVec.ofNat 16 (codeAt [0x61, 0xC4, 0x04, 0x04, 0x08] 18 9))) =
      .ref 257 := by decide
-- DV5: 300 at bit 9 of 41 58 02, `NEXTFREE` 256
theorem test_decode_outOfRange :
    codeInstr (classify ⟨false, false, false, 256⟩ (BitVec.ofNat 16 (codeAt [0x41, 0x58, 0x02] 9 9))) =
      .codeOutOfRange 300 := by decide
-- codes of the table at width 9 in its own context: 256 clears, 257 is the next entry, 258 is beyond it, 512 has ten bits
theorem test_decode_table_codes :
    decodeTableWord 16 256 = some .clr ∧ decodeTableWord 16 257 = some (.kwk 257) ∧
      decodeTableWord 16 258 = some (.codeOutOfRange 258) ∧ decodeTableWord 16 512 = none ∧
      decodeTableWord 32 0 = none := by decide
-- both forms of the extraction on the three-byte code of X14 and on the mask of X6
theorem test_extract_forms :
    codeAt [0x00, 0x00, 0xE0, 0xFF, 0x03] 21 13 = 8191 ∧ codeAtShift [0x00, 0x00, 0xE0, 0xFF, 0x03] 21 13 = 8191 ∧
      codeAt [0xFF, 0xFF, 0xFF] 0 9 = 511 ∧ codeAtShift [0xFF, 0xFF, 0xFF] 0 9 = 511 := by decide
-- program P1 and program P2 in the stream notation (R104, R105)
theorem test_assemble_p1 : assembleStream 16 false 0 [.lit 65, .kwk, .kwk, .kwk] =
    some [0x1F, 0x9D, 0x10, 0x41, 0x00, 0x06, 0x14, 0x08] := by decide
theorem test_assemble_p2 :
    assembleStream 16 true 0 [.lit 97, .lit 98, .ref 257, .clr, .lit 99, .lit 99, .ref 257, .ref 258] = some p2 := by decide

/-! ## One step of each instruction -/

/-- A stream with the host about to open it. -/
def opened (stream : List Byte) : State := { State.reset with input := stream, host := [.openStream] }

-- HV4 and HV1
theorem test_header_hv4 : (nextOf (step (opened [0x1F, 0x9D, 0xEC]))).map
    (fun t => (t.st, t.maxbits, t.block, t.maxcode, t.nextfree)) = some (.start, 12, true, 511, 257) := by decide
theorem test_header_hv1 : (nextOf (step (opened [0x1F, 0x9D, 0x09]))).map
    (fun t => (t.inpos, t.maxbits, t.block, t.maxcode, t.nextfree)) = some (3, 9, false, 512, 256) := by decide
-- HV7 and HV8
theorem test_badMagic_hv7 : (nextOf (step (opened [0x1F, 0x9E, 0x09]))).map (fun t => (t.st, t.err, t.errinfo)) =
    some (.fault, .badMagic, 0x9E1F) := by decide
theorem test_badMagic_hv8 : (nextOf (step (opened [0x00, 0x9D, 0x11]))).map (fun t => (t.st, t.err, t.errinfo)) =
    some (.fault, .badMagic, 0x9D00) := by decide
-- HV10
theorem test_tooLarge_hv10 : (nextOf (step (opened [0x1F, 0x9D, 0x9F]))).map (fun t => (t.err, t.errinfo, t.inpos)) =
    some (.widthTooLarge, 0x009F, 3) := by decide
-- HV13
theorem test_tooSmall_hv13 : (nextOf (step (opened [0x1F, 0x9D, 0x80]))).map (fun t => (t.err, t.errinfo, t.hdrValid)) =
    some (.widthTooSmall, 0x0080, false) := by decide
-- HV18 and HV14
theorem test_short_hv18 : (nextOf (step (opened [0x00, 0x00]))).map (fun t => (t.err, t.errinfo, t.inpos)) =
    some (.shortHeader, 2, 2) := by decide
theorem test_short_hv14 : (nextOf (step (opened []))).map (fun t => (t.err, t.errinfo, t.inpos)) =
    some (.shortHeader, 0, 0) := by decide

/-- A state with `DECODE_NEXT` to come. -/
def decoding (s : State) : State := { s with host := [.decodeNext] }

-- P2 step 1
theorem test_first_p2 : (nextOf (step (decoding p2Start))).map (fun t => (t.st, t.out, t.usable, t.bitoff, t.inpos)) =
    some (.running, [97], 64, 9, 12) := by decide
-- DV3
theorem test_firstInvalid_dv3 :
    (nextOf (step (decoding { p2Start with input := [0x1F, 0x9D, 0x90, 0x00, 0x01] }))).map
      (fun t => (t.err, t.errinfo, t.bitoff, t.inpos)) = some (.firstNotLiteral, 256, 9, 5) := by decide
-- P2 step 5: the forced refill at byte 12, and nothing appended
theorem test_postclr_p2 : (nextOf (step (decoding p2Clear))).map
    (fun t => (t.bufbase, t.usable, t.lastcode, t.nextfree, t.pendingClear)) = some (12, 32, 99, 257, false) := by decide
-- DV9
theorem test_postclrInvalid_dv9 :
    (nextOf (step (decoding { p2Clear with
      input := [0x1F, 0x9D, 0x90, 0x41, 0x84, 0x00, 0x04, 0, 0, 0, 0, 0, 0x01, 0x01] }))).map
      (fun t => (t.err, t.errinfo, t.pendingClear)) = some (.postclearNotLiteral, 257, true) := by decide
-- P2 step 4 (its class from the code at bit 27; `LASTCODE` stays stale)
theorem test_clr_p2 : (nextOf (step (decoding { p2Two with bitoff := 27, lastcode := 257, lastfirst := 97 }))).map
    (fun t => (t.nextfree, t.pendingClear, t.forceRefill, t.lastcode, t.answer)) = some (257, true, true, 257, .emitted 0) := by
  decide
-- P2 step 2: entry 257 = (97, 0x62)
theorem test_lit_p2 : (nextOf (step (decoding p2One))).map (fun t => (t.out, t.nextfree, t.ram, t.lastcode)) =
    some ([97, 98], 258, [(257, ⟨97, 0x62⟩)], 98) := by decide
-- P3 step 257 (with `maxbits = 10`): the append makes `NEXTFREE` 512 and bumps the width
theorem test_lit_bump : (nextOf (exec (.lit 0) { bumpDue with maxbits := 10 })).map
    (fun t => (t.codewidth, t.maxcode, t.nextfree, t.forceRefill)) = some (10, 1024, 512, true) := by decide
-- P1 steps 2 and 3
theorem test_kwk_p1 : (nextOf (exec (.kwk 256) { p2One with
      block := false, nextfree := 256, lastcode := 65, lastfirst := 65, out := [65] })).map
    (fun t => (t.out, t.nextfree, t.ram, t.lastcode)) = some ([65, 65, 65], 257, [(256, ⟨65, 0x41⟩)], 256) := by decide
theorem test_kwk_p1_chain : (nextOf (exec (.kwk 257) { p2One with
      block := false, nextfree := 257, lastcode := 256, lastfirst := 65, out := [], ram := [(256, ⟨65, 65⟩)] })).map
    (fun t => (t.out, t.ram)) = some ([65, 65, 65], [(256, ⟨65, 65⟩), (257, ⟨256, 0x41⟩)]) := by decide
-- P2 step 3: entry 258 = (98, 0x61), "ab"
theorem test_ref_p2 : (nextOf (step (decoding p2Two))).map (fun t => (t.out, t.ram, t.lastcode, t.lastfirst)) =
    some ([97, 98, 97, 98], [(257, ⟨97, 98⟩), (258, ⟨98, 0x61⟩)], 257, 97) := by decide
-- P4: the table is full, so `REF` 511 appends nothing and the width stays
theorem test_ref_full : (nextOf (exec (.ref 511) { p2One with
      block := false, maxbits := 9, maxcode := 512, nextfree := 512, ram := [(511, ⟨255, 0⟩)] })).map
    (fun t => (t.out, t.nextfree, t.codewidth, t.forceRefill)) = some ([97, 0xFF, 0x00], 512, 9, false) := by decide
-- P7: code 259 above `NEXTFREE` 258
theorem test_outOfRange_p7 : (nextOf (exec (.codeOutOfRange 259) p2Two)).map
    (fun t => (t.st, t.err, t.errinfo, t.nextfree, t.out)) = some (.fault, .codeOutOfRange, 259, 258, [97, 98]) := by decide
-- P2 step 9, and P6 step 9: one byte is left after a full group
theorem test_eos_p2 : (nextOf (step (decoding p2Late))).map (fun t => (t.st, t.bytes, t.bufbase, t.answer)) =
    some (.done, 0, 17, .done) := by decide
theorem test_eos_p6 : (nextOf (step (decoding { p2One with bitoff := 72, input := p2.take 12 ++ [0x55] }))).map
    (fun t => (t.st, t.inpos, t.bufbase)) = some (.done, 13, 13) := by decide
-- R270: from `Fault`
theorem test_reset : (nextOf (step { p2Two with st := .fault, err := .codeOutOfRange, errinfo := 259, host := [.reset] })).map
    (fun t => (t.st, t.err, t.errinfo, t.hdrValid, t.out)) = some (.idle, .none, 0, false, []) := by decide
-- R129 and P7's last sentence
theorem test_open_refused : (nextOf (exec .openCommand p2Two)) = some { p2Two with answer := .refused } := by decide
theorem test_decodeNext_refused : (nextOf (exec .decodeNext { p2Two with st := .fault })) =
    some { p2Two with st := .fault, answer := .refused } := by decide
-- N3 and N2
theorem test_nextcode_n3 : (nextOf (exec .nextcode p2Clear)).map (fun t => (t.answer, t.bufbase, t.bitoff)) =
    some (.code 99, 12, 9) := by decide
theorem test_nextcode_n2 : (nextOf (exec .nextcode { p2One with bitoff := 72, input := p2.take 12 ++ [0x55] })).map
    (fun t => (t.answer, t.inpos, t.usable)) = some (.endOfStream, 13, 0) := by decide
-- R143
theorem test_signalRefill : (nextOf (exec .signalRefill p2One)) = some { p2One with forceRefill := true, answer := .none } := by
  decide
-- N4: ten bytes asked at width 10, four got
theorem test_refill_n4 : (nextOf (exec .refill { p2One with codewidth := 10, inpos := 13, input := p2 })).map
    (fun t => (t.bytes, t.usable, t.inpos, t.answer)) = some (4, 23, 17, .ok) := by decide
-- R145
theorem test_refill_end : (nextOf (exec .refill { p2One with inpos := 17 })).map (fun t => (t.bytes, t.usable, t.answer)) =
    some (0, 0, .endOfStream) := by decide
-- X4
theorem test_extract_x4 : (nextOf (exec .extract p2Two)).map (fun t => (t.answer, t.bitoff)) = some (.code 257, 27) := by decide
-- X17, width 16
theorem test_extract_x17 : (nextOf (exec .extract { p2One with
      codewidth := 16, bytes := 2, usable := 1, bitoff := 0, buf := #v[0x34, 0x12, 0, 0, 0, 0, 0, 0, 0, 0, 0, 0, 0, 0, 0, 0] })).map
    (fun t => (t.answer, t.bitoff)) = some (.code 0x1234, 16) := by decide
-- T7
theorem test_dtReset_t7 : (nextOf (exec .dtReset { p2Two with nextfree := 300 })).map (fun t => (t.nextfree, t.ram)) =
    some (257, [(257, ⟨97, 98⟩)]) := by decide
-- T1 and T5
theorem test_dtAppend_t1 : (nextOf (exec (.dtAppend 65 0x42) { p2One with block := false, nextfree := 256 })).map
    (fun t => (t.ram, t.nextfree, t.answer)) = some ([(256, ⟨65, 0x42⟩)], 257, .index 256) := by decide
theorem test_dtAppend_t5 : (nextOf (exec (.dtAppend 1 2) { p2One with maxbits := 9, nextfree := 512 })).map
    (fun t => (t.ram, t.nextfree, t.answer)) = some ([], 512, .nothing) := by decide
-- T3's first read
theorem test_dtResolve : (nextOf (exec (.dtResolve 257) p2Two)).map (·.answer) = some (.entry ⟨97, 98⟩) := by decide
-- T3 and T4
theorem test_string_t3 : (nextOf (exec (.string 257) { p2One with
      block := false, nextfree := 258, ram := [(256, ⟨65, 0x42⟩), (257, ⟨256, 0x43⟩)] })).map (·.answer) =
    some (.bytes [0x41, 0x42, 0x43]) := by decide
theorem test_string_t4 : (nextOf (exec (.string 66) p2One)).map (·.answer) = some (.bytes [0x42]) := by decide
-- the placed table words run as the first instruction after reset
theorem test_withFetchWord_code : (nextOf (step (State.reset.withFetchWord 16 0x61))).map (fun t => (t.out, t.nextfree)) =
    some ([0x61], 258) := by decide
theorem test_withFetchWord_header : (nextOf (step (State.reset.withFetchWord 24 0x1F9D90))).map (fun t => (t.st, t.maxbits)) =
    some (.start, 16) := by decide
-- R240, R78: no action, and a stream made available at the wrong time
theorem test_step_idle : step p2One = .next p2One := rfl
theorem test_present_refused : step { p2One with host := [.present []] } = .refused .inputChanged := rfl

/-! ## Witnesses: for each obligation with hypotheses, a state and operands that meet them -/

theorem witness_HeaderDecodesFromItsBytes :
    ∀ i ∈ [Instr.header true 3 9, .header false 0 16, .headerBadMagic 0x1F 0 9, .headerWidthTooLarge true 1 17,
      .headerWidthTooSmall false 2 8, .headerShort [0x1F, 0x9D]], isHeaderInstr i = true ∧ WellFormed i = true := by decide

theorem witness_CodeDecodesFromItsBits :
    codeOf (.ref 65535) = some 65535 ∧ WellFormed (.ref 65535) = true ∧ ClassHolds ⟨false, false, true, 65536⟩ (.ref 65535) ∧
      legalWidth 16 = true ∧ (65535 : Code).toNat < 2 ^ 16 :=
  ⟨rfl, by decide, ⟨rfl, rfl, by decide, by decide⟩, by decide, by decide⟩

theorem witness_CodeValueDecodesFromItsBytes : codeOf (.kwk 257) = some 257 := rfl

theorem witness_ShiftFormEqualsBitSum :
    (9 ≤ 9 ∧ 9 ≤ 16 ∧ 7 + 9 ≤ 8 * [(0xFF : Byte), 0xFF].length) ∧
    (9 ≤ 16 ∧ 16 ≤ 16 ∧ 0 + 16 ≤ 8 * [(0x34 : Byte), 0x12].length) := by decide

theorem witness_HeaderStartsSession :
    p2Idle.st = .idle ∧ 9 ≤ (9 : BitVec 5).toNat ∧ (9 : BitVec 5).toNat ≤ 16 ∧ 9 ≤ (16 : BitVec 5).toNat ∧
      (16 : BitVec 5).toNat ≤ 16 := by decide

theorem witness_BadMagicRaisesCauseOne :
    p2Idle.st = .idle ∧ ¬((0x1F : Byte) = 0x1F ∧ (0x9E : Byte) = 0x9D) ∧ ¬((0x1E : Byte) = 0x1F ∧ (0x9D : Byte) = 0x9D) := by
  decide

theorem witness_BadWidthRaisesCauseTwoOrThree :
    p2Idle.st = .idle ∧ 16 < (17 : BitVec 5).toNat ∧ (8 : BitVec 5).toNat < 9 := by decide

theorem witness_ShortHeaderRaisesCauseFour :
    p2Idle.st = .idle ∧ ([] : List Byte).length < 3 ∧ [(0x1F : Byte), 0x9D].length < 3 := by decide

theorem witness_OpenAcceptsExactlyLegalHeaders :
    p2Idle.st = .idle ∧ p2Idle.inpos = 0 ∧
    (∃ c rest, p2Idle.input = 0x1F :: 0x9D :: c :: rest ∧ 9 ≤ c.toNat % 32 ∧ c.toNat % 32 ≤ 16) ∧
    (opened []).st = .idle ∧ (opened []).inpos = 0 :=
  ⟨rfl, rfl, ⟨0x90, _, rfl, by decide, by decide⟩, rfl, rfl⟩

/-- `OPEN` on a stream that fails, with the error it raises. -/
theorem open_fails {stream : List Byte} {c : Cause}
    (h : (nextOf (exec .openCommand (opened stream))).map (fun t => (t.st, t.err)) = some (.fault, c)) :
    ∃ t, exec .openCommand (opened stream) = .next t ∧ t.st = .fault ∧ t.err = c := by
  obtain ⟨t, h1, h2⟩ := next_of h
  exact ⟨t, h1, congrArg Prod.fst h2, congrArg Prod.snd h2⟩

theorem witness_OpenReportsTheFirstError :
    (∃ t, exec .openCommand (opened [0x1F, 0x9D]) = .next t ∧ t.st = .fault ∧ t.err = .shortHeader) ∧
    (∃ t, exec .openCommand (opened [0x1F, 0x9E, 0x09]) = .next t ∧ t.st = .fault ∧ t.err = .badMagic) ∧
    (∃ t, exec .openCommand (opened [0x1F, 0x9D, 0x11]) = .next t ∧ t.st = .fault ∧ t.err = .widthTooLarge) ∧
    (∃ t, exec .openCommand (opened [0x1F, 0x9D, 0x08]) = .next t ∧ t.st = .fault ∧ t.err = .widthTooSmall) :=
  ⟨open_fails (by decide), open_fails (by decide), open_fails (by decide), open_fails (by decide)⟩

theorem witness_OpenReadsOnlyTheHeader :
    (opened [0, 0]).st = .idle ∧ (opened [0, 0]).inpos = 0 ∧ ∃ t, exec .openCommand (opened [0, 0]) = .next t ∧ t.st = .fault ∧ t.err = .shortHeader :=
  ⟨rfl, rfl, open_fails (by decide)⟩

theorem witness_SpareBitsStartIdenticalSessions :
    p2Idle.st = .idle ∧ p2Idle.inpos = 0 ∧ (0x8C : Byte) &&& 0x9F = 0xEC &&& 0x9F ∧
    ∃ t, exec .openCommand { p2Idle with input := [0x1F, 0x9D, 0x8C] } = .next t ∧ t.st = .start :=
  ⟨rfl, rfl, by decide, next_of (f := State.st) (by decide)⟩

theorem witness_IllegalCommandsAreRefused :
    p2One.st ≠ .idle ∧ p2Idle.st ≠ .start ∧ p2Idle.st ≠ .running := by decide

theorem witness_RefillLoadsOneGroup :
    9 ≤ p2One.codewidth.toNat ∧ p2One.codewidth.toNat ≤ 16 ∧ 9 ≤ { p2One with codewidth := 16 }.codewidth.toNat ∧
      { p2One with codewidth := 16 }.codewidth.toNat ≤ 16 := by decide

theorem witness_ExtractReturnsTheBitsAtOffset :
    p2Two.forceRefill = false ∧ p2Two.bitoff.toNat < p2Two.usable.toNat ∧
      p2Two.usable.toNat = usableBits p2Two.bytes.toNat p2Two.codewidth.toNat ∧ p2Two.bytes.toNat ≤ 16 ∧
      9 ≤ p2Two.codewidth.toNat ∧ p2Two.codewidth.toNat ≤ 16 := by decide

theorem witness_NextcodeCompletesInTheReader : SessionInv p2Start := session_p2Start

theorem witness_NextcodeNeedsAtMostTwoTurns : SessionInv p2Clear := session_p2Clear

theorem witness_NextcodeReadsTheStreamBits :
    (Inv p2Start ∧ inSession p2Start = true ∧ fetchPos p2Start + p2Start.codewidth.toNat ≤ 8 * p2Start.input.length) ∧
    (Inv p2Late ∧ inSession p2Late = true ∧ 8 * p2Late.input.length < fetchPos p2Late + p2Late.codewidth.toNat) :=
  ⟨⟨inv_p2Start, by decide, by decide⟩, inv_p2Late, by decide, by decide⟩

theorem witness_EndOfStreamMeansNoByteLeft :
    Inv p2Late ∧ inSession p2Late = true ∧ ∃ t, nextcode p2Late = .next (none, t) := by
  obtain ⟨⟨f, t⟩, h, hf⟩ := next_of (r := nextcode p2Late) (f := Prod.fst) (x := none) (by decide)
  cases hf
  exact ⟨inv_p2Late, by decide, t, h⟩

theorem witness_ForcedRefillStartsTheNextGroup :
    Inv p2Clear ∧ inSession p2Clear = true ∧ p2Clear.forceRefill = true ∧ p2Clear.inpos + 2 ≤ p2Clear.input.length :=
  ⟨inv_p2Clear, by decide, by decide, by decide⟩

/-- A full table of `maxbits = 9`. -/
def full : State := { p2One with maxbits := 9, maxcode := 512, nextfree := 512 }

theorem witness_DtAppendWritesOneLocationOrNothing :
    (p2Two.nextfree.toNat < 2 ^ p2Two.maxbits.toNat ∧ p2Two.maxbits.toNat ≤ 16) ∧
    ({ full with nextfree := 511 }.nextfree.toNat < 2 ^ full.maxbits.toNat ∧ full.maxbits.toNat ≤ 16) ∧
    2 ^ full.maxbits.toNat ≤ full.nextfree.toNat := by decide

theorem witness_DtResolveReadsValidIndicesOnly :
    (256 + p2Two.block.toNat ≤ (257 : Code).toNat ∧ (257 : Code).toNat < p2Two.nextfree.toNat ∧
      ramLookup p2Two.ram (257 : Code).toNat = some ⟨97, 98⟩) ∧
    ¬(256 + p2Two.block.toNat ≤ (256 : Code).toNat ∧ (256 : Code).toNat < p2Two.nextfree.toNat) ∧
    ¬(256 + p2Two.block.toNat ≤ (258 : Code).toNat ∧ (258 : Code).toNat < p2Two.nextfree.toNat) := by decide

theorem witness_StackFormEqualsStringDefinition : p2Two.stk = [] := rfl

theorem witness_StringFollowsItsDefinition :
    SessionInv p2Two ∧ p2Two.stk = [] ∧ namesString p2Two (257 : Code).toNat ∧ namesString p2Two (255 : Code).toNat :=
  ⟨session_p2Two, rfl, .inr (by decide), .inl (by decide)⟩

theorem witness_FirstCodeMustBeALiteral : p2Start.st = .start ∧ 256 ≤ (256 : Code).toNat := by decide

theorem witness_CodeAfterClearMustBeALiteral :
    p2Clear.st = .running ∧ p2Clear.pendingClear = true ∧ 256 ≤ (256 : Code).toNat := by decide

theorem witness_CodeAboveNextfreeIsOutOfRange :
    p2Two.st = .running ∧ p2Two.pendingClear = false ∧ 256 ≤ (259 : Code).toNat ∧
      ¬(p2Two.block = true ∧ (259 : Code).toNat = 256) ∧ p2Two.nextfree.toNat < (259 : Code).toNat := by decide

theorem witness_ClrRestartsAtWidthNine :
    (p2Two.st = .running ∧ p2Two.pendingClear = false ∧ p2Two.block = true) ∧
      (⟨false, false, false, 256⟩ : CodeContext).block = false := by decide

theorem witness_LitEmitsAndAppends : SessionInv p2One ∧ p2One.st = .running ∧ p2One.pendingClear = false :=
  ⟨session_p2One, rfl, rfl⟩

theorem witness_RefEmitsItsString :
    SessionInv p2Two ∧ p2Two.stk = [] ∧ p2Two.st = .running ∧ p2Two.pendingClear = false ∧
      firstOf p2Two ≤ (257 : Code).toNat ∧ (257 : Code).toNat < p2Two.nextfree.toNat :=
  ⟨session_p2Two, rfl, rfl, rfl, by decide, by decide⟩

theorem witness_KwkRepeatsTheLastString :
    SessionInv p2Two ∧ p2Two.stk = [] ∧ p2Two.st = .running ∧ p2Two.pendingClear = false ∧
      (258 : Code).toNat = p2Two.nextfree.toNat ∧ (258 : Code).toNat < 2 ^ p2Two.codewidth.toNat :=
  ⟨session_p2Two, rfl, rfl, rfl, by decide, by decide⟩

theorem witness_TailStepKeepsEveryString :
    SessionInv p2Two ∧ p2Two.stk = [] ∧ p2Two.st = .running ∧ p2Two.pendingClear = false ∧
      isTailInstr (.ref 257) = true ∧ (∃ t, exec (.ref 257) p2Two = .next t ∧ t.nextfree = 259) ∧
      namesString p2Two (257 : Code).toNat :=
  ⟨session_p2Two, rfl, rfl, rfl, rfl, next_of (by decide), .inr (by decide)⟩

theorem witness_WidthGrowsExactlyAtTheBumpPoint :
    (SessionInv bumpDue ∧ bumpDue.stk = [] ∧ bumpDue.st = .running ∧ bumpDue.pendingClear = false ∧
      isTailInstr (.lit 0) = true ∧ (∃ t, exec (.lit 0) bumpDue = .next t ∧ t.codewidth = 10) ∧
      bumpDue.nextfree.toNat + 1 = 2 ^ bumpDue.codewidth.toNat ∧ bumpDue.codewidth.toNat < bumpDue.maxbits.toNat) ∧
    (SessionInv p2Two ∧ (∃ t, exec (.lit 0) p2Two = .next t ∧ t.codewidth = 9) ∧
      ¬(p2Two.nextfree.toNat + 1 = 2 ^ p2Two.codewidth.toNat ∧ p2Two.codewidth.toNat < p2Two.maxbits.toNat)) :=
  ⟨⟨session_bumpDue, rfl, rfl, rfl, rfl, next_of (by decide), by decide, by decide⟩, session_p2Two,
    next_of (by decide), by decide⟩

theorem witness_EndOfStreamEndsTheSession : inSession p2Start = true ∧ inSession p2Late = true := by decide

theorem witness_DecodeNextRunsOneCode :
    (Inv p2Start ∧ inSession p2Start = true) ∧ (Inv p2Late ∧ inSession p2Late = true) :=
  ⟨⟨inv_p2Start, by decide⟩, inv_p2Late, by decide⟩

theorem witness_StepIssuesTheHostsAction :
    p2One.host = [] ∧ { p2One with host := [.reset] }.host = .reset :: [] ∧ (opened p2).host = .openStream :: [] ∧
      (decoding p2One).host = .decodeNext :: [] ∧ { p2Idle with host := [.present p2] }.host = .present p2 :: [] ∧
      p2Idle.st = .idle := by decide

theorem witness_StepRunsTheDecodedInstruction :
    ((opened p2).host = .openStream :: [] ∧ (opened p2).st = .idle) ∧
    ((decoding p2Start).host = .decodeNext :: [] ∧ inSession (decoding p2Start) = true ∧
      ∃ u, nextcode { decoding p2Start with host := [] } = .next (some 97, u)) ∧
    ((decoding p2Late).host = .decodeNext :: [] ∧ inSession (decoding p2Late) = true ∧
      ∃ u, nextcode { decoding p2Late with host := [] } = .next (none, u)) := by
  obtain ⟨⟨f, u⟩, h1, hf⟩ := next_of (r := nextcode { decoding p2Start with host := [] }) (f := Prod.fst) (x := some 97)
    (by decide)
  obtain ⟨⟨g, v⟩, h2, hg⟩ := next_of (r := nextcode { decoding p2Late with host := [] }) (f := Prod.fst) (x := none)
    (by decide)
  cases hf
  cases hg
  exact ⟨⟨rfl, rfl⟩, ⟨rfl, rfl, u, h1⟩, rfl, rfl, v, h2⟩

/-- A session does not depend on what the buffer and the host hold, nor on the RAM outside the valid indices, nor on
`LASTCODE` and `LASTFIRST` where they name nothing. -/
theorem session_hidden {s : State} (h : SessionInv s) (buf : Vector Byte 16) (ram : Memory) (lc : Code) (lf : Byte)
    (host : List HostAction) (hram : ∀ a, validIndex a s = true → ramLookup s.ram a = ramLookup ram a)
    (hlast : s.st = .running → s.pendingClear = false → s.lastcode = lc ∧ s.lastfirst = lf) :
    SessionInv { s with buf, ram, lastcode := lc, lastfirst := lf, host } := by
  refine ⟨h.width_low, h.width_high, h.maxbits_high, h.maxcode_eq, h.first_le, h.nextfree_le, h.maxcode_le,
    h.width_reached, h.bytes_high, h.group_bytes, h.offset_multiple, h.offset_high, h.usable_eq, ?_, ?_, ?_,
    h.clearing, h.clear_running, h.start_width, h.header_valid⟩
  · intro a h1 h2
    have h3 := h.entries a h1 h2
    rwa [entryOk, hram a (validIndex_iff.2 ⟨h2, h1⟩)] at h3
  · intro h1 h2
    obtain ⟨rfl, rfl⟩ := hlast h1 h2
    exact h.last_names h1 h2
  · intro h1 h2
    obtain ⟨rfl, rfl⟩ := hlast h1 h2
    have hl := h.last_first h1 h2
    rwa [stringOf, ← stringFrom_congr (t := { s with buf, ram, host }) h
      (fun a h3 h4 => ⟨h3, h4, (hram a (validIndex_iff.2 ⟨h3, h4⟩)).symm⟩) _ _
      ((h.last_names h1 h2).imp_left decide_eq_true)] at hl

/-- Nor does `InvBase`. -/
theorem inv_hidden {s : State} (hi : InvBase s) (buf : Vector Byte 16) (ram : Memory) (lc : Code) (lf : Byte)
    (host : List HostAction) (hwf : Memory.wf ram = true)
    (hram : ∀ a, validIndex a s = true → ramLookup s.ram a = ramLookup ram a)
    (hlast : s.st = .running → s.pendingClear = false → s.lastcode = lc ∧ s.lastfirst = lf) :
    InvBase { s with buf, ram, lastcode := lc, lastfirst := lf, host } :=
  ⟨hwf, hi.stack_empty, hi.inpos_le, hi.buffer_read, hi.bitpos_le, hi.fault_iff, hi.no_info, hi.idle_flags,
    hi.idle_reader, hi.idle_positions, fun h => session_hidden (hi.session h) buf ram lc lf host hram hlast⟩

/-- The sample states with one host action to come are still legal. -/
theorem inv_withHost {s : State} (hi : Inv s) (rest : List HostAction) : Inv (s.withHost rest) :=
  ⟨inv_hidden hi.toInvBase s.buf s.ram s.lastcode s.lastfirst rest hi.ram_wf (fun _ _ => rfl) (fun _ _ => ⟨rfl, rfl⟩),
    hi.buffer_content⟩

/-- P2 after its `CLR`, where nothing of the buffer is to be used, with another buffer. -/
def otherBuf : State := { p2Clear with buf := Vector.replicate 16 0xFF, host := [.decodeNext] }

theorem base_otherBuf : InvBase otherBuf :=
  inv_hidden inv_p2Clear.toInvBase _ _ _ _ _ inv_p2Clear.ram_wf (fun _ _ => rfl) nofun

theorem witness_StepKeepsTheInvariants :
    (Inv (p2Two.withHost [.decodeNext]) ∧ ∃ t, step (p2Two.withHost [.decodeNext]) = .next t ∧ t.nextfree = 259) ∧
    (InvBase otherBuf ∧ ¬Inv otherBuf ∧ ∃ t, step otherBuf = .next t ∧ t.out = [97, 98, 97, 98, 99]) :=
  ⟨⟨inv_withHost inv_p2Two _, next_of (by decide)⟩, base_otherBuf, fun h => absurd (h.buffer_content 0) (by decide),
    next_of (by decide)⟩

theorem witness_LegalStatesNeverStop :
    Inv (p2Idle.withHost [.present p2]) ∧
    ∀ stream rest, (p2Idle.withHost [.present p2]).host = .present stream :: rest → (p2Idle.withHost [.present p2]).st = .idle :=
  ⟨inv_withHost inv_p2Idle _, fun _ _ _ => rfl⟩

theorem witness_StepKeepsTheRamCanonical :
    Memory.wf (p2Two.withHost [.decodeNext]).ram = true ∧
      ∃ t, step (p2Two.withHost [.decodeNext]) = .next t ∧ t.ram.length = 2 :=
  ⟨by decide, next_of (by decide)⟩

theorem witness_StateTransitionsAreTheListedOnes :
    (Inv (p2Two.withHost [.reset]) ∧ ∃ t, step (p2Two.withHost [.reset]) = .next t ∧ t.st = .idle) ∧
    (Inv (p2Idle.withHost [.openStream]) ∧ ∃ t, step (p2Idle.withHost [.openStream]) = .next t ∧ t.st = .start) ∧
    (Inv (p2Idle.withHost [.present []]) ∧ ∃ t, step (p2Idle.withHost [.present []]) = .next t ∧ t.st = .idle) ∧
    (Inv (p2Idle.withHost [.decodeNext]) ∧ ∃ t, step (p2Idle.withHost [.decodeNext]) = .next t ∧ t.st = .idle) ∧
    (Inv (p2Start.withHost [.decodeNext]) ∧ inSession (p2Start.withHost [.decodeNext]) = true ∧
      (∃ t, step (p2Start.withHost [.decodeNext]) = .next t ∧ t.st = .running) ∧
      ∃ r, nextcode ((p2Start.withHost [.decodeNext]).withHost []) = .next r ∧ r.1 = some 97) :=
  ⟨⟨inv_withHost inv_p2Two _, next_of (by decide)⟩, ⟨inv_withHost inv_p2Idle _, next_of (by decide)⟩,
    ⟨inv_withHost inv_p2Idle _, next_of (by decide)⟩, ⟨inv_withHost inv_p2Idle _, next_of (by decide)⟩,
    inv_withHost inv_p2Start _, rfl, next_of (by decide), next_of (by decide)⟩

/-- P2 before its third code with the code 258 in its place: the code is `NEXTFREE`. -/
def kwkNext : State :=
  { p2Two with
    input := [0x1F, 0x9D, 0x90, 0x61, 0xC4, 0x08, 0x04], bytes := 4, usable := 24, inpos := 7
    buf := #v[0x61, 0xC4, 0x08, 0x04, 0, 0, 0, 0, 0, 0, 0, 0, 0, 0, 0, 0] }

theorem witness_KwkOccursOnlyBelowTheCap :
    Inv kwkNext ∧ inSession kwkNext = true ∧
      ∃ u, nextcode kwkNext = .next (some 258, u) ∧ classify (codeContext u) 258 = .kwk 258 := by
  obtain ⟨⟨f, u⟩, h1, h2⟩ := next_of (r := nextcode kwkNext) (f := fun r => (r.1, codeContext r.2))
    (x := (some 258, ⟨false, false, true, 258⟩)) (by decide)
  obtain ⟨rfl, h3⟩ := Prod.mk.inj h2
  refine ⟨⟨⟨by decide, rfl, by decide, by decide, by decide, by decide, fun _ => rfl, by decide, by decide, nofun,
    fun _ => ?_⟩, by decide⟩, rfl, u, h1, by rw [h3]; decide⟩
  exact ⟨by decide, by decide, by decide, by decide, by decide, by decide, by decide, by decide, by decide, by decide,
    by decide, by decide, by decide, session_p2Two.entries, fun _ _ => .inl (by decide), by decide, by decide, by decide,
    by decide, rfl⟩

theorem witness_EveryDecodeEnds : Inv p2Start ∧ inSession p2Start = true ∧ fetchPos p2Start = 24 :=
  ⟨inv_p2Start, rfl, by decide⟩

theorem witness_DecodeNextLeavesTheHeader :
    p2Two.stk = [] ∧ ∃ t, exec .decodeNext p2Two = .next t ∧ t.st = .running :=
  ⟨rfl, next_of (by decide)⟩

/-- P2 before its third code, with the code 256 in its place. -/
def clearNext : State :=
  { p2Two with
    input := [0x1F, 0x9D, 0x90, 0x61, 0xC4, 0x00, 0x04], bytes := 4, usable := 24, inpos := 7
    buf := #v[0x61, 0xC4, 0x00, 0x04, 0, 0, 0, 0, 0, 0, 0, 0, 0, 0, 0, 0] }

theorem inv_clearNext : Inv clearNext := by
  refine ⟨⟨by decide, rfl, by decide, by decide, by decide, by decide, fun _ => rfl, by decide, by decide,
    nofun, fun _ => ?_⟩, by decide⟩
  exact ⟨by decide, by decide, by decide, by decide, by decide, by decide, by decide, by decide, by decide, by decide,
    by decide, by decide, by decide, session_p2Two.entries, fun _ _ => .inl (by decide), by decide, by decide, by decide,
    by decide, rfl⟩

theorem witness_WidthIsMonotonicBetweenClears :
    (Inv p2One ∧ inSession p2One = true ∧ ∃ t, exec .decodeNext p2One = .next t ∧ t.answer = .emitted 1) ∧
    (Inv clearNext ∧ inSession clearNext = true ∧ ∃ t, exec .decodeNext clearNext = .next t ∧ t.answer = .emitted 0) :=
  ⟨⟨inv_p2One, by decide, next_of (by decide)⟩, inv_clearNext, by decide, next_of (by decide)⟩

theorem witness_OutputGrowsByTheAnswer :
    ((∀ rest, (p2Idle.withHost [.openStream]).host ≠ .reset :: rest) ∧
      ∃ t, step (p2Idle.withHost [.openStream]) = .next t ∧ t.inpos = 3) ∧
    ∃ t, exec .decodeNext p2Two = .next t ∧ t.answer = .emitted 2 :=
  ⟨⟨fun _ => nofun, next_of (by decide)⟩, next_of (by decide)⟩

theorem witness_EachCodeConsumesItsWidth :
    Inv p2Two ∧ inSession p2Two = true ∧ ∃ t, exec .decodeNext p2Two = .next t ∧ t.st ≠ .done := by
  obtain ⟨t, h1, h2⟩ := next_of (r := exec .decodeNext p2Two) (f := State.st) (x := .running) (by decide)
  exact ⟨inv_p2Two, by decide, t, h1, by rw [h2]; decide⟩

/-- `SessionInv` says nothing of the stream. -/
theorem session_withInput {s : State} (h : SessionInv s) (bs : List Byte) : SessionInv { s with input := bs } := by
  refine ⟨h.width_low, h.width_high, h.maxbits_high, h.maxcode_eq, h.first_le, h.nextfree_le, h.maxcode_le,
    h.width_reached, h.bytes_high, h.group_bytes, h.offset_multiple, h.offset_high, h.usable_eq, h.entries,
    h.last_names, ?_, h.clearing, h.clear_running, h.start_width, h.header_valid⟩
  rw [show stringOf { s with input := bs } = stringOf s from funext (stringOf_ext rfl rfl rfl)]
  exact h.last_first

/-- DV3 after `OPEN`: the first code is 256. -/
def dv3 : State := { p2Start with input := [0x1F, 0x9D, 0x90, 0x00, 0x01] }

theorem inv_dv3 : Inv dv3 :=
  ⟨⟨rfl, rfl, by decide, by decide, by decide, by decide, fun _ => rfl, by decide, by decide, nofun,
    fun _ => session_withInput session_p2Start _⟩, by decide⟩

/-- DV9 after its `CLR`: the next code is 257. -/
def dv9 : State :=
  { p2Clear with
    input := [0x1F, 0x9D, 0x90, 0x61, 0xC4, 0x04, 0x04, 0x08, 0, 0, 0, 0, 0x01, 0x01] }

theorem inv_dv9 : Inv dv9 :=
  ⟨⟨by decide, rfl, by decide, by decide, by decide, by decide, fun _ => rfl, by decide, by decide, nofun,
    fun _ => session_withInput session_p2Clear _⟩, by decide⟩

/-- P2 before its third code, with the code 511 in its place: above `NEXTFREE` 258. -/
def beyond : State :=
  { p2Two with
    input := [0x1F, 0x9D, 0x90, 0x61, 0xC4, 0xFC, 0x07], bytes := 4, usable := 24, inpos := 7
    buf := #v[0x61, 0xC4, 0xFC, 0x07, 0, 0, 0, 0, 0, 0, 0, 0, 0, 0, 0, 0] }

theorem inv_beyond : Inv beyond := by
  refine ⟨⟨by decide, rfl, by decide, by decide, by decide, by decide, fun _ => rfl, by decide, by decide,
    nofun, fun _ => ?_⟩, by decide⟩
  exact ⟨by decide, by decide, by decide, by decide, by decide, by decide, by decide, by decide, by decide, by decide,
    by decide, by decide, by decide, session_p2Two.entries, fun _ _ => .inl (by decide), by decide, by decide, by decide,
    by decide, rfl⟩

theorem witness_DecodeErrorIsPrecise :
    (Inv dv3 ∧ inSession dv3 = true ∧ dv3.st = .start ∧ ∃ t, exec .decodeNext dv3 = .next t ∧ t.st = .fault) ∧
    (Inv dv9 ∧ inSession dv9 = true ∧ dv9.pendingClear = true ∧ ∃ t, exec .decodeNext dv9 = .next t ∧ t.st = .fault) ∧
    (Inv beyond ∧ inSession beyond = true ∧ ∃ t, exec .decodeNext beyond = .next t ∧ t.st = .fault) :=
  ⟨⟨inv_dv3, by decide, rfl, next_of (by decide)⟩, ⟨inv_dv9, by decide, rfl, next_of (by decide)⟩, inv_beyond, by decide,
    next_of (by decide)⟩

theorem witness_TableGrowsOncePerCode :
    (Inv p2Start ∧ inSession p2Start = true ∧ ∃ t, exec .decodeNext p2Start = .next t ∧ t.st = .running) ∧
    (Inv p2Clear ∧ inSession p2Clear = true ∧ ∃ t, exec .decodeNext p2Clear = .next t ∧ t.st = .running) ∧
    (Inv p2Two ∧ inSession p2Two = true ∧ ∃ t, exec .decodeNext p2Two = .next t ∧ t.st = .running) ∧
    (Inv clearNext ∧ inSession clearNext = true ∧ ∃ t, exec .decodeNext clearNext = .next t ∧ t.st = .running) :=
  ⟨⟨inv_p2Start, by decide, next_of (by decide)⟩, ⟨inv_p2Clear, by decide, next_of (by decide)⟩,
    ⟨inv_p2Two, by decide, next_of (by decide)⟩, inv_clearNext, by decide, next_of (by decide)⟩

/-- `s` and `s` with other hidden state are both legal, agree on all but it, and `s` takes a step with `out` after it. -/
def HiddenPair (s s' : State) (out : List Byte) : Prop :=
  InvBase s ∧ InvBase s' ∧ SameButHidden s s' ∧ ∃ t, step s = .next t ∧ t.out = out

/-- P2 after `OPEN` with other hidden state: the buffer, a stale entry, the last code. -/
def startHidden : State :=
  { p2Start with buf := Vector.replicate 16 0xFF, ram := [(300, ⟨1, 2⟩)], lastcode := 7, lastfirst := 9, host := [.decodeNext] }

/-- P2 after its `CLR`, with all of `BUF`, the discarded table, `LASTCODE` and `LASTFIRST` other than they were. -/
def clearHidden : State :=
  { p2Clear with buf := Vector.replicate 16 0xFF, ram := [(257, ⟨1, 2⟩)], lastcode := 7, lastfirst := 9, host := [.decodeNext] }

/-- P2 at `BITOFF >= USABLE`, with other bytes in the buffer and an entry above `NEXTFREE`. -/
def lateHidden : State :=
  { p2Late with buf := Vector.replicate 16 0xFF, ram := [(257, ⟨99, 99⟩), (258, ⟨1, 2⟩)], host := [.decodeNext] }

/-- P2 in the middle of a group, with other bytes at index `BYTES` and above and an entry above `NEXTFREE`. -/
def twoHidden : State :=
  { p2Two with
    buf := #v[0x61, 0xC4, 0x04, 0x04, 0x08, 0, 0, 0, 0, 0xFF, 0xFF, 0xFF, 0xFF, 0xFF, 0xFF, 0xFF]
    ram := [(257, ⟨97, 98⟩), (300, ⟨1, 2⟩)], host := [.decodeNext] }

/-- No index is valid in a table that has just been emptied. -/
theorem no_validIndex {s : State} (h : s.nextfree.toNat ≤ firstOf s) (a : Nat) : ¬validIndex a s = true := fun hv =>
  absurd (Nat.lt_of_le_of_lt (validIndex_iff.1 hv).1 (validIndex_iff.1 hv).2) (Nat.not_lt.2 h)

/-- The one valid index of a block mode table whose `NEXTFREE` is 258. -/
theorem one_validIndex {s : State} (h1 : firstOf s = 257) (h2 : s.nextfree.toNat = 258) {a : Nat}
    (h : validIndex a s = true) : a = 257 := by
  have := validIndex_iff.1 h
  omega

theorem witness_HiddenStateIsNotObservable :
    HiddenPair (p2Start.withHost [.decodeNext]) startHidden [97] ∧
    (HiddenPair (p2Clear.withHost [.decodeNext]) clearHidden [97, 98, 97, 98, 99] ∧ ¬Inv clearHidden) ∧
    (HiddenPair (p2Late.withHost [.decodeNext]) lateHidden [97] ∧ ¬Inv lateHidden) ∧
    HiddenPair (p2Two.withHost [.decodeNext]) twoHidden [97, 98, 97, 98] := by
  have hs : ∀ a, validIndex a p2Start = true → ramLookup p2Start.ram a = ramLookup startHidden.ram a :=
    fun a h => absurd h (no_validIndex (by decide) a)
  have hc : ∀ a, validIndex a p2Clear = true → ramLookup p2Clear.ram a = ramLookup clearHidden.ram a :=
    fun a h => absurd h (no_validIndex (by decide) a)
  have hl : ∀ a, validIndex a p2Late = true → ramLookup p2Late.ram a = ramLookup lateHidden.ram a :=
    fun a h => one_validIndex rfl rfl h ▸ rfl
  have ht : ∀ a, validIndex a p2Two = true → ramLookup p2Two.ram a = ramLookup twoHidden.ram a :=
    fun a h => one_validIndex rfl rfl h ▸ rfl
  refine ⟨⟨(inv_withHost inv_p2Start _).toInvBase, ?_, ⟨rfl, nofun, hs, nofun⟩, next_of (by decide)⟩,
    ⟨⟨(inv_withHost inv_p2Clear _).toInvBase, ?_, ⟨rfl, nofun, hc, nofun⟩, next_of (by decide)⟩,
      fun h => absurd (h.buffer_content 0) (by decide)⟩,
    ⟨⟨(inv_withHost inv_p2Late _).toInvBase, ?_, ⟨rfl, by decide, hl, fun _ _ => ⟨rfl, rfl⟩⟩, next_of (by decide)⟩,
      fun h => absurd (h.buffer_content 0) (by decide)⟩,
    ⟨(inv_withHost inv_p2Two _).toInvBase, ?_, ⟨rfl, fun _ => by decide, ht, fun _ _ => ⟨rfl, rfl⟩⟩, next_of (by decide)⟩⟩
  · exact inv_hidden inv_p2Start.toInvBase _ _ _ _ _ (by decide) hs nofun
  · exact inv_hidden inv_p2Clear.toInvBase _ _ _ _ _ (by decide) hc nofun
  · exact inv_hidden inv_p2Late.toInvBase _ _ _ _ _ (by decide) hl fun _ _ => ⟨rfl, rfl⟩
  · exact inv_hidden inv_p2Two.toInvBase _ _ _ _ _ (by decide) ht fun _ _ => ⟨rfl, rfl⟩

theorem witness_DoneAndFaultAreAbsorbing :
    ∃ t, ({ p2Two with st := .fault, host := [.openStream] }.st = .fault) ∧
      step { p2Two with st := .fault, host := [.openStream] } = .next t ∧ t.answer = .refused ∧
      (HostAction.openStream ≠ .reset) := by
  obtain ⟨t, h1, h2⟩ := next_of (r := step { p2Two with st := .fault, host := [.openStream] }) (f := State.answer)
    (x := .refused) (by decide)
  exact ⟨t, rfl, h1, h2, by decide⟩

theorem witness_ItemsOutsideTheirPlaceHaveNoEffect :
    (isHeaderInstr (.header false 0 9) = true ∧ p2One.st ≠ .idle) ∧
    (isHeaderInstr (.header false 0 8) = true ∧ p2Idle.st = .idle ∧ WellFormed (.header false 0 8) = false) ∧
    ((codeOf .clr).isSome = true ∧ inSession p2Idle = false) ∧
    ((codeOf (.first 65)).isSome = true ∧ inSession p2One = true ∧ ¬ClassHolds (codeContext p2One) (.first 65)) :=
  ⟨⟨rfl, by decide⟩, ⟨rfl, rfl, by decide⟩, ⟨rfl, rfl⟩, rfl, rfl, nofun⟩

theorem witness_ExtractNeedsItsPrecondition :
    p2Clear.forceRefill = true ∧ p2Late.usable.toNat ≤ p2Late.bitoff.toNat := by decide

end Sys2Proof.Tests
end

section
/-!
PROOF. The session invariant across a fetch: its half about the reader holds again after every way `NEXTCODE` can end,
and the rest of it reads no reader register, so that a session outside a clear is still legal once a code is fetched.
-/

namespace Sys2Proof.Machine

/-- The part of `SessionInv` that speaks of the reader's registers (I4, R35). -/
structure GroupInv (s : State) : Prop where
  bytes_high : s.bytes.toNat ≤ 16
  group_bytes : s.forceRefill = false → s.bytes.toNat ≤ s.codewidth.toNat
  offset_multiple : s.forceRefill = false → s.bitoff.toNat % s.codewidth.toNat = 0
  offset_high : s.forceRefill = false → s.bitoff.toNat ≤ 8 * s.codewidth.toNat
  usable_eq : s.forceRefill = false → s.usable.toNat = usableBits s.bytes.toNat s.codewidth.toNat

theorem SessionInv.groupInv {s : State} (hs : SessionInv s) : GroupInv s :=
  ⟨hs.bytes_high, hs.group_bytes, hs.offset_multiple, hs.offset_high, hs.usable_eq⟩

theorem SessionInv.width_le_sixteen {s : State} (hs : SessionInv s) : s.codewidth.toNat ≤ 16 :=
  Nat.le_trans hs.width_high hs.maxbits_high

/-- A refill that returns no byte leaves an empty group (R145). -/
theorem groupInv_startGroup_zero (s : State) : GroupInv (startGroup 0 s) where
  bytes_high := Nat.zero_le _
  group_bytes _ := Nat.zero_le _
  offset_multiple _ := Nat.zero_mod _
  offset_high _ := Nat.zero_le _
  usable_eq _ := by simp [usableBits]

/-- A refill loads a group of the current width (R144). -/
theorem groupInv_loadedGroup {s : State} (hl : 9 ≤ s.codewidth.toNat) (hw : s.codewidth.toNat ≤ 16) :
    GroupInv (loadedGroup s) := by
  obtain ⟨hbytes, husable, hoff, -, -, -, hcw, -⟩ := loadedGroup_fields hw
  have hlen : (bytesToRead s.codewidth.toNat s).length ≤ s.codewidth.toNat :=
    bytesToRead_length _ s ▸ Nat.min_le_left _ _
  constructor
  · omega
  · rw [hbytes, hcw]
    exact fun _ => hlen
  · simp [hoff]
  · simp [hoff]
  · rw [hbytes, hcw]
    exact fun _ => husable hl

/-- An extraction moves to the next code of the group, at most to its end (R147, R149). -/
theorem groupInv_advanceOffset {s : State} (hg : GroupInv s) (hl : 9 ≤ s.codewidth.toNat)
    (hw : s.codewidth.toNat ≤ 16) (h : needsRefill s = false) : GroupInv (advanceOffset s) := by
  obtain ⟨hforce, hlt⟩ := needsRefill_false_iff.1 h
  have husable := hg.usable_eq hforce
  have hbytes := hg.group_bytes hforce
  have hend : s.bitoff.toNat + s.codewidth.toNat ≤ 8 * s.codewidth.toNat := by
    simp only [usableBits] at husable
    omega
  have hoff : (advanceOffset s).bitoff.toNat = s.bitoff.toNat + s.codewidth.toNat := by
    simp only [advanceOffset_bitoff, BitVec.toNat_ofNat]
    omega
  refine ⟨hg.bytes_high, hg.group_bytes, fun _ => ?_, fun _ => hoff ▸ hend, hg.usable_eq⟩
  rw [hoff, advanceOffset_codewidth, Nat.add_mod_right]
  exact hg.offset_multiple hforce

/-- However `NEXTCODE` ends in a session, it leaves the reader at a code of a group, or at its end. -/
theorem FetchCase.groupInv {s t : State} {f : Option Code} (hs : SessionInv s) (h : FetchCase s f t) : GroupInv t := by
  have hl := hs.width_low
  have hw := hs.width_le_sixteen
  cases h with
  | inGroup h _ ht => exact ht ▸ groupInv_advanceOffset hs.groupInv hl hw h
  | atEnd _ _ _ ht => exact ht ▸ groupInv_startGroup_zero s
  | oneByte _ _ _ ht => exact ht ▸ groupInv_startGroup_zero _
  | newGroup _ hk _ ht =>
    have hready : needsRefill (loadedGroup s) = false := by
      rw [loadedGroup_needsRefill hl hw]
      exact decide_eq_false (Nat.not_lt.2 hk)
    exact ht ▸ groupInv_advanceOffset (groupInv_loadedGroup hl hw) hl hw hready

/-- `t` is `s` but for the reader's registers, `INPOS`, and the host's side. -/
def SameSession (s t : State) : Prop :=
  t = { s with
    buf := t.buf, bytes := t.bytes, usable := t.usable, bitoff := t.bitoff, forceRefill := t.forceRefill,
    bufbase := t.bufbase, inpos := t.inpos, host := t.host, answer := t.answer }

theorem ReaderStep.sameSession {s t : State} (h : ReaderStep s t) : SameSession s t := by
  unfold SameSession
  rw [h]

theorem sameSession_withHost (s : State) (rest : List HostAction) : SameSession s (s.withHost rest) := rfl

/-- No string depends on what `SameSession` leaves free (R178). -/
theorem SameSession.stringOf_eq {s t : State} (h : SameSession s t) (a : Code) : stringOf t a = stringOf s a := by
  have hram : t.ram = s.ram := by rw [h]
  have hblock : t.block = s.block := by rw [h]
  have hnext : t.nextfree = s.nextfree := by rw [h]
  exact stringOf_ext hram hblock hnext a

/-- The session invariant is its half about the reader and a half that `SameSession` keeps. -/
theorem SessionInv.of_sameSession {s t : State} (hs : SessionInv s) (h : SameSession s t) (hg : GroupInv t)
    (hf : s.pendingClear = true → t.forceRefill = true) : SessionInv t := by
  have hstring := h.stringOf_eq s.lastcode
  rw [h] at hg hstring ⊢
  exact {
    width_low := hs.width_low
    width_high := hs.width_high
    maxbits_high := hs.maxbits_high
    maxcode_eq := hs.maxcode_eq
    first_le := hs.first_le
    nextfree_le := hs.nextfree_le
    maxcode_le := hs.maxcode_le
    width_reached := hs.width_reached
    bytes_high := hg.bytes_high
    group_bytes := hg.group_bytes
    offset_multiple := hg.offset_multiple
    offset_high := hg.offset_high
    usable_eq := hg.usable_eq
    entries := hs.entries
    last_names := hs.last_names
    last_first := fun hst hpc => (congrArg (·.bind List.head?) hstring).trans (hs.last_first hst hpc)
    clearing := fun hpc =>
      have ⟨hblock, _, hwidth, hnext⟩ := hs.clearing hpc
      ⟨hblock, hf hpc, hwidth, hnext⟩
    clear_running := hs.clear_running
    start_width := hs.start_width
    header_valid := hs.header_valid }

theorem SessionInv.withHost {s : State} (hs : SessionInv s) (rest : List HostAction) : SessionInv (s.withHost rest) :=
  have hg : GroupInv (s.withHost rest) :=
    ⟨hs.bytes_high, hs.group_bytes, hs.offset_multiple, hs.offset_high, hs.usable_eq⟩
  have hf (hpc : s.pendingClear = true) : s.forceRefill = true :=
    have ⟨_, hforce, _, _⟩ := hs.clearing hpc
    hforce
  hs.of_sameSession (sameSession_withHost s rest) hg hf

/-- After a fetch the session is legal again, unless it is clearing: then the refill `CLR` asked for is done. -/
theorem SessionInv.of_nextcode {s u : State} {f : Option Code} (hs : SessionInv s) (h : nextcode s = .next (f, u))
    (hpc : s.pendingClear = false) : SessionInv u :=
  hs.of_sameSession (nextcode_readerStep h).sameSession ((nextcode_cases hs h).groupInv hs) (by simp [hpc])

end Sys2Proof.Machine
end

section
/-!
PROOF. What the decoder gives is an item that its meaning accepts: the class of a code meets its condition of R99, the
item of a header is well-formed.
-/

namespace Sys2Proof.Machine

theorem isClear_iff {block : Bool} {c : Code} : isClear block c = true ↔ block = true ∧ c.toNat = 256 := by
  simp [isClear, Config.clear]

/-- R99: the class that the decoder gives a code has its condition. -/
theorem classHolds_classify (x : CodeContext) (c : Code) : ClassHolds x (codeInstr (classify x c)) := by
  unfold classify
  by_cases hstart : x.start = true
  · rw [if_pos hstart]
    split
    next => exact hstart
    next hlit => exact ⟨hstart, isLiteral_false_iff.1 (Bool.eq_false_of_not_eq_true hlit)⟩
  rw [if_neg hstart]
  have hstart : x.start = false := by simpa using hstart
  by_cases hclear : x.pendingClear = true
  · rw [if_pos hclear]
    split
    next => exact ⟨hstart, hclear⟩
    next hlit => exact ⟨hstart, hclear, isLiteral_false_iff.1 (Bool.eq_false_of_not_eq_true hlit)⟩
  rw [if_neg hclear]
  have hclear : x.pendingClear = false := by simpa using hclear
  split
  next hclr => exact ⟨hstart, hclear, (isClear_iff.1 hclr).1⟩
  next hclr =>
    have hclr := mt isClear_iff.2 hclr
    split
    next => exact ⟨hstart, hclear⟩
    next hlit =>
      have hlit := isLiteral_false_iff.1 (Bool.eq_false_of_not_eq_true hlit)
      split
      next hkwk => exact ⟨hstart, hclear, hclr, hlit, hkwk⟩
      next hkwk =>
        split
        next href => exact ⟨hstart, hclear, href⟩
        next href =>
          have hfirst : firstIndex x.block ≤ c.toNat := by
            cases hb : x.block with
            | false => exact hlit
            | true => exact Nat.lt_of_le_of_ne hlit fun h => hclr ⟨hb, h.symm⟩
          exact ⟨hstart, hclear, hclr, hlit, by omega⟩

/-- R127: the item that the header decoder gives is in the ranges of its row. -/
theorem wellFormed_decodeHeader (bs : List Byte) : WellFormed (headerInstr (decodeHeader bs)) = true := by
  unfold decodeHeader
  split
  next m0 m1 c rest =>
    split
    next hmagic => exact hmagic
    next =>
      split
      next hlarge => exact decide_eq_true hlarge
      next hlarge =>
        split
        next hsmall => exact decide_eq_true hsmall
        next hsmall =>
          simp only [headerInstr, WellFormed, Bool.and_eq_true, decide_eq_true_eq]
          exact ⟨Nat.not_lt.1 hsmall, Nat.not_lt.1 hlarge⟩
  next hshort =>
    match bs, hshort with
    | [], _ => rfl
    | [_], _ => rfl
    | [_, _], _ => rfl
    | m0 :: m1 :: c :: rest, h => exact absurd rfl (h m0 m1 c rest)

end Sys2Proof.Machine
end

section
/-!
PROOF. No stop of the model's own in a legal state: the common tail, each class of code, the two commands, the step.
-/

namespace Sys2Proof.Machine

/-- A header item whose fields fit its row answers in every state. -/
theorem headerStep_answers {fits : Bool} (h : fits = true) (s t : State) : ∃ u, headerStep fits s t = .next u := by
  by_cases hst : s.st = .idle
  · exact ⟨t, headerStep_next_iff.2 (.inl ⟨hst, h, rfl⟩)⟩
  · exact ⟨refuseCommand s, headerStep_next_iff.2 (.inr ⟨hst, rfl⟩)⟩

/-- A code item of a session answers when it is the class of its code and its own effect answers. -/
theorem codeStep_answers {isClass : Bool} {s : State} {r : Res State} (hin : inSession s = true)
    (hc : isClass = true) (hr : ∃ t, r = .next t) : ∃ t, codeStep isClass s r = .next t :=
  hr.imp fun _ ht => codeStep_next_iff.2 (.inl ⟨hin, hc, ht⟩)

/-- `STRING` of a code that names a string, then the common tail on any bytes: no stop (R176, R180). -/
theorem stringTail_answers {s : State} (hs : SessionInv s) (hstk : s.stk = []) {a : Code}
    (ha : namesString s a.toNat) (c : Code) (g : List Byte → List Byte) :
    ∃ t, (bindRes (stringStack a s) fun (bs, s') => commonTail c bs.1 (g bs.2) s') = .next t := by
  obtain ⟨b, rest, hstring, -, -⟩ := stringOf_of_session hs ha
  obtain ⟨t, htail, -⟩ := commonTail_effect hs c b (g rest)
  exact ⟨t, bindRes_eq_next_iff.2 ⟨((b, rest), s), (stringStack_iff hstk).2 ⟨hstring, rfl⟩, htail⟩⟩

theorem running_of_not_start {s : State} (hin : inSession s = true) (h : (codeContext s).start = false) :
    s.st = .running := by
  have hnot : s.st ≠ .start := by simpa [codeContext] using h
  simpa [inSession, hnot] using hin

/-- A code that is the class of its condition answers in a session. A fetch keeps `SessionInv` outside a clear only, and
only the items outside a clear use the table. -/
theorem runCode_answers {u : State} (hs : u.pendingClear = false → SessionInv u) (hstk : u.stk = [])
    (hin : inSession u = true) {i : CodeItem} (hi : ClassHolds (codeContext u) (codeInstr i)) :
    ∃ t, runCode i u = .next t := by
  have hplain (hst : (codeContext u).start = false) (hpc : u.pendingClear = false) : plainRunning u = true := by
    simp [plainRunning, running_of_not_start hin hst, hpc]
  cases i with
  | first b => exact codeStep_answers hin hi ⟨_, rfl⟩
  | firstInvalid c =>
    obtain ⟨hst, hc⟩ := hi
    have hst : (u.st == .start) = true := hst
    exact codeStep_answers hin (by rw [hst, isLiteral_false_iff.2 hc]; rfl) ⟨_, rfl⟩
  | postclr b =>
    obtain ⟨hst, hpc⟩ := hi
    have hpc : u.pendingClear = true := hpc
    exact codeStep_answers hin (by rw [running_of_not_start hin hst, hpc]; rfl) ⟨_, rfl⟩
  | postclrInvalid c =>
    obtain ⟨hst, hpc, hc⟩ := hi
    have hpc : u.pendingClear = true := hpc
    exact codeStep_answers hin (by rw [running_of_not_start hin hst, hpc, isLiteral_false_iff.2 hc]; rfl) ⟨_, rfl⟩
  | clr =>
    obtain ⟨hst, hpc, hblock⟩ := hi
    have hblock : u.block = true := hblock
    exact codeStep_answers hin (by rw [hplain hst hpc, hblock]; rfl) ⟨_, rfl⟩
  | lit b =>
    obtain ⟨hst, hpc⟩ := hi
    exact codeStep_answers hin (hplain hst hpc) ((commonTail_effect (hs hpc) _ b []).imp fun _ h => h.1)
  | kwk c =>
    obtain ⟨hst, hpc, hclr, hc, hnext⟩ := hi
    have hclr : isClear u.block c = false := Bool.eq_false_of_not_eq_true (mt isClear_iff.1 hclr)
    have hlast := (hs hpc).last_names (running_of_not_start hin hst) hpc
    refine codeStep_answers hin ?_ (stringTail_answers (hs hpc) hstk hlast c (· ++ [u.lastfirst]))
    rw [hplain hst hpc, isLiteral_false_iff.2 hc, hclr]
    exact decide_eq_true hnext
  | ref c =>
    obtain ⟨hst, hpc, hvalid⟩ := hi
    refine codeStep_answers hin ?_ (stringTail_answers (hs hpc) hstk (.inr hvalid) c id)
    rw [hplain hst hpc]
    exact validIndex_iff.2 hvalid
  | outOfRange c =>
    obtain ⟨hst, hpc, hclr, hc, hnext⟩ := hi
    have hclr : isClear u.block c = false := Bool.eq_false_of_not_eq_true (mt isClear_iff.1 hclr)
    refine codeStep_answers hin ?_ ⟨_, rfl⟩
    rw [hplain hst hpc, isLiteral_false_iff.2 hc, hclr]
    exact decide_eq_true hnext

/-- What `NEXTCODE` fetched in a session answers: a code by its class, or the end of the stream. -/
theorem runFetched_answers {s u : State} {f : Option Code} (hs : SessionInv s) (hstk : s.stk = [])
    (hin : inSession s = true) (h : nextcode s = .next (f, u)) : ∃ t, runFetched (f, u) = .next t := by
  have hread := nextcode_readerStep h
  have hin : inSession u = true := hread ▸ hin
  have hsession (hpc : u.pendingClear = false) : SessionInv u :=
    hs.of_nextcode h ((congrArg State.pendingClear hread).symm.trans hpc)
  cases f with
  | none => exact ⟨_, execEos_session hin⟩
  | some c => exact runCode_answers hsession ((congrArg State.stk hread).trans hstk) hin (classHolds_classify _ c)

theorem execDecodeNext_answers {s : State} (hstk : s.stk = []) (hs : inSession s = true → SessionInv s) :
    ∃ t, execDecodeNext s = .next t := by
  unfold execDecodeNext
  split
  next hin =>
    obtain ⟨f, u, hfetch, -⟩ := nextcode_session (hs hin)
    obtain ⟨t, ht⟩ := runFetched_answers (hs hin) hstk hin hfetch
    exact ⟨t, bindRes_eq_next_iff.2 ⟨(f, u), hfetch, ht⟩⟩
  next => exact ⟨_, rfl⟩

theorem runHeader_answers {h : HeaderItem} (hw : WellFormed (headerInstr h) = true) (s : State) :
    ∃ t, runHeader h s = .next t := by
  cases h <;> exact headerStep_answers hw s _

/-- `OPEN` answers in every state, legal or not (R121, R129). -/
theorem execOpenCommand_answers (s : State) : ∃ t, execOpenCommand s = .next t := by
  unfold execOpenCommand
  split
  next => exact runHeader_answers (wellFormed_decodeHeader _) _
  next => exact ⟨_, rfl⟩

theorem presentStream_idle {s : State} (h : s.st = .idle) (stream : List Byte) :
    presentStream stream s = .next { s with input := stream } := if_pos h

/-- Settles O47, by the action the host takes next. `RESET` and `OPEN` answer in every state; a new stream is taken in
`Idle`, where the premise puts it; `DECODE_NEXT` is the case that needs the invariants. -/
theorem legalStatesNeverStop : Obligations.LegalStatesNeverStop := by
  intro s hinv hpresent
  unfold step
  split
  next => exact ⟨s, rfl⟩
  next rest _ => exact ⟨resetBlock (s.withHost rest), rfl⟩
  next stream rest hhost => exact ⟨_, presentStream_idle (s := s.withHost rest) (hpresent stream rest hhost) stream⟩
  next rest _ => exact execOpenCommand_answers (s.withHost rest)
  next rest _ => exact execDecodeNext_answers hinv.stack_empty fun hin => (hinv.session hin).withHost rest

end Sys2Proof.Machine
end

section
/-!
PROOF. What one step can do, said once for every state: a step is one of five (`StepCase`), an accepted header item has
its one effect (`headerEffect`), and a code item changes only what `CodeFrame` lets it change.
-/

namespace Sys2Proof.Machine

/-! ## The step -/

/-- The five ways in which a step answers, by the host's next action. -/
inductive StepCase (s t : State) : Prop where
  | stay (hhost : s.host = []) (ht : t = s)
  | reset (rest : List HostAction) (hhost : s.host = .reset :: rest) (ht : t = resetBlock (s.withHost rest))
  | present (stream : List Byte) (rest : List HostAction) (hidle : s.st = .idle)
      (ht : t = { s.withHost rest with input := stream })
  | openStream (rest : List HostAction) (ht : execOpenCommand (s.withHost rest) = .next t)
  | decodeNext (rest : List HostAction) (ht : execDecodeNext (s.withHost rest) = .next t)

theorem presentStream_next_iff {stream : List Byte} {s t : State} :
    presentStream stream s = .next t ↔ s.st = .idle ∧ t = { s with input := stream } := by
  unfold presentStream
  split
  next hidle => simp [hidle, eq_comm]
  next hidle => simp [hidle]

theorem step_cases {s t : State} (h : step s = .next t) : StepCase s t := by
  unfold step at h
  split at h
  next hhost => exact .stay hhost (by simpa using h.symm)
  next rest hhost => exact .reset rest hhost (Host.Outcome.next.inj h).symm
  next stream rest _ =>
    obtain ⟨hidle, ht⟩ := presentStream_next_iff.1 h
    exact .present stream rest hidle ht
  next rest _ => exact .openStream rest h
  next rest _ => exact .decodeNext rest h

/-! ## `OPEN` -/

/-- What a header item does in `Idle` when its fields fit its row (R122, R124, R125, R126). -/
def headerEffect : HeaderItem → State → State
  | .accepted block _ maxbits, s => answerWith .ok (startSession block maxbits s)
  | .badMagic m0 m1 _, s => raise .badMagic (magicInfo m0 m1) s
  | .widthTooLarge block spare maxbits, s => raise .widthTooLarge (controlInfo block spare maxbits) s
  | .widthTooSmall block spare maxbits, s => raise .widthTooSmall (controlInfo block spare maxbits) s
  | .short present, s => raise .shortHeader (shortInfo present) s

theorem runHeader_eq (h : HeaderItem) (s : State) :
    runHeader h s = headerStep (WellFormed (headerInstr h)) s (headerEffect h s) := by
  cases h <;> rfl

/-- `OPEN` is refused outside `Idle`, else it has the effect of the header item at `INPOS`. -/
theorem execOpenCommand_next_iff {s t : State} :
    execOpenCommand s = .next t ↔
      (s.st ≠ .idle ∧ t = refuseCommand s) ∨
      (s.st = .idle ∧ t = headerEffect (decodeHeader (bytesToRead 3 s)) (consumeBytes 3 s)) := by
  unfold execOpenCommand
  split
  next hidle => simp [runHeader_eq, headerStep_next_iff, wellFormed_decodeHeader, hidle]
  next hidle => simp [hidle, eq_comm]

/-- Only three bytes can make an accepted header (R125). -/
theorem length_of_decodeHeader_accepted {bs : List Byte} {block : Bool} {spare : BitVec 2} {maxbits : BitVec 5}
    (h : decodeHeader bs = .accepted block spare maxbits) : 3 ≤ bs.length := by
  match bs, h with
  | [], h => cases h
  | [_], h => cases h
  | [_, _], h => cases h
  | _ :: _ :: _ :: _, _ => simp

/-- The width of an accepted header is legal (R124). -/
theorem maxbits_of_decodeHeader_accepted {bs : List Byte} {block : Bool} {spare : BitVec 2} {maxbits : BitVec 5}
    (h : decodeHeader bs = .accepted block spare maxbits) : 9 ≤ maxbits.toNat ∧ maxbits.toNat ≤ 16 := by
  have hw := wellFormed_decodeHeader bs
  rw [h] at hw
  simpa [headerInstr, WellFormed] using hw

theorem headerEffect_ram (h : HeaderItem) (s : State) : (headerEffect h s).ram = s.ram := by cases h <;> rfl
theorem headerEffect_inpos (h : HeaderItem) (s : State) : (headerEffect h s).inpos = s.inpos := by cases h <;> rfl
theorem headerEffect_out (h : HeaderItem) (s : State) : (headerEffect h s).out = s.out := by cases h <;> rfl

/-! ## `DECODE_NEXT` -/

/-- `DECODE_NEXT` is refused outside a session, else it runs what `NEXTCODE` fetched. -/
theorem execDecodeNext_next_iff {s t : State} :
    execDecodeNext s = .next t ↔
      (inSession s = false ∧ t = refuseCommand s) ∨
      (inSession s = true ∧ ∃ f u, nextcode s = .next (f, u) ∧ runFetched (f, u) = .next t) := by
  unfold execDecodeNext
  cases inSession s
  · simp [eq_comm]
  · simp [bindRes_eq_next_iff]

/-- What running a fetched code, or the end of the stream, does in every state of a session: it leaves the header, the
reader's registers, the positions, the stream and the host's side; the error registers change in a raise only; `OUT` grows
by the bytes told. -/
structure CodeFrame (s t : State) : Prop where
  frame : t = { s with
    st := t.st, codewidth := t.codewidth, maxcode := t.maxcode, pendingClear := t.pendingClear,
    nextfree := t.nextfree, lastcode := t.lastcode, lastfirst := t.lastfirst, forceRefill := t.forceRefill,
    err := t.err, errinfo := t.errinfo, ram := t.ram, stk := t.stk, out := t.out, answer := t.answer }
  not_idle : t.st ≠ .idle
  raised : t.st = .fault → t.err ≠ .none
  not_raised : t.st ≠ .fault → t.err = s.err ∧ t.errinfo = s.errinfo
  stack : s.stk = [] → t.stk = []
  ram : Memory.wf s.ram = true → Memory.wf t.ram = true
  out : ∃ bs, t.out = s.out ++ bs ∧ bs.length = emittedBytes t.answer

theorem codeFrame_raise {cause : Cause} (h : cause ≠ .none) (c : Code) (s : State) : CodeFrame s (raise cause c s) where
  frame := rfl
  not_idle := nofun
  raised _ := h
  not_raised hst := absurd rfl hst
  stack := id
  ram := id
  out := ⟨[], by simp, rfl⟩

/-- An append writes `NEXTFREE` and one location that exists, or nothing. -/
theorem dtAppend_frame {p : Code} {b : Byte} {s t : State} {a : Option Nat} (h : dtAppend p b s = .next (a, t)) :
    ∃ ram nextfree, t = { s with ram, nextfree } ∧ (Memory.wf s.ram = true → Memory.wf ram = true) := by
  obtain ⟨-, haddr, -, rfl⟩ | ⟨-, -, rfl⟩ := dtAppend_next h
  · exact ⟨_, _, rfl, fun hwf => ramInsert_wf hwf _ _ haddr⟩
  · exact ⟨_, _, rfl, id⟩

theorem bumpWidth_frame (s : State) :
    ∃ codewidth maxcode forceRefill, bumpWidth s = { s with codewidth, maxcode, forceRefill } := by
  obtain ⟨-, h⟩ | ⟨-, h⟩ := bumpWidth_cases s <;> exact ⟨_, _, _, h⟩

theorem commonTail_frame {c : Code} {b : Byte} {rest : List Byte} {s t : State} (hst : s.st = .running)
    (h : commonTail c b rest s = .next t) : CodeFrame s t := by
  obtain ⟨a, u, happend, rfl⟩ := commonTail_next h
  obtain ⟨ram, nextfree, rfl, hwf⟩ := dtAppend_frame happend
  obtain ⟨codewidth, maxcode, forceRefill, hbump⟩ := bumpWidth_frame { emitBytes (b :: rest) s with ram, nextfree }
  rw [hbump]
  exact {
    frame := rfl
    not_idle := by simp [hst]
    raised := by simp [hst]
    not_raised := fun _ => ⟨rfl, rfl⟩
    stack := id
    ram := hwf
    out := ⟨b :: rest, rfl, rfl⟩ }

/-- `STRING` and then the common tail: between them the stack is emptied, and nothing else changes. -/
theorem stringTail_frame {a c : Code} {g : List Byte → List Byte} {s t : State} (hst : s.st = .running)
    (h : (bindRes (stringStack a s) fun (bs, s') => commonTail c bs.1 (g bs.2) s') = .next t) : CodeFrame s t := by
  obtain ⟨⟨bs, u⟩, hstring, htail⟩ := bindRes_eq_next_iff.1 h
  obtain rfl := stringStack_next hstring
  have hf := commonTail_frame (s := { s with stk := [] }) hst htail
  exact { hf with stack := fun _ => hf.stack rfl }

theorem plainRunning_iff {s : State} : plainRunning s = true ↔ s.st = .running ∧ s.pendingClear = false := by
  simp [plainRunning]

theorem codeStep_session_iff {isClass : Bool} {s t : State} {r : Res State} (hin : inSession s = true) :
    codeStep isClass s r = .next t ↔ isClass = true ∧ r = .next t := by
  simp [codeStep_next_iff, hin]

theorem runCode_frame {i : CodeItem} {s t : State} (hin : inSession s = true) (h : runCode i s = .next t) :
    CodeFrame s t := by
  cases i with
  | first b =>
    obtain ⟨-, h⟩ := (codeStep_session_iff hin).1 h
    obtain rfl := Host.Outcome.next.inj h
    exact ⟨rfl, nofun, nofun, fun _ => ⟨rfl, rfl⟩, id, id, [b], rfl, rfl⟩
  | firstInvalid c =>
    obtain ⟨-, h⟩ := (codeStep_session_iff hin).1 h
    obtain rfl := Host.Outcome.next.inj h
    exact codeFrame_raise (by decide) c s
  | postclr b =>
    obtain ⟨hc, h⟩ := (codeStep_session_iff hin).1 h
    obtain rfl := Host.Outcome.next.inj h
    have hst : s.st = .running := by
      obtain ⟨hst, -⟩ := Bool.and_eq_true_iff.1 hc
      simpa using hst
    exact ⟨rfl, by simp [hst], by simp [hst], fun _ => ⟨rfl, rfl⟩, id, id, [b], rfl, rfl⟩
  | postclrInvalid c =>
    obtain ⟨-, h⟩ := (codeStep_session_iff hin).1 h
    obtain rfl := Host.Outcome.next.inj h
    exact codeFrame_raise (by decide) c s
  | clr =>
    obtain ⟨hc, h⟩ := (codeStep_session_iff hin).1 h
    obtain rfl := Host.Outcome.next.inj h
    obtain ⟨hplain, -⟩ := Bool.and_eq_true_iff.1 hc
    obtain ⟨hst, -⟩ := plainRunning_iff.1 hplain
    exact ⟨rfl, by simp [hst], by simp [hst], fun _ => ⟨rfl, rfl⟩, id, id, [], by simp, rfl⟩
  | lit b =>
    obtain ⟨hc, h⟩ := (codeStep_session_iff hin).1 h
    obtain ⟨hst, -⟩ := plainRunning_iff.1 hc
    exact commonTail_frame hst h
  | kwk c =>
    obtain ⟨hc, h⟩ := (codeStep_session_iff hin).1 h
    simp only [Bool.and_eq_true] at hc
    obtain ⟨⟨⟨hplain, -⟩, -⟩, -⟩ := hc
    obtain ⟨hst, -⟩ := plainRunning_iff.1 hplain
    exact stringTail_frame hst (g := (· ++ [s.lastfirst])) h
  | ref c =>
    obtain ⟨hc, h⟩ := (codeStep_session_iff hin).1 h
    obtain ⟨hplain, -⟩ := Bool.and_eq_true_iff.1 hc
    obtain ⟨hst, -⟩ := plainRunning_iff.1 hplain
    exact stringTail_frame hst (g := id) h
  | outOfRange c =>
    obtain ⟨-, h⟩ := (codeStep_session_iff hin).1 h
    obtain rfl := Host.Outcome.next.inj h
    exact codeFrame_raise (by decide) c s

theorem runFetched_frame {f : Option Code} {s t : State} (hin : inSession s = true)
    (h : runFetched (f, s) = .next t) : CodeFrame s t := by
  cases f with
  | none =>
    obtain rfl := Host.Outcome.next.inj ((execEos_session hin).symm.trans h)
    exact ⟨rfl, nofun, nofun, fun _ => ⟨rfl, rfl⟩, id, id, [], by simp, rfl⟩
  | some c => exact runCode_frame hin h

theorem ReaderStep.inSession_eq {s u : State} (h : ReaderStep s u) : inSession u = inSession s := by rw [h]; rfl

/-- A `DECODE_NEXT` of a session: a fetch that touches the reader only, then a code or the end of the stream. -/
theorem execDecodeNext_cases {s t : State} (h : execDecodeNext s = .next t) :
    (inSession s = false ∧ t = refuseCommand s) ∨
    (inSession s = true ∧ ∃ f u, nextcode s = .next (f, u) ∧ runFetched (f, u) = .next t ∧ ReaderStep s u ∧
      inSession u = true ∧ CodeFrame u t) := by
  obtain h | ⟨hin, f, u, hfetch, hrun⟩ := execDecodeNext_next_iff.1 h
  · exact .inl h
  · have hread := nextcode_readerStep hfetch
    have hinu := hread.inSession_eq.trans hin
    exact .inr ⟨hin, f, u, hfetch, hrun, hread, hinu, runFetched_frame hinu hrun⟩

end Sys2Proof.Machine
end

section
/-!
PROOF. What holds of a step in every state: the canonical RAM is kept, the output and the position only grow, a
`DECODE_NEXT` leaves the header.
-/

namespace Sys2Proof.Machine

/-- Settles O48, by what the step is: no action but `RESET` and a code's own effect touches the RAM. -/
theorem stepKeepsTheRamCanonical : Obligations.StepKeepsTheRamCanonical := by
  intro s t hwf hstep
  cases step_cases hstep with
  | stay _ ht => exact ht ▸ hwf
  | reset rest _ ht => exact ht ▸ resetBlock_wf _
  | present stream rest _ ht => exact ht ▸ hwf
  | openStream rest ht =>
    obtain ⟨-, rfl⟩ | ⟨-, rfl⟩ := execOpenCommand_next_iff.1 ht
    · exact hwf
    · rw [headerEffect_ram]
      exact hwf
  | decodeNext rest ht =>
    obtain ⟨-, rfl⟩ | ⟨-, f, u, -, -, hread, -, hframe⟩ := execDecodeNext_cases ht
    · exact hwf
    · have hram : u.ram = s.ram := by rw [hread]; rfl
      exact hframe.ram (hram ▸ hwf)

/-- Settles O50, from the frames of the fetch and of the code. -/
theorem decodeNextLeavesTheHeader : Obligations.DecodeNextLeavesTheHeader := by
  intro s t hstk hexec
  obtain ⟨-, rfl⟩ | ⟨hin, f, u, -, -, hread, -, hframe⟩ := execDecodeNext_cases hexec
  · exact ⟨rfl, rfl, rfl, rfl, hstk, rfl, rfl, fun _ => ⟨rfl, rfl⟩⟩
  · have hstk : t.stk = [] := hframe.stack (by rw [hread]; exact hstk)
    have herr (h : ¬(inSession s = true ∧ t.st = .fault)) : t.err = s.err ∧ t.errinfo = s.errinfo := by
      have herr := hframe.not_raised fun hst => h ⟨hin, hst⟩
      rw [hread] at herr
      exact herr
    rw [hread] at hframe
    rw [hframe.frame] at hstk herr ⊢
    exact ⟨rfl, rfl, rfl, rfl, hstk, rfl, rfl, herr⟩

/-- A fetch never goes back in the stream (R22). -/
theorem nextcodeLoop_inpos_le {n : Nat} {s t : State} {f : Option Code} (h : nextcodeLoop n s = .next (f, t)) :
    s.inpos ≤ t.inpos := by
  induction n generalizing s with
  | zero => cases h
  | succ n ih =>
    unfold nextcodeLoop at h
    split at h
    next =>
      obtain ⟨⟨more, u⟩, hrefill, h⟩ := bindRes_eq_next_iff.1 h
      obtain ⟨rfl, -, rfl⟩ | ⟨rfl, -, -, rfl⟩ := refill_next hrefill
      · obtain ⟨-, rfl⟩ := Prod.mk.inj (Host.Outcome.next.inj h)
        exact Nat.le_refl _
      · exact Nat.le_trans (Nat.le_add_right _ _) (ih h)
    next =>
      obtain ⟨⟨c, u⟩, hextract, h⟩ := bindRes_eq_next_iff.1 h
      obtain ⟨-, -, -, -, rfl⟩ := extract_next_iff.1 hextract
      obtain ⟨-, rfl⟩ := Prod.mk.inj (Host.Outcome.next.inj h)
      exact Nat.le_refl _

/-- `DECODE_NEXT` goes on in the stream and emits what it tells (R22, R66, R190). -/
theorem execDecodeNext_extends {s t : State} (h : execDecodeNext s = .next t) :
    s.inpos ≤ t.inpos ∧ ∃ bs, t.out = s.out ++ bs ∧ bs.length = emittedBytes t.answer := by
  obtain ⟨-, rfl⟩ | ⟨-, f, u, hfetch, -, hread, -, hframe⟩ := execDecodeNext_cases h
  · exact ⟨Nat.le_refl _, [], by simp, rfl⟩
  · have hinpos : t.inpos = u.inpos := by rw [hframe.frame]
    have hout : u.out = s.out := by rw [hread]
    exact ⟨hinpos ▸ nextcodeLoop_inpos_le hfetch, hout ▸ hframe.out⟩

/-- Settles O52, by what the step is; `RESET` is the one that its first half leaves out. -/
theorem outputGrowsByTheAnswer : Obligations.OutputGrowsByTheAnswer := by
  refine ⟨fun s t hreset hstep => ?_, fun s t => execDecodeNext_extends⟩
  cases step_cases hstep with
  | stay _ ht => exact ht ▸ ⟨Nat.le_refl _, [], by simp⟩
  | reset rest hhost => exact absurd hhost (hreset rest)
  | present stream rest _ ht => exact ht ▸ ⟨Nat.le_refl _, [], by simp⟩
  | openStream rest ht =>
    obtain ⟨-, rfl⟩ | ⟨-, rfl⟩ := execOpenCommand_next_iff.1 ht
    · exact ⟨Nat.le_refl _, [], by simp⟩
    · rw [headerEffect_inpos, headerEffect_out]
      exact ⟨Nat.le_add_right _ _, [], by simp⟩
  | decodeNext rest ht =>
    obtain ⟨hinpos, bs, hout, -⟩ := execDecodeNext_extends ht
    exact ⟨hinpos, bs, hout⟩

end Sys2Proof.Machine
end

section
/-!
PROOF. The reader in a session: where a fetch leaves `BITPOS`, `INPOS` and the buffer, and which bits of the stream it
returns.
-/

namespace Sys2Proof.Machine

/-! ## Bits of a window of the stream -/

/-- Bytes that stand at `base` of another sequence have their bits there. -/
theorem bitAt_window {bs cs : List Byte} {base k q : Nat} (h : ∀ i < k, bs[i]? = cs[base + i]?) (hq : q < 8 * k) :
    bitAt bs q = bitAt cs (8 * base + q) := by
  have hdiv : (8 * base + q) / 8 = base + q / 8 := by omega
  have hmod : (8 * base + q) % 8 = q % 8 := by omega
  unfold bitAt
  rw [hdiv, hmod, h _ (by omega)]

/-- A code inside such bytes is the code of the other sequence. -/
theorem codeAt_window {bs cs : List Byte} {base k q w : Nat} (h : ∀ i < k, bs[i]? = cs[base + i]?)
    (hq : q + w ≤ 8 * k) : codeAt bs q w = codeAt cs (8 * base + q) w := by
  induction w with
  | zero => rfl
  | succ w ih => rw [codeAt, codeAt, ih (by omega), bitAt_window h (by omega), Nat.add_assoc]

/-! ## The positions -/

/-- R22, R23, R24: `INPOS` is in the stream, the buffer behind it, `BITPOS` too. -/
structure PositionInv (s : State) : Prop where
  inpos_le : s.inpos ≤ s.input.length
  buffer_read : s.bufbase + s.bytes.toNat ≤ s.inpos
  bitpos_le : bitpos s ≤ 8 * s.inpos

theorem InvBase.positionInv {s : State} (hi : InvBase s) : PositionInv s :=
  ⟨hi.inpos_le, hi.buffer_read, hi.bitpos_le⟩

/-- The bytes in the buffer are those of the stream at `BUFBASE` (R23, R73). -/
def BufferHolds (s : State) : Prop := ∀ i < s.bytes.toNat, s.buf.toList[i]? = s.input[s.bufbase + i]?

theorem bitsFetched_iff {s : State} (h : s.bytes.toNat ≤ 16) :
    bitsFetched s = true ↔ s.bitoff.toNat + s.codewidth.toNat ≤ 8 * s.bytes.toNat := by
  rw [bitsFetched, decide_eq_true_iff, Nat.min_eq_left h]

theorem positionInv_startGroup_zero {s : State} (h : s.inpos ≤ s.input.length) : PositionInv (startGroup 0 s) :=
  ⟨h, Nat.le_refl _, Nat.le_refl _⟩

theorem positionInv_loadedGroup {s : State} (hw : s.codewidth.toNat ≤ 16) (h : s.inpos ≤ s.input.length) :
    PositionInv (loadedGroup s) := by
  obtain ⟨hbytes, -, hoff, -, hinpos, hbase, -, hinput⟩ := loadedGroup_fields hw
  have hlen := bytesToRead_length s.codewidth.toNat s
  constructor
  · rw [hinpos, hinput]
    omega
  · rw [hbase, hbytes, hinpos]
  · rw [bitpos, hbase, hoff, hinpos]
    exact Nat.mul_le_mul_left 8 (Nat.le_add_right _ _)

theorem bufferHolds_startGroup_zero (s : State) : BufferHolds (startGroup 0 s) :=
  fun i hi => absurd hi (Nat.not_lt_zero i)

theorem bufferHolds_loadedGroup {s : State} (hw : s.codewidth.toNat ≤ 16) : BufferHolds (loadedGroup s) := by
  obtain ⟨hbytes, -⟩ := loadedGroup_fields hw
  have hlen := bytesToRead_length s.codewidth.toNat s
  intro i hi
  rw [hbytes] at hi
  exact (loadBuf_new _ _ (by omega) hi).trans (bytesToRead_get hi)

theorem bufferHolds_advanceOffset {s : State} (h : BufferHolds s) : BufferHolds (advanceOffset s) := h

theorem bitpos_advanceOffset {s : State} (hb : s.bytes.toNat ≤ 16) (h : bitsFetched s = true) :
    bitpos (advanceOffset s) = bitpos s + s.codewidth.toNat := by
  have hend := (bitsFetched_iff hb).1 h
  simp only [bitpos, advanceOffset_bufbase, advanceOffset_bitoff, BitVec.toNat_ofNat]
  omega

theorem positionInv_advanceOffset {s : State} (hp : PositionInv s) (hb : s.bytes.toNat ≤ 16)
    (h : bitsFetched s = true) : PositionInv (advanceOffset s) := by
  obtain ⟨hinpos, hread, -⟩ := hp
  refine ⟨hinpos, hread, ?_⟩
  rw [bitpos_advanceOffset hb h, bitpos, advanceOffset_inpos]
  have hend := (bitsFetched_iff hb).1 h
  omega

/-- The code at `BITOFF` is the code of the stream at `BITPOS` (R67, R147). -/
theorem bufferCode_eq {s : State} (hc : BufferHolds s) (hb : s.bytes.toNat ≤ 16) (hw : s.codewidth.toNat ≤ 16)
    (h : bitsFetched s = true) : (bufferCode s).toNat = codeAt s.input (bitpos s) s.codewidth.toNat := by
  have hlt := codeAt_lt s.input (bitpos s) s.codewidth.toNat
  have hpow : 2 ^ s.codewidth.toNat ≤ 2 ^ 16 := Nat.pow_le_pow_right (by omega) hw
  rw [bufferCode, codeAt_window hc ((bitsFetched_iff hb).1 h), BitVec.toNat_ofNat, ← bitpos,
    Nat.mod_eq_of_lt (Nat.lt_of_lt_of_le hlt hpow)]

/-! ## A fetch -/

/-- A group of two bytes or more has a whole code in front (R146, R150). -/
theorem bitsFetched_loadedGroup {s : State} (hl : 9 ≤ s.codewidth.toNat) (hw : s.codewidth.toNat ≤ 16)
    (hk : 2 ≤ (bytesToRead s.codewidth.toNat s).length) : bitsFetched (loadedGroup s) = true :=
  have ⟨_, _, hfetched, _⟩ := extract_next_iff.1 (extract_loadedGroup hl hw hk)
  hfetched

theorem FetchCase.positionInv {s u : State} {f : Option Code} (hs : SessionInv s) (hp : PositionInv s)
    (h : FetchCase s f u) : PositionInv u := by
  have hw := hs.width_le_sixteen
  have hload := positionInv_loadedGroup hw hp.inpos_le
  cases h with
  | inGroup h _ hu => exact hu ▸ positionInv_advanceOffset hp hs.bytes_high (bitsFetched_of_session hs h)
  | atEnd _ _ _ hu => exact hu ▸ positionInv_startGroup_zero hp.inpos_le
  | oneByte _ _ _ hu => exact hu ▸ positionInv_startGroup_zero hload.inpos_le
  | newGroup _ hk _ hu =>
    exact hu ▸ positionInv_advanceOffset hload (groupInv_loadedGroup hs.width_low hw).bytes_high
      (bitsFetched_loadedGroup hs.width_low hw hk)

theorem FetchCase.bufferHolds {s u : State} {f : Option Code} (hs : SessionInv s) (hc : BufferHolds s)
    (h : FetchCase s f u) : BufferHolds u := by
  cases h with
  | inGroup _ _ hu => exact hu ▸ bufferHolds_advanceOffset hc
  | atEnd _ _ _ hu => exact hu ▸ bufferHolds_startGroup_zero s
  | oneByte _ _ _ hu => exact hu ▸ bufferHolds_startGroup_zero (loadedGroup s)
  | newGroup _ _ _ hu => exact hu ▸ bufferHolds_advanceOffset (bufferHolds_loadedGroup hs.width_le_sixteen)

theorem fetchPos_of_refill {s : State} (h : needsRefill s = true) : fetchPos s = 8 * s.inpos := if_pos h

theorem fetchPos_of_group {s : State} (h : needsRefill s = false) : fetchPos s = bitpos s := by simp [fetchPos, h]

/-- A fetched code ends where `BITPOS` stands then (R149). -/
theorem FetchCase.bitpos_eq {s u : State} {c : Code} (hs : SessionInv s) (h : FetchCase s (some c) u) :
    bitpos u = fetchPos s + s.codewidth.toNat := by
  have hw := hs.width_le_sixteen
  cases h with
  | inGroup h _ hu =>
    rw [hu, fetchPos_of_group h, bitpos_advanceOffset hs.bytes_high (bitsFetched_of_session hs h)]
  | atEnd _ _ hf => cases hf
  | oneByte _ _ hf => cases hf
  | newGroup h hk _ hu =>
    rw [hu, fetchPos_of_refill h, bitpos_advanceOffset (groupInv_loadedGroup hs.width_low hw).bytes_high
      (bitsFetched_loadedGroup hs.width_low hw hk)]
    rfl

/-- A fetched code is the code of the stream at the fetch position (R67, R151). -/
theorem FetchCase.code_eq {s u : State} {c : Code} (hs : SessionInv s) (hc : BufferHolds s)
    (h : FetchCase s (some c) u) : c.toNat = codeAt s.input (fetchPos s) s.codewidth.toNat := by
  have hw := hs.width_le_sixteen
  cases h with
  | inGroup h hf _ =>
    rw [Option.some.inj hf, fetchPos_of_group h, bufferCode_eq hc hs.bytes_high hw (bitsFetched_of_session hs h)]
  | atEnd _ _ hf => cases hf
  | oneByte _ _ hf => cases hf
  | newGroup h hk hf _ =>
    rw [Option.some.inj hf, fetchPos_of_refill h, bufferCode_eq (bufferHolds_loadedGroup hw)
      (groupInv_loadedGroup hs.width_low hw).bytes_high hw (bitsFetched_loadedGroup hs.width_low hw hk)]
    rfl

/-- A fetch returns a code exactly when a whole one is left in the stream (R102, R151). -/
theorem FetchCase.isSome_iff {s u : State} {f : Option Code} (hs : SessionInv s) (hp : PositionInv s)
    (h : FetchCase s f u) : f.isSome = true ↔ fetchPos s + s.codewidth.toNat ≤ 8 * s.input.length := by
  have hl := hs.width_low
  have hw := hs.width_le_sixteen
  have hlen := bytesToRead_length s.codewidth.toNat s
  have hin := hp.inpos_le
  cases h with
  | inGroup h hf _ =>
    have hread := hp.buffer_read
    have hend := (bitsFetched_iff hs.bytes_high).1 (bitsFetched_of_session hs h)
    rw [hf, fetchPos_of_group h, bitpos]
    exact iff_of_true rfl (by omega)
  | atEnd h hk hf _ =>
    rw [hf, fetchPos_of_refill h]
    exact iff_of_false nofun (by omega)
  | oneByte h hk hf _ =>
    rw [hf, fetchPos_of_refill h]
    exact iff_of_false nofun (by omega)
  | newGroup h hk hf _ =>
    rw [hf, fetchPos_of_refill h]
    exact iff_of_true rfl (by omega)

/-- Settles O23, by the four ways in which a fetch ends. -/
theorem nextcodeReadsTheStreamBits : Obligations.NextcodeReadsTheStreamBits := by
  intro s hinv hin
  have hs := hinv.session hin
  obtain ⟨f, u, hfetch, hcase⟩ := nextcode_session hs
  have hsome := hcase.isSome_iff hs hinv.positionInv
  cases f with
  | none => exact ⟨fun hle => absurd (hsome.2 hle) nofun, fun _ => ⟨u, hfetch⟩⟩
  | some c =>
    exact ⟨fun _ => ⟨c, u, hfetch, hcase.code_eq hs hinv.buffer_content, hcase.bitpos_eq hs⟩,
      fun hlt => absurd (hsome.1 rfl) (Nat.not_le.2 hlt)⟩

end Sys2Proof.Machine
end

section
/-!
PROOF. The session invariant's half about the header, the width and the table: it reads no other register, an emptied
table meets it, and the append and the width bump of the common tail keep it.
-/

namespace Sys2Proof.Machine

/-! ## The table and the width -/

/-- The part of `SessionInv` that speaks of the header, the width and the table (I1, I2, I3, I5, I9). -/
structure TableInv (s : State) : Prop where
  width_low : 9 ≤ s.codewidth.toNat
  width_high : s.codewidth.toNat ≤ s.maxbits.toNat
  maxbits_high : s.maxbits.toNat ≤ 16
  maxcode_eq : s.maxcode.toNat = maxcodeOf s.codewidth.toNat s.maxbits.toNat
  first_le : firstOf s ≤ s.nextfree.toNat
  nextfree_le : s.nextfree.toNat ≤ s.maxcode.toNat
  maxcode_le : s.maxcode.toNat ≤ maxmaxOf s
  width_reached : 9 < s.codewidth.toNat → 2 ^ (s.codewidth.toNat - 1) ≤ s.nextfree.toNat
  entries : ∀ a < s.nextfree.toNat, firstOf s ≤ a → entryOk s a = true
  header_valid : s.hdrValid = true

theorem SessionInv.tableInv {s : State} (hs : SessionInv s) : TableInv s :=
  ⟨hs.width_low, hs.width_high, hs.maxbits_high, hs.maxcode_eq, hs.first_le, hs.nextfree_le, hs.maxcode_le,
    hs.width_reached, hs.entries, hs.header_valid⟩

/-- `t` has the header, the width and the table of `s`. -/
def SameTable (s t : State) : Prop :=
  t = { t with
    hdrValid := s.hdrValid, maxbits := s.maxbits, block := s.block, codewidth := s.codewidth, maxcode := s.maxcode,
    nextfree := s.nextfree, ram := s.ram }

theorem ReaderStep.sameTable {s t : State} (h : ReaderStep s t) : SameTable s t := by
  unfold SameTable
  rw [h]

theorem TableInv.of_sameTable {s t : State} (hs : TableInv s) (h : SameTable s t) : TableInv t := by
  rw [h]
  exact ⟨hs.width_low, hs.width_high, hs.maxbits_high, hs.maxcode_eq, hs.first_le, hs.nextfree_le, hs.maxcode_le,
    hs.width_reached, hs.entries, hs.header_valid⟩

/-- `SessionInv` is its half about the table, its half about the reader, and what it says of the last code and of a
clear. -/
theorem TableInv.sessionInv {s : State} (ht : TableInv s) (hg : GroupInv s)
    (hlast : s.pendingClear = false → s.st = .running →
      namesString s s.lastcode.toNat ∧ (stringOf s s.lastcode).bind List.head? = some s.lastfirst)
    (hclear : s.pendingClear = true → s.block = true ∧ s.forceRefill = true ∧ s.codewidth.toNat = 9 ∧
      s.nextfree.toNat = 257 ∧ s.st = .running)
    (hstart : s.st = .start → s.codewidth.toNat = 9) : SessionInv s where
  width_low := ht.width_low
  width_high := ht.width_high
  maxbits_high := ht.maxbits_high
  maxcode_eq := ht.maxcode_eq
  first_le := ht.first_le
  nextfree_le := ht.nextfree_le
  maxcode_le := ht.maxcode_le
  width_reached := ht.width_reached
  bytes_high := hg.bytes_high
  group_bytes := hg.group_bytes
  offset_multiple := hg.offset_multiple
  offset_high := hg.offset_high
  usable_eq := hg.usable_eq
  entries := ht.entries
  last_names hst hpc := have ⟨hnames, _⟩ := hlast hpc hst; hnames
  last_first hst hpc := have ⟨_, hfirst⟩ := hlast hpc hst; hfirst
  clearing hpc := have ⟨hblock, hforce, hwidth, hnext, _⟩ := hclear hpc; ⟨hblock, hforce, hwidth, hnext⟩
  clear_running hpc := have ⟨_, _, _, _, hst⟩ := hclear hpc; hst
  start_width := hstart
  header_valid := ht.header_valid

theorem le_maxcodeOf (w mb : Nat) : 2 ^ w - 1 ≤ maxcodeOf w mb := by
  unfold maxcodeOf
  split
  next h => exact h ▸ Nat.sub_le _ _
  next => exact Nat.le_refl _

theorem maxcodeOf_le {w mb : Nat} (h : w ≤ mb) : maxcodeOf w mb ≤ 2 ^ mb := by
  unfold maxcodeOf
  split
  next => exact Nat.le_refl _
  next => exact Nat.le_trans (Nat.sub_le _ _) (Nat.pow_le_pow_right (by decide) h)

/-- A table just emptied, at width 9: what `OPEN` and `CLR` leave (R126, R194). -/
theorem tableInv_emptied {s : State} (hl : 9 ≤ s.maxbits.toNat) (hh : s.maxbits.toNat ≤ 16) (hv : s.hdrValid = true)
    (hcw : s.codewidth = 9) (hmc : s.maxcode = maxcodeFor 9 s.maxbits)
    (hnf : s.nextfree = BitVec.ofNat 17 (firstOf s)) : TableInv s := by
  have hcw : s.codewidth.toNat = 9 := by rw [hcw]; rfl
  have hmc : s.maxcode.toNat = maxcodeOf 9 s.maxbits.toNat := by rw [hmc, maxcodeFor_toNat hl hh]
  have hfirst : firstOf s ≤ 257 := by obtain ⟨-, h⟩ | ⟨-, h⟩ := firstOf_cases s <;> omega
  have hnf : s.nextfree.toNat = firstOf s := by
    rw [hnf, BitVec.toNat_ofNat]
    omega
  have hmc_low : 511 ≤ maxcodeOf 9 s.maxbits.toNat := le_maxcodeOf 9 _
  exact {
    width_low := hcw.ge
    width_high := hcw ▸ hl
    maxbits_high := hh
    maxcode_eq := hcw ▸ hmc
    first_le := hnf.ge
    nextfree_le := by omega
    maxcode_le := hmc ▸ maxcodeOf_le hl
    width_reached := fun h => absurd h (by omega)
    entries := fun a h1 h2 => absurd h1 (by omega)
    header_valid := hv }

theorem entryOk_congr {s t : State} {a : Nat} (hram : ramLookup t.ram a = ramLookup s.ram a)
    (hblock : t.block = s.block) : entryOk t a = entryOk s a := by
  unfold entryOk firstOf
  rw [hram, hblock]

theorem entryOk_of_lookup {s : State} {a : Nat} {e : Entry} (h : ramLookup s.ram a = some e) (hlt : e.pre.toNat < a)
    (hnames : e.pre.toNat < 256 ∨ firstOf s ≤ e.pre.toNat) : entryOk s a = true := by
  simp [entryOk, h, hlt, hnames]

/-! ## The common tail in a legal session -/

section Tail

variable {s t : State} {c : Code} {b : Byte} {rest : List Byte}

theorem TailEffect.firstOf_eq (e : TailEffect s t c b rest) : firstOf t = firstOf s := by rw [e.frame]; rfl

/-- The valid locations of `s` stay valid and keep their entries (R172). -/
theorem TailEffect.lookup_old (e : TailEffect s t c b rest) (hs : SessionInv s) {a : Nat}
    (ha : a < s.nextfree.toNat) : a < t.nextfree.toNat ∧ ramLookup t.ram a = ramLookup s.ram a := by
  have hgrown := e.grown
  have hle := Nat.le_trans hs.nextfree_le hs.maxcode_le
  refine ⟨by omega, ?_⟩
  rw [e.table, if_neg fun h => absurd h.1 (Nat.ne_of_lt ha)]

/-- R203: the bump keeps the table below `MAXCODE`, and happens only when the new width is reached. -/
theorem TailEffect.width_cases (e : TailEffect s t c b rest) (hs : SessionInv s) :
    (t.codewidth.toNat = s.codewidth.toNat ∧ t.maxcode.toNat = s.maxcode.toNat ∧
      t.nextfree.toNat ≤ s.maxcode.toNat ∧ t.forceRefill = s.forceRefill) ∨
    (t.codewidth.toNat = s.codewidth.toNat + 1 ∧ s.codewidth.toNat < s.maxbits.toNat ∧
      t.nextfree.toNat = 2 ^ s.codewidth.toNat ∧ t.forceRefill = true) := by
  have hgrown := e.grown
  have hwidth := e.width
  have hle := hs.nextfree_le
  by_cases hcross : s.maxcode.toNat < t.nextfree.toNat
  · obtain ⟨-, hmc⟩ | ⟨hlt, hmc⟩ := maxcode_cases hs
    · omega
    · have hpos : 0 < 2 ^ s.codewidth.toNat := by positivity
      rw [if_pos hcross] at hwidth
      exact .inr ⟨hwidth, hlt, by omega, by simp [e.refill, hcross]⟩
  · rw [if_neg hcross] at hwidth
    exact .inl ⟨hwidth, by rw [e.maxcode, hwidth, hs.maxcode_eq], Nat.not_lt.1 hcross, by simp [e.refill, hcross]⟩

theorem TailEffect.tableInv (e : TailEffect s t c b rest) (hs : SessionInv s)
    (hlast : namesString s s.lastcode.toNat) : TableInv t := by
  have hmb : t.maxbits = s.maxbits := by rw [e.frame]
  have hblock : t.block = s.block := by rw [e.frame]
  have hmaxmax : maxmaxOf t = 2 ^ s.maxbits.toNat := by rw [maxmaxOf, hmb]
  have hfirst := e.firstOf_eq
  have hgrown := e.grown
  have hmc := e.maxcode
  have hmc_low := le_maxcodeOf t.codewidth.toNat s.maxbits.toNat
  have hsl := hs.width_low
  have hsh := hs.width_high
  have hnf := hs.nextfree_le
  have hcap := Nat.le_trans hnf hs.maxcode_le
  have hreach : t.codewidth.toNat ≤ s.maxbits.toNat ∧ 9 ≤ t.codewidth.toNat ∧ t.nextfree.toNat ≤ t.maxcode.toNat ∧
      (9 < t.codewidth.toNat → 2 ^ (t.codewidth.toNat - 1) ≤ t.nextfree.toNat) := by
    obtain ⟨hw, hmc', hle, -⟩ | ⟨hw, hlt, hreached, -⟩ := e.width_cases hs
    · have hold := hs.width_reached
      rw [hw]
      exact ⟨hsh, hsl, by omega, fun h => Nat.le_trans (hold h) (by omega)⟩
    · have hpow : 2 ^ (s.codewidth.toNat + 1) = 2 * 2 ^ s.codewidth.toNat := Nat.pow_succ'
      have hpos : 0 < 2 ^ s.codewidth.toNat := by positivity
      rw [hw] at hmc hmc_low ⊢
      exact ⟨hlt, by omega, by omega, fun _ => hreached.ge⟩
  obtain ⟨hhigh, hlow, hle, hreached⟩ := hreach
  exact {
    width_low := hlow
    width_high := hmb ▸ hhigh
    maxbits_high := hmb ▸ hs.maxbits_high
    maxcode_eq := hmb ▸ hmc
    first_le := by
      have := hs.first_le
      omega
    nextfree_le := hle
    maxcode_le := by
      rw [hmaxmax, hmc]
      exact maxcodeOf_le hhigh
    width_reached := hreached
    entries := fun a ha hfa => by
      by_cases hold : a < s.nextfree.toNat
      · have ⟨_, hlookup⟩ := e.lookup_old hs hold
        exact (entryOk_congr hlookup hblock).trans (hs.entries a hold (hfirst ▸ hfa))
      · have hnew : a = s.nextfree.toNat ∧ s.nextfree.toNat < maxmaxOf s := by omega
        have hge := firstOf_ge s
        have hfl := hs.first_le
        have hlt : s.lastcode.toNat < a := by
          obtain hlit | hvalid := hlast
          · simp only [Config.literals] at hlit
            omega
          · omega
        exact entryOk_of_lookup ((e.table a).trans (if_pos hnew)) hlt (hfirst ▸ hlast.imp id And.left)
    header_valid := by
      rw [e.frame]
      exact hs.header_valid }

/-- The string of a code that named one is as it was (R75, R172). -/
theorem TailEffect.stringFrom_old (e : TailEffect s t c b rest) (hs : SessionInv s) (n : Nat) {a : Code}
    (ha : namesString s a.toNat) : stringFrom t n a = stringFrom s n a :=
  stringFrom_congr hs (fun _ h1 h2 => have ⟨hlt, hlookup⟩ := e.lookup_old hs h2; ⟨e.firstOf_eq ▸ h1, hlt, hlookup⟩) n a
    (ha.imp_left isLiteral_iff.2)

/-- The new entry names the last string with one byte more (R172, R178). -/
theorem TailEffect.stringOf_new (e : TailEffect s t c b rest) (hs : SessionInv s)
    (hlast : namesString s s.lastcode.toNat) (hcap : s.nextfree.toNat < maxmaxOf s) {a : Code}
    (ha : a.toNat = s.nextfree.toNat) : stringOf t a = (stringOf s s.lastcode).map (· ++ [b]) := by
  have hge := firstOf_ge s
  have hfl := hs.first_le
  have hgrown := e.grown
  have hresolve : dtResolve a t = .next { pre := s.lastcode, suffix := b } :=
    dtResolve_of_valid (by rw [e.firstOf_eq]; omega) (by omega) ((e.table _).trans (if_pos ⟨ha, hcap⟩))
  obtain ⟨bs, hbs, -⟩ := stringFrom_of_session hs (65536 - firstOf s) 65535 s.lastcode
    (by have := s.lastcode.isLt; omega) (hlast.imp_left isLiteral_iff.2) (by omega)
  have hfuel : Config.stkBytes = 65535 + 1 := rfl
  rw [stringOf, stringOf, hfuel, stringFrom_entry (isLiteral_false_iff.2 (by omega)) hresolve,
    e.stringFrom_old hs _ hlast, stringFrom_succ hbs, hbs]

/-- The common tail leaves a legal session when the code it remembers names a string that begins with the byte it
remembers. -/
theorem TailEffect.sessionInv (e : TailEffect s t c b rest) (hs : SessionInv s) (hplain : plainRunning s = true)
    (hnames : namesString t c.toNat) (hhead : (stringOf t c).bind List.head? = some b) : SessionInv t := by
  obtain ⟨hst, hpc⟩ := plainRunning_iff.1 hplain
  obtain ⟨hlastcode, hlastfirst⟩ := e.last
  have hpc' : t.pendingClear = false := by rw [e.frame]; exact hpc
  have hst' : t.st = .running := by rw [e.frame]; exact hst
  have hg : GroupInv t := by
    have hbytes : t.bytes = s.bytes := by rw [e.frame]
    have hoff : t.bitoff = s.bitoff := by rw [e.frame]
    have husable : t.usable = s.usable := by rw [e.frame]
    have hold (h : t.forceRefill = false) : s.forceRefill = false ∧ t.codewidth.toNat = s.codewidth.toNat := by
      obtain ⟨hw, -, -, hf⟩ | ⟨-, -, -, hf⟩ := e.width_cases hs
      · exact ⟨hf ▸ h, hw⟩
      · rw [hf] at h
        cases h
    constructor
    · rw [hbytes]
      exact hs.bytes_high
    all_goals
      intro h
      obtain ⟨hf, hw⟩ := hold h
      simp only [hbytes, hoff, husable, hw]
    · exact hs.group_bytes hf
    · exact hs.offset_multiple hf
    · exact hs.offset_high hf
    · exact hs.usable_eq hf
  refine (e.tableInv hs (hs.last_names hst hpc)).sessionInv hg (fun _ _ => ?_) (by simp [hpc']) (by simp [hst'])
  rw [hlastcode, hlastfirst]
  exact ⟨hnames, hhead⟩

end Tail

end Sys2Proof.Machine
end

section
/-!
PROOF. Every step keeps the invariants: each class of code by its effect in a legal session, then `OPEN`, `DECODE_NEXT`
and the step.
-/

namespace Sys2Proof.Machine

/-! ## The classes of code in a legal session -/

/-- The effect of each class of code: what a legal session with an empty stack holds after it (R192 to R200). -/
inductive CodeEffect (s : State) : CodeItem → State → Prop where
  | first {b : Byte} (hst : s.st = .start) :
    CodeEffect s (.first b)
      (answerWith (.emitted 1) { remember (literalCode b) b (emitBytes [b] s) with st := .running })
  | firstInvalid {c : Code} : CodeEffect s (.firstInvalid c) (raise .firstNotLiteral c s)
  | postclr {b : Byte} (hst : s.st = .running) :
    CodeEffect s (.postclr b)
      (answerWith (.emitted 1) { remember (literalCode b) b (emitBytes [b] s) with pendingClear := false })
  | postclrInvalid {c : Code} : CodeEffect s (.postclrInvalid c) (raise .postclearNotLiteral c s)
  | clr (hst : s.st = .running) (hblock : s.block = true) :
    CodeEffect s .clr
      (answerWith (.emitted 0) { signalRefill (restartWidth (dtReset s)) with pendingClear := true })
  | lit {b : Byte} {t : State} (hplain : plainRunning s = true) (ht : TailEffect s t (literalCode b) b []) :
    CodeEffect s (.lit b) t
  | kwk {c : Code} {b : Byte} {rest : List Byte} {t : State} (hplain : plainRunning s = true)
    (hc : c.toNat = s.nextfree.toNat) (hstring : stringOf s s.lastcode = some (b :: rest))
    (ht : TailEffect s t c b (rest ++ [s.lastfirst])) : CodeEffect s (.kwk c) t
  | ref {c : Code} {b : Byte} {rest : List Byte} {t : State} (hplain : plainRunning s = true)
    (hvalid : validIndex c.toNat s = true) (hstring : stringOf s c = some (b :: rest))
    (ht : TailEffect s t c b rest) : CodeEffect s (.ref c) t
  | outOfRange {c : Code} : CodeEffect s (.outOfRange c) (raise .codeOutOfRange c s)

theorem commonTail_session {c : Code} {b : Byte} {rest : List Byte} {s t : State} (hs : SessionInv s)
    (h : commonTail c b rest s = .next t) : TailEffect s t c b rest := by
  obtain ⟨t', ht', heffect⟩ := commonTail_effect hs c b rest
  obtain rfl := Host.Outcome.next.inj (h.symm.trans ht')
  exact heffect

theorem stringTail_session {a c : Code} {g : List Byte → List Byte} {s t : State} (hs : SessionInv s)
    (hstk : s.stk = []) (h : (bindRes (stringStack a s) fun (bs, s') => commonTail c bs.1 (g bs.2) s') = .next t) :
    ∃ b rest, stringOf s a = some (b :: rest) ∧ TailEffect s t c b (g rest) := by
  obtain ⟨⟨⟨b, rest⟩, u⟩, hstack, htail⟩ := bindRes_eq_next_iff.1 h
  obtain ⟨hstring, rfl⟩ := (stringStack_iff hstk).1 hstack
  exact ⟨b, rest, hstring, commonTail_session hs htail⟩

theorem runCode_effect {i : CodeItem} {s t : State} (hs : s.pendingClear = false → SessionInv s) (hstk : s.stk = [])
    (hin : inSession s = true) (h : runCode i s = .next t) : CodeEffect s i t := by
  have hsession (hplain : plainRunning s = true) : SessionInv s := hs (plainRunning_iff.1 hplain).2
  cases i with
  | first b =>
    obtain ⟨hst, h⟩ := (codeStep_session_iff hin).1 h
    obtain rfl := Host.Outcome.next.inj h
    exact .first (by simpa using hst)
  | firstInvalid c =>
    obtain ⟨-, h⟩ := (codeStep_session_iff hin).1 h
    obtain rfl := Host.Outcome.next.inj h
    exact .firstInvalid
  | postclr b =>
    obtain ⟨hst, h⟩ := (codeStep_session_iff hin).1 h
    obtain rfl := Host.Outcome.next.inj h
    obtain ⟨hst, -⟩ := Bool.and_eq_true_iff.1 hst
    exact .postclr (by simpa using hst)
  | postclrInvalid c =>
    obtain ⟨-, h⟩ := (codeStep_session_iff hin).1 h
    obtain rfl := Host.Outcome.next.inj h
    exact .postclrInvalid
  | clr =>
    obtain ⟨hclass, h⟩ := (codeStep_session_iff hin).1 h
    obtain rfl := Host.Outcome.next.inj h
    obtain ⟨hplain, hblock⟩ := Bool.and_eq_true_iff.1 hclass
    exact .clr (plainRunning_iff.1 hplain).1 hblock
  | lit b =>
    obtain ⟨hplain, h⟩ := (codeStep_session_iff hin).1 h
    exact .lit hplain (commonTail_session (hsession hplain) h)
  | kwk c =>
    obtain ⟨hclass, h⟩ := (codeStep_session_iff hin).1 h
    simp only [Bool.and_eq_true, decide_eq_true_eq] at hclass
    obtain ⟨⟨⟨hplain, -⟩, -⟩, hc⟩ := hclass
    obtain ⟨b, rest, hstring, ht⟩ := stringTail_session (g := (· ++ [s.lastfirst])) (hsession hplain) hstk h
    exact .kwk hplain hc hstring ht
  | ref c =>
    obtain ⟨hclass, h⟩ := (codeStep_session_iff hin).1 h
    obtain ⟨hplain, hvalid⟩ := Bool.and_eq_true_iff.1 hclass
    obtain ⟨b, rest, hstring, ht⟩ := stringTail_session (g := id) (hsession hplain) hstk h
    exact .ref hplain hvalid hstring ht
  | outOfRange c =>
    obtain ⟨-, h⟩ := (codeStep_session_iff hin).1 h
    obtain rfl := Host.Outcome.next.inj h
    exact .outOfRange

/-- What a fetch leaves of a legal session: all of it, but that a clear under way has had its refill (I8). -/
structure FetchedInv (s : State) : Prop where
  table : TableInv s
  group : GroupInv s
  clear_running : s.pendingClear = true → s.st = .running
  session : s.pendingClear = false → SessionInv s

theorem SessionInv.fetched {s u : State} {f : Option Code} (hs : SessionInv s) (h : nextcode s = .next (f, u)) :
    FetchedInv u := by
  have hread := nextcode_readerStep h
  have hpc : u.pendingClear = s.pendingClear := by rw [hread]
  have hst : u.st = s.st := by rw [hread]
  exact {
    table := hs.tableInv.of_sameTable hread.sameTable
    group := (nextcode_cases hs h).groupInv hs
    clear_running := fun h => hst.trans (hs.clear_running (hpc ▸ h))
    session := fun hclear => hs.of_nextcode h (hpc ▸ hclear) }

/-- A literal after `OPEN` or after a clear leaves a legal session: it is the last string, and nothing is appended. -/
theorem FetchedInv.remember_literal {s t : State} (hs : FetchedInv s) (b : Byte)
    (ht : t = { s with
      out := t.out, lastcode := literalCode b, lastfirst := b, st := .running, pendingClear := false,
      answer := t.answer }) : SessionInv t := by
  have htable : TableInv t := hs.table.of_sameTable (by unfold SameTable; rw [ht])
  have hlit : (literalCode b).toNat < 256 := isLiteral_iff.1 (isLiteral_literalCode b)
  have hlast : t.lastcode = literalCode b ∧ t.lastfirst = b := by rw [ht]; exact ⟨rfl, rfl⟩
  obtain ⟨hcode, hfirst⟩ := hlast
  have hg : GroupInv t := by
    have hg := hs.group
    rw [ht]
    exact ⟨hg.bytes_high, hg.group_bytes, hg.offset_multiple, hg.offset_high, hg.usable_eq⟩
  refine htable.sessionInv hg (fun _ _ => ?_) (fun h => ?_) (fun h => ?_)
  · rw [hcode, hfirst, stringOf_literalCode]
    exact ⟨.inl hlit, rfl⟩
  · rw [ht] at h
    cases h
  · rw [ht] at h
    cases h

/-- `CLR` leaves a legal session, with nothing in the table and a refill to come (R194). -/
theorem FetchedInv.clear {s : State} (hs : FetchedInv s) (hst : s.st = .running) (hblock : s.block = true) :
    SessionInv (answerWith (.emitted 0) { signalRefill (restartWidth (dtReset s)) with pendingClear := true }) := by
  have htable := hs.table
  refine TableInv.sessionInv (tableInv_emptied (Nat.le_trans htable.width_low htable.width_high) htable.maxbits_high
    htable.header_valid rfl rfl rfl) ⟨hs.group.bytes_high, nofun, nofun, nofun, nofun⟩ nofun (fun _ => ?_) (fun _ => rfl)
  have hnf : (BitVec.ofNat 17 (firstOf s)).toNat = 257 := by simp [firstOf, firstIndex, hblock]
  exact ⟨hblock, rfl, rfl, hnf, hst⟩

/-- Every class of code leaves a legal session, or none. `KWK` needs that the code it is run for lies below the cap, so
that the entry it names is appended (R100, R199). -/
theorem CodeEffect.sessionInv {s t : State} {i : CodeItem} (h : CodeEffect s i t) (hs : FetchedInv s)
    (hcap : ∀ c, i = .kwk c → s.nextfree.toNat < maxmaxOf s) (hin : inSession t = true) : SessionInv t := by
  cases h with
  | @first b hst =>
    have hpc : s.pendingClear = false := by
      by_contra hpc
      simp [hs.clear_running (by simpa using hpc)] at hst
    exact hs.remember_literal b (by simp [answerWith, remember, emitBytes, hpc])
  | firstInvalid => cases hin
  | @postclr b hst => exact hs.remember_literal b (by simp [answerWith, remember, emitBytes, hst])
  | postclrInvalid => cases hin
  | clr hst hblock => exact hs.clear hst hblock
  | @lit b _ hplain ht =>
    refine ht.sessionInv (hs.session (plainRunning_iff.1 hplain).2) hplain ?_ ?_
    · exact .inl (isLiteral_iff.1 (isLiteral_literalCode b))
    · rw [stringOf_literalCode]
      rfl
  | @kwk c b rest _ hplain hc hstring ht =>
    obtain ⟨hst, hpc⟩ := plainRunning_iff.1 hplain
    have hsession := hs.session hpc
    have hcap := hcap c rfl
    have hgrown := ht.grown
    have hfirst := hsession.first_le
    refine ht.sessionInv hsession hplain (.inr ⟨ht.firstOf_eq ▸ hc ▸ hfirst, by omega⟩) ?_
    rw [ht.stringOf_new hsession (hsession.last_names hst hpc) hcap hc, hstring]
    rfl
  | @ref c b rest _ hplain hvalid hstring ht =>
    have hsession := hs.session (plainRunning_iff.1 hplain).2
    obtain ⟨hlow, hhigh⟩ := validIndex_iff.1 hvalid
    have ⟨hhigh', _⟩ := ht.lookup_old hsession hhigh
    refine ht.sessionInv hsession hplain (.inr ⟨ht.firstOf_eq ▸ hlow, hhigh'⟩) ?_
    rw [stringOf, ht.stringFrom_old hsession _ (.inr ⟨hlow, hhigh⟩), ← stringOf, hstring]
    rfl
  | outOfRange => cases hin

/-- R99: only the code equal to `NEXTFREE` is `KWK`. -/
theorem nextfree_of_classify_kwk {x : CodeContext} {c c' : Code} (h : classify x c = .kwk c') :
    c.toNat = x.nextfree := by
  unfold classify at h
  split_ifs at h with _ _ _ _ _ _ hkwk
  exact hkwk

/-- A fetched code has the bits of the current width, so it lies below the cap (R93, R100). -/
theorem FetchCase.code_lt_maxmax {s u : State} {c : Code} (hs : SessionInv s) (h : FetchCase s (some c) u) :
    c.toNat < maxmaxOf s := by
  have hw := hs.width_le_sixteen
  have hpow : 2 ^ s.codewidth.toNat ≤ maxmaxOf s := Nat.pow_le_pow_right (by decide) hs.width_high
  cases h with
  | inGroup _ hf _ => exact Option.some.inj hf ▸ Nat.lt_of_lt_of_le (bufferCode_lt hw) hpow
  | atEnd _ _ hf => cases hf
  | oneByte _ _ hf => cases hf
  | newGroup _ _ hf _ =>
    exact Option.some.inj hf ▸ Nat.lt_of_lt_of_le (bufferCode_lt (s := loadedGroup s) hw) hpow

/-- A `DECODE_NEXT` that leaves a session leaves it legal. -/
theorem runFetched_sessionInv {s u t : State} {f : Option Code} (hs : SessionInv s) (hstk : s.stk = [])
    (hin : inSession s = true) (hfetch : nextcode s = .next (f, u)) (hrun : runFetched (f, u) = .next t)
    (hint : inSession t = true) : SessionInv t := by
  have hread := nextcode_readerStep hfetch
  have hu := hs.fetched hfetch
  have hinu := hread.inSession_eq.trans hin
  cases f with
  | none =>
    obtain rfl := Host.Outcome.next.inj ((execEos_session hinu).symm.trans hrun)
    cases hint
  | some c =>
    have hstku : u.stk = [] := by rw [hread]; exact hstk
    have hmaxmax : maxmaxOf u = maxmaxOf s := by rw [hread]; rfl
    have hlt := (nextcode_cases hs hfetch).code_lt_maxmax hs
    refine (runCode_effect hu.session hstku hinu hrun).sessionInv hu (fun c' hkwk => ?_) hint
    have hnext : c.toNat = u.nextfree.toNat := nextfree_of_classify_kwk hkwk
    rwa [← hnext, hmaxmax]

/-! ## Every state -/

/-- `t` is `s` but for the host's side. -/
def SameBlock (s t : State) : Prop := t = { s with host := t.host, answer := t.answer }

theorem SameBlock.sameSession {s t : State} (h : SameBlock s t) : SameSession s t := by
  unfold SameSession
  rw [h]

theorem InvBase.of_sameBlock {s t : State} (hi : InvBase s) (h : SameBlock s t) : InvBase t := by
  have hsession (hin : inSession s = true) : SessionInv t := by
    have hs := hi.session hin
    have hg : GroupInv t := by
      rw [h]
      exact ⟨hs.bytes_high, hs.group_bytes, hs.offset_multiple, hs.offset_high, hs.usable_eq⟩
    refine hs.of_sameSession h.sameSession hg fun hpc => ?_
    obtain ⟨-, hforce, -⟩ := hs.clearing hpc
    rw [h]
    exact hforce
  rw [h] at hsession ⊢
  exact ⟨hi.ram_wf, hi.stack_empty, hi.inpos_le, hi.buffer_read, hi.bitpos_le, hi.fault_iff, hi.no_info, hi.idle_flags,
    hi.idle_reader, hi.idle_positions, hsession⟩

theorem InvBase.withHost {s : State} (hi : InvBase s) (rest : List HostAction) : InvBase (s.withHost rest) :=
  hi.of_sameBlock rfl

theorem InvBase.refused {s : State} (hi : InvBase s) : InvBase (refuseCommand s) := hi.of_sameBlock rfl

/-- The values that R44 and R270 give for reset meet the invariants, whatever the other registers hold. -/
theorem GivenAtReset.inv {s : State} (h : GivenAtReset s) (hram : Memory.wf s.ram = true) : Inv s where
  ram_wf := hram
  stack_empty := h.stk
  inpos_le := h.inpos ▸ Nat.zero_le _
  buffer_read := by simp [h.inpos, h.bufbase, h.bytes]
  bitpos_le := by simp [bitpos, h.bufbase, h.bitoff]
  fault_iff := by simp [h.st, h.err]
  no_info _ := h.errinfo
  idle_flags _ := ⟨h.hdrValid, h.pendingClear, h.forceRefill⟩
  idle_reader _ := ⟨h.bytes, h.usable, h.bitoff⟩
  idle_positions _ := ⟨h.inpos, h.bufbase, h.out⟩
  session hin := by simp [inSession, h.st] at hin
  buffer_content i hi := by simp [h.bytes] at hi

/-- Settles O45, by the values that power-on gives. -/
theorem invariantsHoldAtReset : Obligations.InvariantsHoldAtReset :=
  GivenAtReset.inv ⟨rfl, rfl, rfl, rfl, rfl, rfl, rfl, rfl, rfl, rfl, rfl, rfl, rfl⟩ reset_wf

theorem inv_resetBlock (s : State) : Inv (resetBlock s) :=
  GivenAtReset.inv ⟨rfl, rfl, rfl, rfl, rfl, rfl, rfl, rfl, rfl, rfl, rfl, rfl, rfl⟩ (resetBlock_wf s)

/-- A stream made available in `Idle`: nothing of it has been read (R272). -/
theorem InvBase.withInput {s : State} (hi : InvBase s) (hidle : s.st = .idle) (stream : List Byte) :
    InvBase { s with input := stream } where
  ram_wf := hi.ram_wf
  stack_empty := hi.stack_empty
  inpos_le := by
    obtain ⟨hinpos, -⟩ := hi.idle_positions hidle
    exact hinpos ▸ Nat.zero_le _
  buffer_read := hi.buffer_read
  bitpos_le := hi.bitpos_le
  fault_iff := hi.fault_iff
  no_info := hi.no_info
  idle_flags := hi.idle_flags
  idle_reader := hi.idle_reader
  idle_positions := hi.idle_positions
  session hin := by simp [inSession, hidle] at hin

/-- A header that raises leaves what `Idle` had, and the error registers tell of it (R128, R236). -/
theorem InvBase.raise_header {s : State} (hi : InvBase s) (hidle : s.st = .idle) {cause : Cause}
    (hcause : cause ≠ .none) (info : BitVec 16) : InvBase (raise cause info (consumeBytes 3 s)) := by
  obtain ⟨hinpos, hbase, -⟩ := hi.idle_positions hidle
  obtain ⟨hbytes, -, hoff⟩ := hi.idle_reader hidle
  have hlen := bytesToRead_length 3 s
  exact {
    ram_wf := hi.ram_wf
    stack_empty := hi.stack_empty
    inpos_le := by
      simp only [raise_inpos, raise_input, consumeBytes_inpos, consumeBytes_input]
      omega
    buffer_read := by simp [hbase, hbytes]
    bitpos_le := by simp [bitpos, hbase, hoff]
    fault_iff := iff_of_true rfl hcause
    no_info := fun h => absurd h hcause
    idle_flags := nofun
    idle_reader := nofun
    idle_positions := nofun
    session := nofun }

/-- An accepted header leaves a legal session with the header read (R126). -/
theorem InvBase.start_session {s : State} (hi : InvBase s) (hidle : s.st = .idle) {block : Bool} {maxbits : BitVec 5}
    (hlow : 9 ≤ maxbits.toNat) (hhigh : maxbits.toNat ≤ 16) (hlen : 3 ≤ (bytesToRead 3 s).length) :
    InvBase (answerWith .ok (startSession block maxbits (consumeBytes 3 s))) := by
  obtain ⟨hinpos, -, -⟩ := hi.idle_positions hidle
  have hlen' := bytesToRead_length 3 s
  have hread : s.inpos + (bytesToRead 3 s).length = 3 := by omega
  have herr : s.err = .none := by
    by_contra h
    have hst := hi.fault_iff.2 h
    simp [hidle] at hst
  exact {
    ram_wf := hi.ram_wf
    stack_empty := hi.stack_empty
    inpos_le := show s.inpos + (bytesToRead 3 s).length ≤ s.input.length by omega
    buffer_read := hread.ge
    bitpos_le := show 24 ≤ 8 * (s.inpos + (bytesToRead 3 s).length) by omega
    fault_iff := iff_of_false nofun (not_not.2 herr)
    no_info := hi.no_info
    idle_flags := nofun
    idle_reader := nofun
    idle_positions := nofun
    session := fun _ => TableInv.sessionInv (tableInv_emptied hlow hhigh rfl rfl rfl rfl)
      ⟨Nat.zero_le _, fun _ => Nat.zero_le _, fun _ => rfl, fun _ => Nat.zero_le _, fun _ => rfl⟩ nofun nofun fun _ => rfl }

theorem InvBase.openCommand {s t : State} (hi : InvBase s) (h : execOpenCommand s = .next t) : InvBase t := by
  obtain ⟨-, rfl⟩ | ⟨hidle, rfl⟩ := execOpenCommand_next_iff.1 h
  · exact hi.refused
  · cases hitem : decodeHeader (bytesToRead 3 s) with
    | accepted block spare maxbits =>
      obtain ⟨hlow, hhigh⟩ := maxbits_of_decodeHeader_accepted hitem
      exact hi.start_session hidle hlow hhigh (length_of_decodeHeader_accepted hitem)
    | badMagic m0 m1 control => exact hi.raise_header hidle (by decide) _
    | widthTooLarge block spare maxbits => exact hi.raise_header hidle (by decide) _
    | widthTooSmall block spare maxbits => exact hi.raise_header hidle (by decide) _
    | short present => exact hi.raise_header hidle (by decide) _

/-- In a session no error is recorded (R37). -/
theorem InvBase.no_error {s : State} (hi : InvBase s) (hin : inSession s = true) : s.err = .none := by
  by_contra h
  simp [inSession, hi.fault_iff.2 h] at hin

theorem InvBase.decodeNext {s t : State} (hi : InvBase s) (h : execDecodeNext s = .next t) : InvBase t := by
  obtain ⟨-, rfl⟩ | ⟨hin, f, u, hfetch, hrun, hread, -, hframe⟩ := execDecodeNext_cases h
  · exact hi.refused
  · have hs := hi.session hin
    have hram : u.ram = s.ram := by rw [hread]
    have hstk : u.stk = s.stk := by rw [hread]
    have herr : u.err = s.err := by rw [hread]
    have hinfo : u.errinfo = s.errinfo := by rw [hread]
    have hnone := hi.no_error hin
    have hpos : PositionInv t := by
      have hpos := (nextcode_cases hs hfetch).positionInv hs hi.positionInv
      rw [hframe.frame]
      exact ⟨hpos.inpos_le, hpos.buffer_read, hpos.bitpos_le⟩
    exact {
      ram_wf := hframe.ram (hram ▸ hi.ram_wf)
      stack_empty := hframe.stack (hstk ▸ hi.stack_empty)
      inpos_le := hpos.inpos_le
      buffer_read := hpos.buffer_read
      bitpos_le := hpos.bitpos_le
      fault_iff := by
        refine ⟨hframe.raised, fun h => ?_⟩
        by_contra hst
        obtain ⟨herr', -⟩ := hframe.not_raised hst
        exact h (herr'.trans (herr.trans hnone))
      no_info := fun h => by
        obtain ⟨-, hinfo'⟩ := hframe.not_raised fun hst => hframe.raised hst h
        exact hinfo'.trans (hinfo.trans (hi.no_info hnone))
      idle_flags := fun h => absurd h hframe.not_idle
      idle_reader := fun h => absurd h hframe.not_idle
      idle_positions := fun h => absurd h hframe.not_idle
      session := runFetched_sessionInv hs hi.stack_empty hin hfetch hrun }

/-- Every step keeps `InvBase`. -/
theorem InvBase.step {s t : State} (hi : InvBase s) (hstep : step s = .next t) : InvBase t := by
  cases step_cases hstep with
  | stay _ ht => exact ht ▸ hi
  | reset rest _ ht => exact ht ▸ (inv_resetBlock _).toInvBase
  | present stream rest hidle ht => exact ht ▸ (hi.withHost rest).withInput hidle stream
  | openStream rest ht => exact (hi.withHost rest).openCommand ht
  | decodeNext rest ht => exact (hi.withHost rest).decodeNext ht

/-! ## What the buffer holds -/

/-- `OPEN` leaves the buffer as `Idle` had it, empty (R44, R126). -/
theorem bytes_of_headerEffect {h : HeaderItem} {s : State} (hbytes : s.bytes = 0) : (headerEffect h s).bytes = 0 := by
  cases h
  case accepted => rfl
  all_goals exact hbytes

theorem bufferHolds_of_empty {s : State} (h : s.bytes = 0) : BufferHolds s := fun i hi => by simp [h] at hi

/-- Every step keeps what the buffer holds: it is empty around `OPEN`, and only a fetch loads it. -/
theorem BufferHolds.step {s t : State} (hi : InvBase s) (hc : BufferHolds s) (hstep : step s = .next t) :
    BufferHolds t := by
  cases step_cases hstep with
  | stay _ ht => exact ht ▸ hc
  | reset rest _ ht => exact ht ▸ bufferHolds_of_empty rfl
  | present stream rest hidle ht =>
    obtain ⟨hbytes, -⟩ := hi.idle_reader hidle
    exact ht ▸ bufferHolds_of_empty hbytes
  | openStream rest ht =>
    obtain ⟨-, rfl⟩ | ⟨hidle, rfl⟩ := execOpenCommand_next_iff.1 ht
    · exact hc
    · obtain ⟨hbytes, -⟩ := hi.idle_reader hidle
      exact bufferHolds_of_empty (bytes_of_headerEffect hbytes)
  | decodeNext rest ht =>
    obtain ⟨-, rfl⟩ | ⟨hin, f, u, hfetch, -, -, -, hframe⟩ := execDecodeNext_cases ht
    · exact hc
    · have hs := (hi.withHost rest).session hin
      have hu : BufferHolds u := (nextcode_cases hs hfetch).bufferHolds hs hc
      rw [hframe.frame]
      exact hu

/-- Settles O46, from the two halves of `Inv`, each kept by every step. -/
theorem stepKeepsTheInvariants : Obligations.StepKeepsTheInvariants :=
  ⟨fun _ _ hi hstep => ⟨hi.toInvBase.step hstep, BufferHolds.step hi.toInvBase hi.buffer_content hstep⟩,
    fun _ _ hi hstep => hi.step hstep⟩

/-- Settles O53, from the position of the fetched code and the invariants after the step. -/
theorem eachCodeConsumesItsWidth : Obligations.EachCodeConsumesItsWidth := by
  intro s t hinv hin hexec hdone
  obtain ⟨hout, -⟩ | ⟨-, f, u, hfetch, hrun, hread, hinu, hframe⟩ := execDecodeNext_cases hexec
  · simp [hin] at hout
  · have hs := hinv.session hin
    have ht := hinv.toInvBase.decodeNext hexec
    have hcase := nextcode_cases hs hfetch
    have hbitpos : bitpos t = bitpos u := by rw [hframe.frame]; rfl
    have hinput : t.input = s.input := by rw [hframe.frame, hread]
    have hconsumed : bitpos t = fetchPos s + s.codewidth.toNat := by
      cases f with
      | none =>
        obtain rfl := Host.Outcome.next.inj ((execEos_session hinu).symm.trans hrun)
        exact absurd rfl hdone
      | some c => exact hbitpos.trans (hcase.bitpos_eq hs)
    have hwidth := hs.width_low
    have hle := ht.bitpos_le
    have hend := ht.inpos_le
    rw [hinput] at hend
    have hfetchPos : fetchPos t = 8 * t.inpos ∨ fetchPos t = bitpos t := by
      unfold fetchPos
      split
      · exact .inl rfl
      · exact .inr rfl
    exact ⟨hconsumed, by omega, by omega, by omega⟩

end Sys2Proof.Machine
end

section
/-!
PROOF. Hidden state is not observable (R41): every part of a step takes two states that agree on all but it to two such
states, and hands on the same code.
-/

namespace Sys2Proof.Machine

/-- The second state is the first with other hidden registers. -/
theorem SameButHidden.exists_eq {s s' : State} (h : SameButHidden s s') :
    ∃ buf ram lastcode lastfirst, s' = { s with buf, ram, lastcode, lastfirst } := ⟨_, _, _, _, h.rest⟩

/-! ## A fetch -/

/-- What `NEXTCODE` answers in a session, as a function of the state: the four ways of `FetchCase`. -/
def fetchResult (s : State) : Option Code × State :=
  if needsRefill s then
    if (bytesToRead s.codewidth.toNat s).length = 0 then (none, startGroup 0 s)
    else if (bytesToRead s.codewidth.toNat s).length = 1 then (none, startGroup 0 (loadedGroup s))
    else (some (bufferCode (loadedGroup s)), advanceOffset (loadedGroup s))
  else (some (bufferCode s), advanceOffset s)

theorem FetchCase.eq_fetchResult {s u : State} {f : Option Code} (h : FetchCase s f u) : (f, u) = fetchResult s := by
  unfold fetchResult
  cases h with
  | inGroup h hf hu => simp [h, hf, hu]
  | atEnd h hk hf hu => rw [if_pos h, if_pos hk, hf, hu]
  | oneByte h hk hf hu => rw [if_pos h, if_neg (by omega), if_pos hk, hf, hu]
  | newGroup h hk hf hu => rw [if_pos h, if_neg (by omega), if_neg (by omega), hf, hu]

theorem SameButHidden.startGroup_zero {s s' : State} (h : SameButHidden s s') :
    SameButHidden (startGroup 0 s) (startGroup 0 s') := by
  obtain ⟨buf, ram, lastcode, lastfirst, rfl⟩ := h.exists_eq
  exact ⟨rfl, fun _ i hi => absurd hi (Nat.not_lt_zero i), h.table, h.last⟩

theorem SameButHidden.loadedGroup {s s' : State} (h : SameButHidden s s') (hw : s.codewidth.toNat ≤ 16) :
    SameButHidden (loadedGroup s) (loadedGroup s') := by
  obtain ⟨buf, ram, lastcode, lastfirst, rfl⟩ := h.exists_eq
  refine ⟨rfl, fun _ i hi => ?_, h.table, h.last⟩
  obtain ⟨hbytes, -⟩ := loadedGroup_fields hw
  have hlen := bytesToRead_length s.codewidth.toNat s
  rw [hbytes] at hi
  have h16 : i < 16 := by omega
  exact (loadBuf_new _ s.buf h16 hi).trans (loadBuf_new _ buf h16 hi).symm

theorem SameButHidden.advanceOffset {s s' : State} (h : SameButHidden s s') (hneed : needsRefill s = false) :
    SameButHidden (advanceOffset s) (advanceOffset s') := by
  obtain ⟨buf, ram, lastcode, lastfirst, rfl⟩ := h.exists_eq
  exact ⟨rfl, fun _ => h.buffer hneed, h.table, h.last⟩

/-- The code at `BITOFF` is made of the bytes on which the two buffers agree. -/
theorem SameButHidden.bufferCode_eq {s s' : State} (h : SameButHidden s s') (hneed : needsRefill s = false)
    (hb : s.bytes.toNat ≤ 16) (hfetched : bitsFetched s = true) : bufferCode s = bufferCode s' := by
  have hagree (i : Nat) (hi : i < s.bytes.toNat) : s.buf.toList[i]? = s'.buf.toList[0 + i]? :=
    (Nat.zero_add i).symm ▸ h.buffer hneed i hi
  have hcode := codeAt_window hagree ((bitsFetched_iff hb).1 hfetched)
  rw [Nat.mul_zero, Nat.zero_add] at hcode
  obtain ⟨buf, ram, lastcode, lastfirst, rfl⟩ := h.exists_eq
  exact congrArg (BitVec.ofNat 16) hcode

/-- A fetch hands on the same code, and leaves states that agree on all but hidden state. -/
theorem SameButHidden.fetchResult {s s' : State} (h : SameButHidden s s') (hs : SessionInv s) :
    (fetchResult s).1 = (fetchResult s').1 ∧ SameButHidden (fetchResult s).2 (fetchResult s').2 := by
  have hl := hs.width_low
  have hw := hs.width_le_sixteen
  have hneed : needsRefill s' = needsRefill s := by rw [h.rest]; rfl
  have hread : bytesToRead s'.codewidth.toNat s' = bytesToRead s.codewidth.toNat s := by rw [h.rest]; rfl
  have hload := h.loadedGroup hw
  unfold Machine.fetchResult
  rw [hneed, hread]
  split
  next =>
    split
    next => exact ⟨rfl, h.startGroup_zero⟩
    next h0 =>
      split
      next => exact ⟨rfl, hload.startGroup_zero⟩
      next h1 =>
        have hk : 2 ≤ (bytesToRead s.codewidth.toNat s).length := by omega
        have hready : needsRefill (Machine.loadedGroup s) = false := by
          rw [loadedGroup_needsRefill hl hw]
          exact decide_eq_false (Nat.not_lt.2 hk)
        exact ⟨congrArg some (hload.bufferCode_eq hready (groupInv_loadedGroup hl hw).bytes_high
          (bitsFetched_loadedGroup hl hw hk)), hload.advanceOffset hready⟩
  next hready =>
    have hready : needsRefill s = false := by simpa using hready
    exact ⟨congrArg some (h.bufferCode_eq hready hs.bytes_high (bitsFetched_of_session hs hready)),
      h.advanceOffset hready⟩

theorem SameButHidden.nextcode {s s' u u' : State} {f f' : Option Code} (h : SameButHidden s s') (hs : SessionInv s)
    (hs' : SessionInv s') (hfetch : nextcode s = .next (f, u)) (hfetch' : nextcode s' = .next (f', u')) :
    f = f' ∧ SameButHidden u u' := by
  have hresult := h.fetchResult hs
  rw [← (nextcode_cases hs hfetch).eq_fetchResult, ← (nextcode_cases hs' hfetch').eq_fetchResult] at hresult
  exact hresult

/-! ## The effects -/

section Effects

variable {s s' t t' : State}

theorem SameButHidden.raise (h : SameButHidden s s') (cause : Cause) (info : BitVec 16) :
    SameButHidden (raise cause info s) (raise cause info s') := by
  obtain ⟨buf, ram, lastcode, lastfirst, rfl⟩ := h.exists_eq
  exact ⟨rfl, h.buffer, h.table, nofun⟩

theorem SameButHidden.refused (h : SameButHidden s s') : SameButHidden (refuseCommand s) (refuseCommand s') := by
  obtain ⟨buf, ram, lastcode, lastfirst, rfl⟩ := h.exists_eq
  exact ⟨rfl, h.buffer, h.table, h.last⟩

theorem SameButHidden.withHost (h : SameButHidden s s') (rest : List HostAction) :
    SameButHidden (s.withHost rest) (s'.withHost rest) := by
  obtain ⟨buf, ram, lastcode, lastfirst, rfl⟩ := h.exists_eq
  exact ⟨rfl, h.buffer, h.table, h.last⟩

theorem SameButHidden.consumeBytes (h : SameButHidden s s') (n : Nat) :
    SameButHidden (consumeBytes n s) (consumeBytes n s') := by
  obtain ⟨buf, ram, lastcode, lastfirst, rfl⟩ := h.exists_eq
  exact ⟨rfl, h.buffer, h.table, h.last⟩

/-- `RESET` gives both the same free values and takes every location's value away (R270). -/
theorem SameButHidden.resetBlock (h : SameButHidden s s') : SameButHidden (resetBlock s) (resetBlock s') := by
  obtain ⟨buf, ram, lastcode, lastfirst, rfl⟩ := h.exists_eq
  exact ⟨rfl, fun _ _ _ => rfl, fun _ _ => rfl, nofun⟩

/-- In a table just emptied no index is valid (R40). -/
theorem not_validIndex_of_emptied (hnf : s.nextfree = BitVec.ofNat 17 (firstOf s)) (a : Nat) :
    validIndex a s ≠ true := by
  intro hv
  obtain ⟨hlow, hhigh⟩ := validIndex_iff.1 hv
  rw [hnf, BitVec.toNat_ofNat] at hhigh
  omega

/-- `OPEN` empties the buffer and the table (R126). -/
theorem SameButHidden.startSession (h : SameButHidden s s') (block : Bool) (maxbits : BitVec 5) :
    SameButHidden (answerWith .ok (startSession block maxbits s)) (answerWith .ok (startSession block maxbits s')) := by
  obtain ⟨buf, ram, lastcode, lastfirst, rfl⟩ := h.exists_eq
  exact ⟨rfl, nofun, fun a hv => absurd hv (not_validIndex_of_emptied rfl a), nofun⟩

theorem SameButHidden.headerEffect (h : SameButHidden s s') (item : HeaderItem) :
    SameButHidden (headerEffect item s) (headerEffect item s') := by
  cases item with
  | accepted block spare maxbits => exact h.startSession block maxbits
  | badMagic m0 m1 control => exact h.raise _ _
  | widthTooLarge block spare maxbits => exact h.raise _ _
  | widthTooSmall block spare maxbits => exact h.raise _ _
  | short present => exact h.raise _ _

/-- Where the last code means something, both states hold it (I6, R41). -/
theorem SameButHidden.last_eq (h : SameButHidden s s') (hplain : plainRunning s = true) :
    s.lastcode = s'.lastcode ∧ s.lastfirst = s'.lastfirst :=
  have ⟨hst, hpc⟩ := plainRunning_iff.1 hplain
  h.last hst hpc

/-- The common tail appends the same entry to both tables, since both know the last code (R172, R201 to R204). -/
theorem SameButHidden.tail {c : Code} {b : Byte} {rest : List Byte} (h : SameButHidden s s')
    (hplain : plainRunning s = true) (e : TailEffect s t c b rest) (e' : TailEffect s' t' c b rest) :
    SameButHidden t t' := by
  obtain ⟨hcode, -⟩ := h.last_eq hplain
  have hout : t'.out = t.out := by rw [e'.emitted, e.emitted, h.rest]
  have hnf : t'.nextfree = t.nextfree := BitVec.eq_of_toNat_eq (by rw [e'.grown, e.grown, h.rest]; rfl)
  have hcw : t'.codewidth = t.codewidth := BitVec.eq_of_toNat_eq (by rw [e'.width, e.width, hnf, h.rest])
  have hmc : t'.maxcode = t.maxcode := BitVec.eq_of_toNat_eq (by rw [e'.maxcode, e.maxcode, hcw, h.rest])
  have hforce : t'.forceRefill = t.forceRefill := by rw [e'.refill, e.refill, hnf, h.rest]
  have htold : t'.answer = t.answer := e'.told.trans e.told.symm
  have hbuf : t.buf = s.buf := by rw [e.frame]
  have hbuf' : t'.buf = s'.buf := by rw [e'.frame]
  refine ⟨?_, fun hneed => ?_, fun a hv => ?_, fun _ _ => ?_⟩
  · have hframe := e'.frame
    rw [h.rest, hout, hnf, hcw, hmc, hforce, htold, ← hbuf'] at hframe
    refine hframe.trans ?_
    rw [e.frame]
  · have hold : needsRefill s = false := by
      have hready := needsRefill_false_iff.1 hneed
      rw [e.refill, Bool.or_eq_false_iff, e.frame] at hready
      obtain ⟨⟨hforce, -⟩, hoff⟩ := hready
      exact needsRefill_false_iff.2 ⟨hforce, hoff⟩
    rw [hbuf, hbuf', e.frame]
    exact h.buffer hold
  · have hmaxmax : maxmaxOf s' = maxmaxOf s := by rw [h.rest]; rfl
    have hnf : s'.nextfree = s.nextfree := by rw [h.rest]
    rw [e.table, e'.table, hmaxmax, hnf, hcode]
    split
    next => rfl
    next hold =>
      obtain ⟨hlow, hhigh⟩ := validIndex_iff.1 hv
      have hgrown := e.grown
      exact h.table a (validIndex_iff.2 ⟨e.firstOf_eq ▸ hlow, by omega⟩)
  · obtain ⟨hc, hb⟩ := e.last
    obtain ⟨hc', hb'⟩ := e'.last
    exact ⟨hc.trans hc'.symm, hb.trans hb'.symm⟩

/-- A code that names a string has the same one in both (R178). -/
theorem SameButHidden.stringOf_eq (h : SameButHidden s s') (hs : SessionInv s) {a : Code}
    (ha : namesString s a.toNat) : stringOf s' a = stringOf s a := by
  have hfirst : firstOf s' = firstOf s := by rw [h.rest]; rfl
  have hnf : s'.nextfree = s.nextfree := by rw [h.rest]
  refine stringFrom_congr hs (fun k hlow hhigh => ?_) _ a (ha.imp_left isLiteral_iff.2)
  exact ⟨hfirst ▸ hlow, hnf ▸ hhigh, (h.table k (validIndex_iff.2 ⟨hlow, hhigh⟩)).symm⟩

/-- Every class of code reads and leaves the same but for hidden state. -/
theorem SameButHidden.codeEffect {i : CodeItem} (h : SameButHidden s s') (hs : s.pendingClear = false → SessionInv s)
    (e : CodeEffect s i t) (e' : CodeEffect s' i t') : SameButHidden t t' := by
  have hsession (hplain : plainRunning s = true) : SessionInv s := hs (plainRunning_iff.1 hplain).2
  cases e with
  | first hst =>
    cases e'
    obtain ⟨buf, ram, lastcode, lastfirst, rfl⟩ := h.exists_eq
    exact ⟨rfl, h.buffer, h.table, fun _ _ => ⟨rfl, rfl⟩⟩
  | firstInvalid =>
    cases e'
    exact h.raise _ _
  | postclr hst =>
    cases e'
    obtain ⟨buf, ram, lastcode, lastfirst, rfl⟩ := h.exists_eq
    exact ⟨rfl, h.buffer, h.table, fun _ _ => ⟨rfl, rfl⟩⟩
  | postclrInvalid =>
    cases e'
    exact h.raise _ _
  | clr hst hblock =>
    cases e'
    obtain ⟨buf, ram, lastcode, lastfirst, rfl⟩ := h.exists_eq
    exact ⟨rfl, nofun, fun a hv => absurd hv (not_validIndex_of_emptied rfl a), nofun⟩
  | lit hplain ht =>
    cases e' with
    | lit _ ht' => exact h.tail hplain ht ht'
  | @kwk c b rest _ hplain hc hstring ht =>
    cases e' with
    | @kwk _ b' rest' _ _ _ hstring' ht' =>
      obtain ⟨hst, hpc⟩ := plainRunning_iff.1 hplain
      obtain ⟨hcode, hfirst⟩ := h.last_eq hplain
      rw [← hcode, h.stringOf_eq (hsession hplain) ((hsession hplain).last_names hst hpc), hstring] at hstring'
      obtain ⟨rfl, rfl⟩ := List.cons.inj (Option.some.inj hstring')
      exact h.tail hplain ht (hfirst ▸ ht')
  | @ref c b rest _ hplain hvalid hstring ht =>
    cases e' with
    | @ref _ b' rest' _ _ _ hstring' ht' =>
      rw [h.stringOf_eq (hsession hplain) (.inr (validIndex_iff.1 hvalid)), hstring] at hstring'
      obtain ⟨rfl, rfl⟩ := List.cons.inj (Option.some.inj hstring')
      exact h.tail hplain ht ht'
  | outOfRange =>
    cases e'
    exact h.raise _ _

end Effects

/-! ## The commands and the step -/

theorem SameButHidden.runFetched {s s' t t' : State} {f : Option Code} (h : SameButHidden s s')
    (hs : s.pendingClear = false → SessionInv s) (hs' : s'.pendingClear = false → SessionInv s')
    (hstk : s.stk = []) (hin : inSession s = true) (hrun : runFetched (f, s) = .next t)
    (hrun' : runFetched (f, s') = .next t') : SameButHidden t t' := by
  have hstk' : s'.stk = [] := by rw [h.rest]; exact hstk
  have hin' : inSession s' = true := by rw [h.rest]; exact hin
  cases f with
  | none =>
    obtain rfl := Host.Outcome.next.inj ((execEos_session hin).symm.trans hrun)
    obtain rfl := Host.Outcome.next.inj ((execEos_session hin').symm.trans hrun')
    obtain ⟨buf, ram, lastcode, lastfirst, rfl⟩ := h.exists_eq
    exact ⟨rfl, h.buffer, h.table, nofun⟩
  | some c =>
    have hclass : classify (codeContext s') c = classify (codeContext s) c := by rw [h.rest]; rfl
    have e' := runCode_effect hs' hstk' hin' hrun'
    rw [hclass] at e'
    exact h.codeEffect hs (runCode_effect hs hstk hin hrun) e'

theorem SameButHidden.decodeNext {s s' t : State} (h : SameButHidden s s') (hi : InvBase s) (hi' : InvBase s')
    (hexec : execDecodeNext s = .next t) : ∃ t', execDecodeNext s' = .next t' ∧ SameButHidden t t' := by
  have hsame : inSession s' = inSession s := by rw [h.rest]; rfl
  obtain ⟨hout, rfl⟩ | ⟨hin, f, u, hfetch, hrun, hread, hinu, -⟩ := execDecodeNext_cases hexec
  · exact ⟨_, execDecodeNext_next_iff.2 (.inl ⟨hsame.trans hout, rfl⟩), h.refused⟩
  · have hin' := hsame.trans hin
    have hs := hi.session hin
    have hs' := hi'.session hin'
    have hstk : u.stk = [] := by rw [hread]; exact hi.stack_empty
    obtain ⟨f', u', hfetch', -⟩ := nextcode_session hs'
    obtain ⟨t', hrun'⟩ := runFetched_answers hs' hi'.stack_empty hin' hfetch'
    obtain ⟨rfl, hu⟩ := h.nextcode hs hs' hfetch hfetch'
    exact ⟨t', execDecodeNext_next_iff.2 (.inr ⟨hin', f, u', hfetch', hrun'⟩),
      hu.runFetched (hs.fetched hfetch).session (hs'.fetched hfetch').session hstk hinu hrun hrun'⟩

theorem SameButHidden.openCommand {s s' t : State} (h : SameButHidden s s') (hexec : execOpenCommand s = .next t) :
    ∃ t', execOpenCommand s' = .next t' ∧ SameButHidden t t' := by
  have hst : s'.st = s.st := by rw [h.rest]
  have hread : bytesToRead 3 s' = bytesToRead 3 s := by rw [h.rest]; rfl
  obtain ⟨hidle, rfl⟩ | ⟨hidle, rfl⟩ := execOpenCommand_next_iff.1 hexec
  · exact ⟨_, execOpenCommand_next_iff.2 (.inl ⟨hst ▸ hidle, rfl⟩), h.refused⟩
  · exact ⟨_, execOpenCommand_next_iff.2 (.inr ⟨hst ▸ hidle, rfl⟩), hread ▸ (h.consumeBytes 3).headerEffect _⟩

theorem SameButHidden.presentStream {s s' t : State} {stream : List Byte} (h : SameButHidden s s')
    (hexec : presentStream stream s = .next t) :
    ∃ t', presentStream stream s' = .next t' ∧ SameButHidden t t' := by
  have hst : s'.st = s.st := by rw [h.rest]
  obtain ⟨hidle, rfl⟩ := presentStream_next_iff.1 hexec
  refine ⟨_, presentStream_next_iff.2 ⟨hst.trans hidle, rfl⟩, ?_⟩
  obtain ⟨buf, ram, lastcode, lastfirst, rfl⟩ := h.exists_eq
  exact ⟨rfl, h.buffer, h.table, h.last⟩

/-- Settles O56, by the action the host takes next, which is the same for both states. -/
theorem hiddenStateIsNotObservable : Obligations.HiddenStateIsNotObservable := by
  intro s s' t hi hi' h hstep
  have hhost : s'.host = s.host := by rw [h.rest]
  unfold step at hstep ⊢
  rw [hhost]
  split at hstep
  next => exact ⟨s', rfl, Host.Outcome.next.inj hstep ▸ h⟩
  next rest _ => exact ⟨_, rfl, Host.Outcome.next.inj hstep ▸ (h.withHost rest).resetBlock⟩
  next stream rest _ => exact (h.withHost rest).presentStream hstep
  next rest _ => exact (h.withHost rest).openCommand hstep
  next rest _ => exact (h.withHost rest).decodeNext (hi.withHost rest) (hi'.withHost rest) hstep

end Sys2Proof.Machine
end

section
/-!
PROOF. The round trip of the codes: the packer writes each bit of a list at its own place, so that the bits of a code
among any others read back as that code, and the class of a code is the instruction whose condition of R99 holds.
-/

namespace Sys2Proof

/-! ## The bits of packed bytes -/

theorem testBit_bitsNat (bits : List Bool) (j : Nat) : (bitsNat bits).testBit j = bits[j]?.getD false := by
  induction bits generalizing j with
  | nil => simp [bitsNat]
  | cons b rest ih =>
    have hbit : bitsNat (b :: rest) = Nat.bit b (bitsNat rest) := by rw [Nat.bit_val, bitsNat]; omega
    cases j with
    | zero => simp [hbit]
    | succ j => simp [hbit, Nat.testBit_bit_succ, ih]

theorem getElem?_packBytes {n k : Nat} (hk : k < n) (bits : List Bool) :
    (packBytes n bits)[k]? = some (BitVec.ofNat 8 (bitsNat ((bits.drop (8 * k)).take 8))) := by
  induction n generalizing k bits with
  | zero => omega
  | succ n ih =>
    cases k with
    | zero => rfl
    | succ k => rw [packBytes, List.getElem?_cons_succ, ih (by omega), List.drop_drop, Nat.mul_succ, Nat.add_comm 8]

/-- R105: bit `i` of a packed list is element `i`. -/
theorem bitAt_packBytes {n i : Nat} (hi : i < 8 * n) (bits : List Bool) :
    bitAt (packBytes n bits) i = bits[i]?.getD false := by
  have hmod : i % 8 < 8 := Nat.mod_lt i (by decide)
  rw [bitAt, getElem?_packBytes (by omega)]
  simp only [BitVec.getLsbD_ofNat, hmod, decide_true, Bool.true_and, testBit_bitsNat, List.getElem?_take_of_lt,
    List.getElem?_drop, Nat.div_add_mod]

theorem bitAt_packBits {i : Nat} {bits : List Bool} (hi : i < bits.length) : bitAt (packBits bits) i = bits[i] := by
  rw [packBits, bitAt_packBytes (by omega), List.getElem?_eq_getElem hi, Option.getD_some]

/-! ## The bits of a code -/

/-- R67, R147: a code is read where the bits of its number stand. -/
theorem codeAt_of_bits {bs : List Byte} {q c w : Nat} (h : ∀ j < w, bitAt bs (q + j) = c.testBit j) :
    codeAt bs q w = c % 2 ^ w := by
  induction w with
  | zero => rw [codeAt, Nat.pow_zero, Nat.mod_one]
  | succ w ih =>
    rw [codeAt, ih fun j hj => h j (by omega), h w (by omega), Nat.toNat_testBit, Nat.mod_pow_succ, Nat.mul_comm]

/-- R67, R94: the bits of a code read back as the code, whatever stands before and after them. -/
theorem codeAt_packBits {w c : Nat} (hc : c < 2 ^ w) (before after : List Bool) :
    codeAt (packBits (before ++ codeBits w c ++ after)) before.length w = c := by
  have hbits : ∀ j < w, bitAt (packBits (before ++ codeBits w c ++ after)) (before.length + j) = c.testBit j := by
    intro j hj
    rw [bitAt_packBits (by simp; omega)]
    simp [codeBits, hj]
  rw [codeAt_of_bits hbits, Nat.mod_eq_of_lt hc]

end Sys2Proof

namespace Sys2Proof.Machine

/-! ## The class of a code -/

theorem isClear_eq_false_of_isLiteral {c : Code} (h : isLiteral c = true) (block : Bool) : isClear block c = false := by
  have hlt := isLiteral_iff.1 h
  refine Bool.eq_false_of_not_eq_true fun hclear => ?_
  obtain ⟨-, hc⟩ := isClear_iff.1 hclear
  omega

/-- A code from `FIRST` on is not `CLEAR` (R9). -/
theorem isClear_eq_false_of_firstIndex_le {block : Bool} {c : Code} (h : 256 + block.toNat ≤ c.toNat) :
    isClear block c = false := by
  refine Bool.eq_false_of_not_eq_true fun hclear => ?_
  obtain ⟨rfl, hc⟩ := isClear_iff.1 hclear
  rw [Bool.toNat_true] at h
  omega

/-- R99: the decoder gives a code the instruction of that code whose condition holds. -/
theorem codeInstr_classify {x : CodeContext} {i : Instr} {c : Code} (hcode : codeOf i = some c)
    (hclass : ClassHolds x i) : codeInstr (classify x c) = i := by
  cases i <;> cases hcode
  case first b =>
    have hstart : x.start = true := hclass
    simp [classify, hstart, isLiteral_literalCode, literalByte_literalCode, codeInstr]
  case firstInvalid =>
    obtain ⟨hstart, hhigh⟩ := hclass
    simp [classify, hstart, isLiteral_false_iff.2 hhigh, codeInstr]
  case postclr b =>
    obtain ⟨hstart, hclear⟩ := hclass
    simp [classify, hstart, hclear, isLiteral_literalCode, literalByte_literalCode, codeInstr]
  case postclrInvalid =>
    obtain ⟨hstart, hclear, hhigh⟩ := hclass
    simp [classify, hstart, hclear, isLiteral_false_iff.2 hhigh, codeInstr]
  case clr =>
    obtain ⟨hstart, hclear, hblock⟩ := hclass
    have hclr : isClear x.block (BitVec.ofNat 16 Config.clear) = true := isClear_iff.2 ⟨hblock, rfl⟩
    rw [classify, hstart, hclear, if_neg Bool.false_ne_true, if_neg Bool.false_ne_true, if_pos hclr, codeInstr]
  case lit b =>
    obtain ⟨hstart, hclear⟩ := hclass
    have hlit := isLiteral_literalCode b
    simp [classify, hstart, hclear, isClear_eq_false_of_isLiteral hlit, hlit, literalByte_literalCode, codeInstr]
  case kwk =>
    obtain ⟨hstart, hclear, hclr, hhigh, hnext⟩ := hclass
    simp [classify, hstart, hclear, mt isClear_iff.1 hclr, isLiteral_false_iff.2 hhigh, hnext, codeInstr]
  case ref =>
    obtain ⟨hstart, hclear, hfirst, hbelow⟩ := hclass
    simp [classify, hstart, hclear, isClear_eq_false_of_firstIndex_le hfirst,
      isLiteral_false_iff.2 (Nat.le_of_add_right_le hfirst), Nat.ne_of_lt hbelow, hbelow,
      show firstIndex x.block ≤ _ from hfirst, codeInstr]
  case codeOutOfRange =>
    obtain ⟨hstart, hclear, hclr, hhigh, habove⟩ := hclass
    simp [classify, hstart, hclear, mt isClear_iff.1 hclr, isLiteral_false_iff.2 hhigh, Nat.ne_of_gt habove,
      Nat.not_lt_of_gt habove, codeInstr]

/-- Settles O3, from the two halves of the round trip: the bits give back the code, and the code its class.
That the code is below `2^w` is all that the width has to meet. -/
theorem codeDecodesFromItsBits : Obligations.CodeDecodesFromItsBits := by
  intro x i c w before after hcode _ hclass _ hc
  rw [codeAt_packBits hc, BitVec.ofNat_toNat, BitVec.setWidth_eq]
  exact codeInstr_classify hcode hclass

end Sys2Proof.Machine
end

section
/-!
PROOF. The encoders undone: the control byte's fields, the bytes of a header, the two bytes of a code's 16-bit value.
-/

namespace Sys2Proof

/-! ## The header's bytes (R91, R92) -/

theorem controlBlock_controlByte (block : Bool) (spare : BitVec 2) (maxbits : BitVec 5) :
    controlBlock (controlByte block spare maxbits) = block := by
  rw [controlBlock, controlByte, BitVec.getLsbD_append, if_neg (by decide), BitVec.getLsbD_append, if_neg (by decide)]
  simp

theorem controlSpare_controlByte (block : Bool) (spare : BitVec 2) (maxbits : BitVec 5) :
    controlSpare (controlByte block spare maxbits) = spare := by
  ext j hj
  have hhigh : ¬5 + j < 5 := by omega
  have hlow : 5 + j - 5 < 2 := by omega
  rw [controlSpare, BitVec.getElem_extractLsb', controlByte, BitVec.getLsbD_append, if_neg hhigh,
    BitVec.getLsbD_append, if_pos hlow, Nat.add_sub_cancel_left, BitVec.getLsbD_eq_getElem hj]

theorem controlMaxbits_controlByte (block : Bool) (spare : BitVec 2) (maxbits : BitVec 5) :
    controlMaxbits (controlByte block spare maxbits) = maxbits := by
  rw [controlMaxbits, controlByte, BitVec.extractLsb'_append_eq_of_add_le (Nat.le_refl 5), BitVec.extractLsb'_eq_self]

/-- With the magic in front, the width alone says which item the three bytes are (R124, R127). -/
theorem decodeHeader_headerBytes (block : Bool) (spare : BitVec 2) (maxbits : BitVec 5) :
    decodeHeader (headerBytes block spare maxbits) =
      if Config.maxMaxbits < maxbits.toNat then .widthTooLarge block spare maxbits
      else if maxbits.toNat < Config.minMaxbits then .widthTooSmall block spare maxbits
      else .accepted block spare maxbits := by
  have hmagic : ¬(!isMagic Config.magic0 Config.magic1) = true := by decide
  rw [headerBytes, decodeHeader, if_neg hmagic, controlBlock_controlByte, controlSpare_controlByte,
    controlMaxbits_controlByte]

theorem decodeHeader_badMagic {m0 m1 c : Byte} (h : (!isMagic m0 m1) = true) :
    decodeHeader [m0, m1, c] = .badMagic m0 m1 c := by
  rw [decodeHeader, if_pos h]

theorem decodeHeader_short {present : List Byte} (h : present.length < 3) :
    decodeHeader present = .short present := by
  match present, h with
  | [], _ => rfl
  | [_], _ => rfl
  | [_, _], _ => rfl

/-! ## The 16-bit value of a code (R95, R103) -/

theorem encode_of_codeOf {i : Instr} {c : Code} (h : codeOf i = some c) : encode i = codeBytes c := by
  cases i <;> cases h <;> rfl

/-- R95: bit `j` of a code's two bytes is bit `j` of the code. -/
theorem bitAt_codeBytes (c : Code) {j : Nat} (hj : j < 16) : bitAt (codeBytes c) j = c.getLsbD j := by
  have hmod : j % 8 < 8 := Nat.mod_lt j (by decide)
  by_cases hlow : j < 8
  · have hbyte : (codeBytes c)[j / 8]? = some (c.extractLsb' 0 8) := by rw [Nat.div_eq_of_lt hlow]; rfl
    simp [bitAt, hbyte, Nat.mod_eq_of_lt hlow, hlow]
  · have hbyte : (codeBytes c)[j / 8]? = some (c.extractLsb' 8 8) := by rw [show j / 8 = 1 by omega]; rfl
    simp [bitAt, hbyte, hmod, show 8 + j % 8 = j by omega]

end Sys2Proof

namespace Sys2Proof.Machine

/-- Settles O2, by the five rows of format H: with the magic the width picks the row, without it or with fewer than
three bytes nothing else is looked at. -/
theorem headerDecodesFromItsBytes : Obligations.HeaderDecodesFromItsBytes := by
  intro i hheader hwf
  cases i with
  | header block spare maxbits =>
    obtain ⟨hlow, hhigh⟩ := Bool.and_eq_true_iff.1 hwf
    rw [encode, decodeHeader_headerBytes, if_neg (Nat.not_lt.2 (of_decide_eq_true hhigh)),
      if_neg (Nat.not_lt.2 (of_decide_eq_true hlow)), headerInstr]
  | headerBadMagic m0 m1 control => rw [encode, decodeHeader_badMagic hwf, headerInstr]
  | headerWidthTooLarge block spare maxbits =>
    rw [encode, decodeHeader_headerBytes, if_pos (of_decide_eq_true hwf), headerInstr]
  | headerWidthTooSmall block spare maxbits =>
    have hsmall : maxbits.toNat < Config.minMaxbits := of_decide_eq_true hwf
    have hnotLarge : ¬Config.maxMaxbits < maxbits.toNat :=
      Nat.not_lt.2 (Nat.le_of_lt (Nat.lt_of_lt_of_le hsmall (by decide)))
    rw [encode, decodeHeader_headerBytes, if_neg hnotLarge, if_pos hsmall, headerInstr]
  | headerShort present => rw [encode, decodeHeader_short (of_decide_eq_true hwf), headerInstr]
  | _ => cases hheader

/-- Settles O4: the two bytes hold the code's bits in their places, and all sixteen of them. -/
theorem codeValueDecodesFromItsBytes : Obligations.CodeValueDecodesFromItsBytes := by
  intro i c hcode
  have hbits : ∀ j < 16, bitAt (codeBytes c) (0 + j) = c.toNat.testBit j := fun j hj => by
    rw [Nat.zero_add, bitAt_codeBytes c hj, BitVec.testBit_toNat]
  rw [encode_of_codeOf hcode, codeAt_of_bits hbits, Nat.mod_eq_of_lt c.isLt]

/-- Settles O1, by evaluating the decoders on the words. -/
theorem specWordsDecode : Obligations.SpecWordsDecode := by
  unfold Obligations.SpecWordsDecode
  decide

end Sys2Proof.Machine
end

section
/-!
PROOF. The class of a code: its instruction has the code's own value, and `KWK` is fetched below the cap only.
-/

namespace Sys2Proof.Machine

theorem literalCode_literalByte {c : Code} (h : isLiteral c = true) : literalCode (literalByte c) = c := by
  have hlt := isLiteral_iff.1 h
  apply BitVec.eq_of_toNat_eq
  simp [literalCode, literalByte]
  omega

/-- R99, R100: the class that the decoder gives a code is an instruction of that code value. -/
theorem codeOf_codeInstr_classify (x : CodeContext) (c : Code) : codeOf (codeInstr (classify x c)) = some c := by
  have hliteral (h : isLiteral c = true) : some (literalCode (literalByte c)) = some c :=
    congrArg some (literalCode_literalByte h)
  unfold classify
  split
  · split
    next hlit => exact hliteral hlit
    next => rfl
  · split
    · split
      next hlit => exact hliteral hlit
      next => rfl
    · split
      next hclr => exact congrArg some (BitVec.eq_of_toNat_eq (isClear_iff.1 hclr).2.symm)
      next =>
        split
        next hlit => exact hliteral hlit
        next => split_ifs <;> rfl

/-- Settles O5: the decoder's class has the code's value and its condition, and no other instruction has both. -/
theorem everyCodeHasExactlyOneClass : Obligations.EveryCodeHasExactlyOneClass := by
  intro x c i
  constructor
  · rintro rfl
    exact ⟨codeOf_codeInstr_classify x c, classHolds_classify x c⟩
  · rintro ⟨hcode, hclass⟩
    exact codeInstr_classify hcode hclass

/-- Settles O38: a fetched code is below `2^MAXBITS` by its width, and the fetch leaves `NEXTFREE`. -/
theorem kwkOccursOnlyBelowTheCap : Obligations.KwkOccursOnlyBelowTheCap := by
  intro s u c hinv hin hfetch hkwk
  have hs := hinv.session hin
  have hlt : c.toNat < maxmaxOf s := (nextcode_cases hs hfetch).code_lt_maxmax hs
  have hnext : c.toNat = u.nextfree.toNat := nextfree_of_classify_kwk hkwk
  have hkept : u.nextfree = s.nextfree := by rw [nextcode_readerStep hfetch]
  rwa [hnext, hkept] at hlt

end Sys2Proof.Machine
end

section
/-!
PROOF. Each item of the stream is guarded by its place (R129, R210) and by its class (R99).
-/

namespace Sys2Proof.Machine

theorem exec_headerInstr {i : Instr} (h : isHeaderInstr i = true) (s : State) :
    ∃ t, exec i s = headerStep (WellFormed i) s t := by
  cases i with
  | header | headerBadMagic | headerWidthTooLarge | headerWidthTooSmall | headerShort => exact ⟨_, rfl⟩
  | _ => cases h

theorem start_eq_false_of_running {s : State} (h : (s.st == .running) = true) : (codeContext s).start = false := by
  simp [codeContext, eq_of_beq h]

theorem classContext_of_plainRunning {s : State} (h : plainRunning s = true) :
    (codeContext s).start = false ∧ (codeContext s).pendingClear = false := by
  obtain ⟨hrun, hclear⟩ := plainRunning_iff.1 h
  exact ⟨start_eq_false_of_running (beq_iff_eq.2 hrun), hclear⟩

/-- The common test of `KWK` and `CODE.OUT_OF_RANGE` (R99 lines 5 and 6 do not hold). -/
theorem classContext_of_tableCode {s : State} {c : Code}
    (h : (plainRunning s && !isLiteral c && !isClear s.block c) = true) :
    (codeContext s).start = false ∧ (codeContext s).pendingClear = false ∧
      ¬((codeContext s).block = true ∧ c.toNat = 256) ∧ 256 ≤ c.toNat := by
  simp only [Bool.and_eq_true, Bool.not_eq_true', isLiteral_false_iff] at h
  obtain ⟨⟨hplain, hhigh⟩, hclr⟩ := h
  obtain ⟨hstart, hclear⟩ := classContext_of_plainRunning hplain
  exact ⟨hstart, hclear, mt isClear_iff.2 (Bool.eq_false_iff.1 hclr), hhigh⟩

/-- A code item is guarded by a test that holds only where R99 gives its code this class. -/
theorem exec_codeInstr {i : Instr} (h : (codeOf i).isSome = true) (s : State) :
    ∃ isClass r, exec i s = codeStep isClass s r ∧ (isClass = true → ClassHolds (codeContext s) i) := by
  cases i with
  | first b => exact ⟨_, _, rfl, id⟩
  | firstInvalid c =>
    refine ⟨_, _, rfl, fun hclass => ?_⟩
    simp only [Bool.and_eq_true, Bool.not_eq_true', isLiteral_false_iff] at hclass
    exact hclass
  | postclr b =>
    refine ⟨_, _, rfl, fun hclass => ?_⟩
    obtain ⟨hrun, hclear⟩ := Bool.and_eq_true_iff.1 hclass
    exact ⟨start_eq_false_of_running hrun, hclear⟩
  | postclrInvalid c =>
    refine ⟨_, _, rfl, fun hclass => ?_⟩
    simp only [Bool.and_eq_true, Bool.not_eq_true', isLiteral_false_iff] at hclass
    obtain ⟨⟨hrun, hclear⟩, hhigh⟩ := hclass
    exact ⟨start_eq_false_of_running hrun, hclear, hhigh⟩
  | clr =>
    refine ⟨_, _, rfl, fun hclass => ?_⟩
    obtain ⟨hplain, hblock⟩ := Bool.and_eq_true_iff.1 hclass
    obtain ⟨hstart, hclear⟩ := classContext_of_plainRunning hplain
    exact ⟨hstart, hclear, hblock⟩
  | lit b => exact ⟨_, _, rfl, classContext_of_plainRunning⟩
  | kwk c =>
    refine ⟨_, _, rfl, fun hclass => ?_⟩
    obtain ⟨htable, hnext⟩ := Bool.and_eq_true_iff.1 hclass
    obtain ⟨hstart, hclear, hclr, hhigh⟩ := classContext_of_tableCode htable
    exact ⟨hstart, hclear, hclr, hhigh, of_decide_eq_true hnext⟩
  | ref c =>
    refine ⟨_, _, rfl, fun hclass => ?_⟩
    obtain ⟨hplain, hvalid⟩ := Bool.and_eq_true_iff.1 hclass
    obtain ⟨hstart, hclear⟩ := classContext_of_plainRunning hplain
    exact ⟨hstart, hclear, validIndex_iff.1 hvalid⟩
  | codeOutOfRange c =>
    refine ⟨_, _, rfl, fun hclass => ?_⟩
    obtain ⟨htable, habove⟩ := Bool.and_eq_true_iff.1 hclass
    obtain ⟨hstart, hclear, hclr, hhigh⟩ := classContext_of_tableCode htable
    exact ⟨hstart, hclear, hclr, hhigh, of_decide_eq_true habove⟩
  | _ => cases h

theorem codeStep_outside_session {isClass : Bool} {s : State} {r : Res State} (h : inSession s = false) :
    codeStep isClass s r = .next (refuseCommand s) :=
  codeStep_next_iff.2 (.inr ⟨h, rfl⟩)

/-- Settles O58, by the guard of each item of the stream: first its place, then its class. -/
theorem itemsOutsideTheirPlaceHaveNoEffect : Obligations.ItemsOutsideTheirPlaceHaveNoEffect := by
  refine ⟨fun s i hheader hplace => ?_, fun s i hheader hidle hfields => ?_, fun s i hcode hplace => ?_,
    fun s i hcode hin hother => ?_⟩
  · obtain ⟨t, hexec⟩ := exec_headerInstr hheader s
    exact hexec.trans (headerStep_next_iff.2 (.inr ⟨hplace, rfl⟩))
  · obtain ⟨t, hexec⟩ := exec_headerInstr hheader s
    rw [hexec, headerStep, if_pos hidle, hfields, if_neg Bool.false_ne_true]
  · obtain hcode | rfl := hcode
    · obtain ⟨isClass, r, hexec, -⟩ := exec_codeInstr hcode s
      exact hexec.trans (codeStep_outside_session hplace)
    · exact codeStep_outside_session hplace
  · obtain ⟨isClass, r, hexec, hclass⟩ := exec_codeInstr hcode s
    rw [hexec, codeStep, if_pos hin, if_neg (mt hclass hother)]

end Sys2Proof.Machine
end

section
/-!
PROOF. The header decoder read on numbers (R91, R92, R127): the fields of a control byte, the five cases of the bytes a
stream begins with (`HeaderCase`), and what a bad header records.
-/

namespace Sys2Proof

/-! ## The control byte (R91, R92) -/

theorem controlMaxbits_toNat (c : Byte) : (controlMaxbits c).toNat = c.toNat % 32 := by
  simp [controlMaxbits]

theorem controlBlock_eq_decide (c : Byte) : controlBlock c = decide (128 ≤ c.toNat) := BitVec.msb_eq_decide c

theorem controlByte_toNat (block : Bool) (spare : BitVec 2) (maxbits : BitVec 5) :
    (controlByte block spare maxbits).toNat = 128 * block.toNat + 32 * spare.toNat + maxbits.toNat := by
  rw [controlByte, BitVec.toNat_append, BitVec.toNat_append, ← Nat.shiftLeft_add_eq_or_of_lt spare.isLt,
    ← Nat.shiftLeft_add_eq_or_of_lt maxbits.isLt, BitVec.toNat_ofBool, Nat.shiftLeft_eq, Nat.shiftLeft_eq]
  omega

theorem controlByte_of_fields (c : Byte) : controlByte (controlBlock c) (controlSpare c) (controlMaxbits c) = c := by
  have hblock : BitVec.ofBool (controlBlock c) = c.extractLsb' 7 1 := by
    ext j hj
    obtain rfl : j = 0 := by omega
    simp [controlBlock]
  rw [controlByte, hblock, controlSpare, controlMaxbits,
    BitVec.extractLsb'_append_extractLsb'_eq_extractLsb' (show 7 = 5 + 2 from rfl),
    BitVec.extractLsb'_append_extractLsb'_eq_extractLsb' (show 5 = 0 + 5 from rfl)]
  exact BitVec.extractLsb'_eq_self

/-- R92, R123: `0x9F` masks bits 6 and 5 only, and no field of a session is in them. -/
theorem controlFields_eq_of_masked {c c' : Byte} (h : c &&& 0x9F = c' &&& 0x9F) :
    controlBlock c = controlBlock c' ∧ controlMaxbits c = controlMaxbits c' := by
  have hblock (b : Byte) : controlBlock (b &&& 0x9F) = controlBlock b := by simp [controlBlock]
  have hmaxbits (b : Byte) : controlMaxbits (b &&& 0x9F) = controlMaxbits b := by
    rw [controlMaxbits, BitVec.extractLsb'_and]
    exact BitVec.and_allOnes
  exact ⟨by rw [← hblock c, h, hblock], by rw [← hmaxbits c, h, hmaxbits]⟩

/-! ## The five cases of a header (R127) -/

theorem isMagic_iff {m0 m1 : Byte} : isMagic m0 m1 = true ↔ m0 = 0x1F ∧ m1 = 0x9D := by
  simp [isMagic, Config.magic0, Config.magic1]

theorem not_isMagic_iff {m0 m1 : Byte} : (!isMagic m0 m1) = true ↔ ¬(m0 = 0x1F ∧ m1 = 0x9D) := by
  rw [Bool.not_eq_true', ← Bool.not_eq_true, isMagic_iff]

/-- The decoder looks at three bytes at most (R128). -/
theorem decodeHeader_take_three (bs : List Byte) : decodeHeader (bs.take 3) = decodeHeader bs := by
  match bs with
  | [] | [_] | [_, _] => rfl
  | _ :: _ :: _ :: _ => rfl

theorem decodeHeader_of_legal {c : Byte} (rest : List Byte) (hlow : 9 ≤ c.toNat % 32) (hhigh : c.toNat % 32 ≤ 16) :
    decodeHeader (0x1F :: 0x9D :: c :: rest) =
      .accepted (controlBlock c) (controlSpare c) (controlMaxbits c) := by
  rw [decodeHeader, if_neg (by decide), controlMaxbits_toNat, if_neg (Nat.not_lt.2 hhigh), if_neg (Nat.not_lt.2 hlow)]

/-- The item that a stream begins with, by what its bytes are. -/
inductive HeaderCase : List Byte → HeaderItem → Prop where
  | short {bs : List Byte} (hshort : bs.length < 3) : HeaderCase bs (.short bs)
  | badMagic {m0 m1 c : Byte} {rest : List Byte} (hmagic : ¬(m0 = 0x1F ∧ m1 = 0x9D)) :
      HeaderCase (m0 :: m1 :: c :: rest) (.badMagic m0 m1 c)
  | widthTooLarge {c : Byte} {rest : List Byte} (hlarge : 16 < c.toNat % 32) :
      HeaderCase (0x1F :: 0x9D :: c :: rest) (.widthTooLarge (controlBlock c) (controlSpare c) (controlMaxbits c))
  | widthTooSmall {c : Byte} {rest : List Byte} (hsmall : c.toNat % 32 < 9) :
      HeaderCase (0x1F :: 0x9D :: c :: rest) (.widthTooSmall (controlBlock c) (controlSpare c) (controlMaxbits c))
  | accepted {c : Byte} {rest : List Byte} (hlow : 9 ≤ c.toNat % 32) (hhigh : c.toNat % 32 ≤ 16) :
      HeaderCase (0x1F :: 0x9D :: c :: rest) (.accepted (controlBlock c) (controlSpare c) (controlMaxbits c))

theorem decodeHeader_cases (bs : List Byte) : HeaderCase bs (decodeHeader bs) := by
  match bs with
  | [] | [_] | [_, _] => exact .short (by simp)
  | m0 :: m1 :: c :: rest =>
    rw [decodeHeader]
    split
    next hmagic => exact .badMagic (not_isMagic_iff.1 hmagic)
    next hmagic =>
      obtain ⟨rfl, rfl⟩ := not_not.1 (mt not_isMagic_iff.2 hmagic)
      rw [controlMaxbits_toNat]
      split
      next hlarge => exact .widthTooLarge hlarge
      next hlarge =>
        split
        next hsmall => exact .widthTooSmall hsmall
        next hsmall => exact .accepted (Nat.not_lt.1 hsmall) (Nat.not_lt.1 hlarge)

end Sys2Proof

namespace Sys2Proof.Machine

/-! ## `ERRINFO` of a bad header (R235) -/

theorem magicInfo_toNat (m0 m1 : Byte) : (magicInfo m0 m1).toNat = m0.toNat + 256 * m1.toNat := by
  rw [magicInfo, BitVec.toNat_append, ← Nat.shiftLeft_add_eq_or_of_lt m0.isLt, Nat.shiftLeft_eq]
  omega

theorem controlInfo_toNat (block : Bool) (spare : BitVec 2) (maxbits : BitVec 5) :
    (controlInfo block spare maxbits).toNat = 128 * block.toNat + 32 * spare.toNat + maxbits.toNat := by
  rw [controlInfo, BitVec.toNat_setWidth_of_le (by decide), controlByte_toNat]

theorem controlInfo_of_fields (c : Byte) :
    (controlInfo (controlBlock c) (controlSpare c) (controlMaxbits c)).toNat = c.toNat := by
  rw [controlInfo, BitVec.toNat_setWidth_of_le (by decide), controlByte_of_fields]

theorem shortInfo_toNat {present : List Byte} (h : present.length < 3) :
    (shortInfo present).toNat = present.length :=
  (BitVec.toNat_ofNat _ _).trans (Nat.mod_eq_of_lt (Nat.lt_trans h (by decide)))

end Sys2Proof.Machine
end

section
/-!
PROOF. A header item in `Idle`, alone and inside `OPEN` (40_header_parser.md).
-/

namespace Sys2Proof.Machine

/-! ## One header item (R122 to R126) -/

theorem exec_headerInstr_eq_runHeader (h : HeaderItem) (s : State) : exec (headerInstr h) s = runHeader h s := by
  cases h <;> rfl

theorem exec_headerInstr_idle {h : HeaderItem} (hfits : WellFormed (headerInstr h) = true) {s : State}
    (hidle : s.st = .idle) : exec (headerInstr h) s = .next (headerEffect h s) := by
  rw [exec_headerInstr_eq_runHeader, runHeader_eq]
  exact headerStep_next_iff.2 (.inl ⟨hidle, hfits, rfl⟩)

theorem maxcodeFor_initBits (mb : BitVec 5) : maxcodeFor Config.initBits mb = if mb = 9 then 512 else 511 := by
  rw [maxcodeFor, maxcodeOf, apply_ite (BitVec.ofNat 17)]
  by_cases hmb : mb = 9
  · subst hmb
    rfl
  · have hne : Config.initBits ≠ mb.toNat := fun h => hmb (BitVec.eq_of_toNat_eq h.symm)
    rw [if_neg hne, if_neg hmb]
    rfl

theorem ofNat_firstIndex (block : Bool) : BitVec.ofNat 17 (firstIndex block) = if block then 257 else 256 := by
  cases block <;> rfl

/-- Settles O9: the writes of `startSession`, with the values of `MAXCODE` and `NEXTFREE` written out. -/
theorem headerStartsSession : Obligations.HeaderStartsSession := by
  intro s block spare mb hidle hlow hhigh
  have hfits : WellFormed (.header block spare mb) = true :=
    Bool.and_eq_true_iff.2 ⟨decide_eq_true hlow, decide_eq_true hhigh⟩
  rw [← maxcodeFor_initBits, ← ofNat_firstIndex]
  exact exec_headerInstr_idle (h := .accepted block spare mb) hfits hidle

/-- Settles O10: the effect of `HEADER.BAD_MAGIC`, in which the third byte does not occur. -/
theorem badMagicRaisesCauseOne : Obligations.BadMagicRaisesCauseOne := by
  intro s m0 m1 control hidle hmagic
  exact ⟨_, exec_headerInstr_idle (h := .badMagic m0 m1 control) (not_isMagic_iff.2 hmagic) hidle,
    magicInfo_toNat m0 m1, rfl, rfl⟩

/-- Settles O11: the effects of the two width rows. -/
theorem badWidthRaisesCauseTwoOrThree : Obligations.BadWidthRaisesCauseTwoOrThree := by
  refine ⟨fun s block spare mb hidle hlarge => ?_, fun s block spare mb hidle hsmall => ?_⟩
  · exact ⟨_, exec_headerInstr_idle (h := .widthTooLarge block spare mb) (decide_eq_true hlarge) hidle,
      controlInfo_toNat block spare mb, rfl, rfl⟩
  · exact ⟨_, exec_headerInstr_idle (h := .widthTooSmall block spare mb) (decide_eq_true hsmall) hidle,
      controlInfo_toNat block spare mb, rfl, rfl⟩

/-- Settles O12: the effect of `HEADER.SHORT`. -/
theorem shortHeaderRaisesCauseFour : Obligations.ShortHeaderRaisesCauseFour := by
  intro s present hidle hshort
  exact ⟨_, exec_headerInstr_idle (h := .short present) (decide_eq_true hshort) hidle, shortInfo_toNat hshort,
    rfl, rfl⟩

/-! ## `OPEN` at the start of a stream (R121) -/

theorem exec_openCommand_idle {s : State} (hidle : s.st = .idle) :
    exec .openCommand s = .next (headerEffect (decodeHeader (bytesToRead 3 s)) (consumeBytes 3 s)) :=
  execOpenCommand_next_iff.2 (.inr ⟨hidle, rfl⟩)

/-- At position 0 `OPEN` has the effect of the item that the stream begins with, behind at most three bytes. -/
theorem exec_openCommand_start {s : State} (hidle : s.st = .idle) (hpos : s.inpos = 0) :
    exec .openCommand s = .next (headerEffect (decodeHeader s.input) { s with inpos := min 3 s.input.length }) := by
  have hread : bytesToRead 3 s = s.input.take 3 := by rw [bytesToRead, memRead, hpos, List.drop_zero]
  have hconsume : consumeBytes 3 s = { s with inpos := min 3 s.input.length } := by
    rw [consumeBytes, hread, hpos, List.length_take, Nat.zero_add]
  rw [exec_openCommand_idle hidle, hread, hconsume, decodeHeader_take_three]

theorem headerEffect_of_not_accepted {h : HeaderItem} (hrejected : headerAccepted h = false) (s : State) :
    (headerEffect h s).st = .fault ∧ (headerEffect h s).answer = .fault ∧
      isFormatError (headerEffect h s).err = true := by
  cases h with
  | accepted => cases hrejected
  | badMagic | widthTooLarge | widthTooSmall | short => exact ⟨rfl, rfl, rfl⟩

/-- R126, R236: a header item that is not accepted raises, and writes the error registers and `STATE` only. -/
theorem headerEffect_of_fault {h : HeaderItem} {s : State} (hfault : (headerEffect h s).st = .fault) :
    headerEffect h s = raise (headerEffect h s).err (headerEffect h s).errinfo s := by
  cases h with
  | accepted => cases hfault
  | badMagic | widthTooLarge | widthTooSmall | short => rfl

/-- R130: the headers accepted are those with the magic and a legal width. -/
theorem headerAccepted_iff {bs : List Byte} :
    headerAccepted (decodeHeader bs) = true ↔
      ∃ c rest, bs = 0x1F :: 0x9D :: c :: rest ∧ 9 ≤ c.toNat % 32 ∧ c.toNat % 32 ≤ 16 := by
  constructor
  · intro haccepted
    have hcase := decodeHeader_cases bs
    generalize decodeHeader bs = h at hcase haccepted
    cases hcase with
    | accepted hlow hhigh => exact ⟨_, _, rfl, hlow, hhigh⟩
    | short | badMagic | widthTooLarge | widthTooSmall => cases haccepted
  · rintro ⟨c, rest, rfl, hlow, hhigh⟩
    rw [decodeHeader_of_legal rest hlow hhigh, headerAccepted]

/-- R130: with the magic in front, the low five bits of the control byte alone decide. -/
theorem headerAccepted_magic (c : Byte) (rest : List Byte) :
    headerAccepted (decodeHeader (0x1F :: 0x9D :: c :: rest)) = decide (9 ≤ c.toNat % 32 ∧ c.toNat % 32 ≤ 16) := by
  rw [Bool.eq_iff_iff, headerAccepted_iff, decide_eq_true_iff]
  constructor
  · rintro ⟨_, _, ⟨⟩, hlegal⟩
    exact hlegal
  · exact fun hlegal => ⟨c, rest, rfl, hlegal⟩

/-- Settles O13, by whether the stream begins with a legal header; the count is over the low five bits of a control
byte. -/
theorem openAcceptsExactlyLegalHeaders : Obligations.OpenAcceptsExactlyLegalHeaders := by
  constructor
  · intro s hidle hpos
    refine ⟨_, exec_openCommand_start hidle hpos, ?_⟩
    by_cases haccepted : headerAccepted (decodeHeader s.input) = true
    · obtain ⟨c, rest, hbytes, hlow, hhigh⟩ := headerAccepted_iff.1 haccepted
      rw [hbytes, decodeHeader_of_legal rest hlow hhigh]
      exact .inl ⟨c, rest, rfl, hlow, hhigh, rfl, rfl, rfl, controlMaxbits_toNat c, controlBlock_eq_decide c⟩
    · exact .inr ⟨fun c rest hbytes hlegal => haccepted (headerAccepted_iff.2 ⟨c, rest, hbytes, hlegal⟩),
        headerEffect_of_not_accepted (Bool.eq_false_iff.2 haccepted) _⟩
  · have hbyte (n : Nat) : headerAccepted (decodeHeader [0x1F, 0x9D, BitVec.ofNat 8 n]) =
        decide (9 ≤ n % 32 ∧ n % 32 ≤ 16) := by
      rw [headerAccepted_magic, BitVec.toNat_ofNat, Nat.mod_mod_of_dvd n (by decide)]
    simp only [hbyte]
    decide

/-- Settles O14: the five cases of the stream's first bytes exclude each other in the order of the checks. -/
theorem openReportsTheFirstError : Obligations.OpenReportsTheFirstError := by
  intro s t hidle hpos hexec hfault
  obtain rfl : headerEffect _ _ = t := Host.Outcome.next.inj ((exec_openCommand_start hidle hpos).symm.trans hexec)
  have hcase := decodeHeader_cases s.input
  generalize s.input = bs, decodeHeader s.input = h at hcase hfault ⊢
  cases hcase with
  | short hshort => exact .inl ⟨hshort, rfl, shortInfo_toNat hshort⟩
  | badMagic hmagic => exact .inr ⟨_, _, _, _, rfl, .inl ⟨hmagic, rfl, magicInfo_toNat _ _⟩⟩
  | widthTooLarge hlarge =>
    exact .inr ⟨_, _, _, _, rfl, .inr (.inl ⟨rfl, rfl, hlarge, rfl, controlInfo_of_fields _⟩)⟩
  | widthTooSmall hsmall =>
    exact .inr ⟨_, _, _, _, rfl, .inr (.inr ⟨rfl, rfl, hsmall, rfl, controlInfo_of_fields _⟩)⟩
  | accepted => cases hfault

/-- Settles O15: no item moves `INPOS` behind the fetch, and one that fails only raises. -/
theorem openReadsOnlyTheHeader : Obligations.OpenReadsOnlyTheHeader := by
  intro s hidle hpos
  refine ⟨_, exec_openCommand_start hidle hpos, headerEffect_inpos _ _, fun hfault => ?_⟩
  rw [headerEffect_of_fault hfault]
  rfl

/-- Settles O16: the mask keeps both fields of a session, so the second header is accepted with the first one's. -/
theorem spareBitsStartIdenticalSessions : Obligations.SpareBitsStartIdenticalSessions := by
  intro s c c' body hidle hpos hmask t hexec hstart
  obtain ⟨hblock, hmaxbits⟩ := controlFields_eq_of_masked hmask
  have hopen (stream : List Byte) : exec .openCommand { s with input := stream } =
      .next (headerEffect (decodeHeader stream) { s with input := stream, inpos := min 3 stream.length }) :=
    exec_openCommand_start (s := { s with input := stream }) hidle hpos
  rw [hopen] at hexec ⊢
  obtain rfl := Host.Outcome.next.inj hexec
  have haccepted : headerAccepted (decodeHeader (0x1F :: 0x9D :: c :: body)) = true :=
    Bool.of_not_eq_false fun hrejected => nomatch hstart.symm.trans (headerEffect_of_not_accepted hrejected _).1
  obtain ⟨hlow, hhigh⟩ := of_decide_eq_true ((headerAccepted_magic c body).symm.trans haccepted)
  have hwidth : c'.toNat % 32 = c.toNat % 32 := by rw [← controlMaxbits_toNat, ← hmaxbits, controlMaxbits_toNat]
  rw [decodeHeader_of_legal body hlow hhigh, decodeHeader_of_legal body (hwidth ▸ hlow) (hwidth ▸ hhigh), hblock,
    hmaxbits]
  rfl

end Sys2Proof.Machine
end

section
/-!
PROOF. A step of `OPEN` or `DECODE_NEXT` is the row of the item it fetched (R121, R191).
-/

namespace Sys2Proof.Machine

theorem exec_codeInstr_eq_runCode (i : CodeItem) (s : State) : exec (codeInstr i) s = runCode i s := by
  cases i <;> rfl

theorem step_openStream {s : State} {rest : List HostAction} (hhost : s.host = .openStream :: rest) :
    step s = exec .openCommand (s.withHost rest) := by
  rw [step, hhost]

theorem step_decodeNext {s u : State} {rest : List HostAction} {f : Option Code}
    (hhost : s.host = .decodeNext :: rest) (hin : inSession s = true)
    (hfetch : nextcode (s.withHost rest) = .next (f, u)) : step s = runFetched (f, u) := by
  have hstep : step s = execDecodeNext (s.withHost rest) := by
    rw [step, hhost]
    rfl
  have hin : inSession (s.withHost rest) = true := hin
  rw [hstep, execDecodeNext, if_pos hin, hfetch, bindRes_next]

/-- Settles O44: the two commands fetch, decode and run one item, and each item's row is what they run. -/
theorem stepRunsTheDecodedInstruction : Obligations.StepRunsTheDecodedInstruction := by
  refine ⟨fun s rest hhost hidle => ?_, fun s u rest c hhost hin hfetch => ?_, fun s u rest hhost hin hfetch => ?_⟩
  · have hidle : (s.withHost rest).st = .idle := hidle
    rw [step_openStream hhost, exec_openCommand_idle hidle]
    exact (exec_headerInstr_idle (s := consumeBytes 3 (s.withHost rest)) (wellFormed_decodeHeader _) hidle).symm
  · rw [step_decodeNext hhost hin hfetch, exec_codeInstr_eq_runCode]
    rfl
  · exact step_decodeNext hhost hin hfetch

end Sys2Proof.Machine
end

section
/-!
PROOF. The two forms of the extraction agree (R147, R148): a code is cut at the byte boundaries it crosses, and each of
its pieces lies in one byte.
-/

namespace Sys2Proof

/-- The bits of a code from bit `a` on are a code of their own, shifted to their place (R67). -/
theorem codeAt_add (bs : List Byte) (q a b : Nat) :
    codeAt bs q (a + b) = codeAt bs q a ||| codeAt bs (q + a) b <<< a := by
  rw [Nat.or_comm, ← Nat.shiftLeft_add_eq_or_of_lt (codeAt_lt bs q a), Nat.shiftLeft_eq]
  induction b with
  | zero => simp [codeAt]
  | succ b ih =>
    rw [← Nat.add_assoc, codeAt, ih, codeAt, Nat.add_assoc q a b, Nat.pow_add]
    ring

/-- R14: a bit of a byte sequence is a bit of the byte it lies in. -/
theorem bitAt_eq_testBit (bs : List Byte) (i : Nat) : bitAt bs i = (byteNat bs (i / 8)).testBit (i % 8) := by
  unfold bitAt byteNat
  cases bs[i / 8]? with
  | none => simp
  | some b => rfl

theorem byteNat_lt (bs : List Byte) (i : Nat) : byteNat bs i < 2 ^ 8 := BitVec.isLt _

/-- A piece of a code that lies in one byte is that byte, shifted and masked (R148). -/
theorem codeAt_in_byte (bs : List Byte) {q w : Nat} (h : q % 8 + w ≤ 8) :
    codeAt bs q w = (byteNat bs (q / 8) >>> (q % 8)) % 2 ^ w := by
  refine codeAt_of_bits fun j hj => ?_
  rw [bitAt_eq_testBit, Nat.testBit_shiftRight, show (q + j) / 8 = q / 8 by omega,
    show (q + j) % 8 = q % 8 + j by omega]

/-- The rest of a byte from bit `q` on needs no mask. -/
theorem codeAt_to_byte_end (bs : List Byte) (q : Nat) :
    codeAt bs q (8 - q % 8) = byteNat bs (q / 8) >>> (q % 8) := by
  have hlt : byteNat bs (q / 8) >>> (q % 8) < 2 ^ (8 - q % 8) := by
    rw [Nat.shiftRight_eq_div_pow, Nat.div_lt_iff_lt_mul (Nat.two_pow_pos _), ← Nat.pow_add,
      Nat.sub_add_cancel (by omega)]
    exact byteNat_lt bs _
  rw [codeAt_in_byte bs (by omega), Nat.mod_eq_of_lt hlt]

/-- The low bits of a byte are that byte masked. -/
theorem codeAt_byte_start (bs : List Byte) (i : Nat) {w : Nat} (h : w ≤ 8) :
    codeAt bs (8 * i) w = byteNat bs i % 2 ^ w := by
  rw [codeAt_in_byte bs (by omega), Nat.mul_mod_right, Nat.mul_div_cancel_left i (by decide), Nat.shiftRight_zero]

/-- R148: at a legal width a code reaches past the byte it begins in, and at most two bytes further. -/
theorem codeAtShift_eq_codeAt (bs : List Byte) (q : Nat) {w : Nat} (hl : 9 ≤ w) (hw : w ≤ 16) :
    codeAtShift bs q w = codeAt bs q w := by
  obtain ⟨rem, rfl⟩ : ∃ rem, w = (8 - q % 8) + rem := ⟨w - (8 - q % 8), by omega⟩
  have hnext : q + (8 - q % 8) = 8 * (q / 8 + 1) := by omega
  rw [codeAt_add, codeAt_to_byte_end, hnext]
  simp only [codeAtShift, Nat.add_sub_cancel_left]
  split
  next hrem =>
    obtain ⟨last, rfl⟩ : ∃ last, rem = 8 + last := ⟨rem - 8, by omega⟩
    have hbyte : codeAt bs (8 * (q / 8 + 1)) 8 = byteNat bs (q / 8 + 1) := by
      rw [codeAt_byte_start bs _ (Nat.le_refl 8), Nat.mod_eq_of_lt (byteNat_lt bs _)]
    rw [codeAt_add, hbyte, ← Nat.mul_succ, codeAt_byte_start bs _ (by omega), Nat.shiftLeft_or_distrib,
      ← Nat.shiftLeft_add, ← Nat.or_assoc, Nat.add_comm 8 (8 - q % 8), Nat.add_sub_cancel_left]
    split
    next => rfl
    next hlast =>
      obtain rfl : last = 0 := by omega
      rw [Nat.pow_zero, Nat.mod_one, Nat.zero_shiftLeft, Nat.or_zero]
  next hrem => rw [codeAt_byte_start bs _ (by omega)]

/-- Settles O6: the pieces that the shift form joins are the code's own, whether or not the bytes hold all of them. -/
theorem shiftFormEqualsBitSum : Obligations.ShiftFormEqualsBitSum :=
  fun bs q _ hl hw _ => codeAtShift_eq_codeAt bs q hl hw

end Sys2Proof
end

section
/-!
PROOF. The rows of the Bit Code Reader: what `REFILL` loads (R144), what `EXTRACT` returns and refuses (R147), the flag
(R143), and how `NEXTCODE` ends in a session (R141, R145, R152).
-/

namespace Sys2Proof.Machine

/-! ## `REFILL` -/

theorem loadBuf_nil (buf : Vector Byte 16) : loadBuf [] buf = buf := by
  ext i hi
  simp [loadBuf]

theorem loadedGroup_of_no_byte {s : State} (h : (bytesToRead s.codewidth.toNat s).length = 0) :
    loadedGroup s = startGroup 0 s := by
  rw [loadedGroup, h, List.length_eq_zero_iff.1 h, loadGroup, startGroup_buf, loadBuf_nil]
  rfl

/-- R144, R145: at a legal width a refill loads what came, and the end of the stream is a group of no byte. -/
theorem refill_eq_loadedGroup {s : State} (hw : s.codewidth.toNat ≤ 16) :
    refill s = .next (decide ((bytesToRead s.codewidth.toNat s).length ≠ 0), loadedGroup s) := by
  rw [refill_of_width hw]
  split
  next h => rw [loadedGroup_of_no_byte h, h]; rfl
  next h => rw [decide_eq_true h]

/-- R73: a refill writes the bytes that came and leaves the rest of `BUF`. -/
theorem loadedGroup_buf_getElem? (s : State) {i : Nat} (hi : i < 16) :
    (loadedGroup s).buf.toList[i]? =
      if i < (bytesToRead s.codewidth.toNat s).length then s.input[s.inpos + i]? else s.buf.toList[i]? := by
  split
  next hnew => exact (loadBuf_new _ _ hi hnew).trans (bytesToRead_get hnew)
  next hold => exact loadBuf_old _ _ hi (Nat.not_lt.1 hold)

/-- R146: the margin as the rule writes it, over the integers. -/
theorem usableBits_eq_max (k : Nat) {w : Nat} (hw : 0 < w) :
    (usableBits k w : Int) = max 0 (8 * (k : Int) - ((w : Int) - 1)) := by
  rw [usableBits]
  omega

/-- Settles O18: the row answers with the group that the refill loads. -/
theorem refillLoadsOneGroup : Obligations.RefillLoadsOneGroup := by
  intro s hl hw
  obtain ⟨hbytes, husable, hoff, hforce, hinpos, hbase, -, -⟩ := loadedGroup_fields hw
  have hlen := bytesToRead_length s.codewidth.toNat s
  refine ⟨answerWith (if decide ((bytesToRead s.codewidth.toNat s).length ≠ 0) then .ok else .endOfStream)
    (loadedGroup s), ?_, hlen ▸ hinpos, hbase, ?_, hoff, hforce, ?_, fun i hi => ?_, ?_, rfl⟩
  · rw [exec, execRefill, refill_eq_loadedGroup hw, bindRes_next]
  · rw [answerWith_bytes, answerWith_inpos, hbytes, hinpos, Nat.add_sub_cancel_left]
  · rw [answerWith_bytes, answerWith_usable, hbytes, husable hl, usableBits_eq_max _ (by omega)]
  · rw [answerWith_bytes, answerWith_buf, hbytes, loadedGroup_buf_getElem? s hi]
  · rw [answerWith_bytes, answerWith_answer, hbytes]
    simp only [decide_eq_true_eq, ite_not]

/-! ## `EXTRACT` -/

theorem bufferCode_toNat {s : State} (hw : s.codewidth.toNat ≤ 16) :
    (bufferCode s).toNat = codeAt s.buf.toList s.bitoff.toNat s.codewidth.toNat := by
  have hlt := codeAt_lt s.buf.toList s.bitoff.toNat s.codewidth.toNat
  have hpow : 2 ^ s.codewidth.toNat ≤ 2 ^ 16 := Nat.pow_le_pow_right (by decide) hw
  rw [bufferCode, BitVec.toNat_ofNat, Nat.mod_eq_of_lt (Nat.lt_of_lt_of_le hlt hpow)]

/-- R146, R150: below the margin a whole code lies in the bytes fetched. -/
theorem code_end_le_of_lt_usableBits {q k w : Nat} (h : q < usableBits k w) : q + w ≤ 8 * k := by
  rw [usableBits] at h
  omega

/-- Settles O19: below the margin all bits of the code are fetched, at most the 128 bits of `BUF`. -/
theorem extractReturnsTheBitsAtOffset : Obligations.ExtractReturnsTheBitsAtOffset := by
  intro s hforce hready husable hbytes _ hw
  have hend := code_end_le_of_lt_usableBits (husable ▸ hready)
  have hextract : extract s = .next (bufferCode s, advanceOffset s) :=
    extract_next_iff.2 ⟨needsRefill_false_iff.2 ⟨hforce, hready⟩, hw, (bitsFetched_iff hbytes).2 hend, rfl, rfl⟩
  refine ⟨bufferCode s, bufferCode_toNat hw, bufferCode_lt hw, ?_, by omega⟩
  rw [exec, execExtract, hextract]
  rfl

theorem needsRefill_true_iff {s : State} :
    needsRefill s = true ↔ s.forceRefill = true ∨ s.usable.toNat ≤ s.bitoff.toNat := by
  simp [needsRefill]

/-- Settles O59: a code behind a refill is not extracted. -/
theorem extractNeedsItsPrecondition : Obligations.ExtractNeedsItsPrecondition := by
  intro s h
  rw [exec, execExtract, extract, if_pos (needsRefill_true_iff.2 h), bindRes_refused]

/-! ## `SIGNAL_REFILL` -/

/-- Settles O20: the row is that one write. -/
theorem signalRefillSetsTheFlag : Obligations.SignalRefillSetsTheFlag := fun _ => rfl

/-! ## `NEXTCODE` -/

/-- R144, R147: a refill clears `FORCE_REFILL`, and an extraction has found it clear. -/
theorem FetchCase.forceRefill_eq_false {s t : State} {f : Option Code} (h : FetchCase s f t) :
    t.forceRefill = false := by
  cases h with
  | inGroup h _ ht => exact ht ▸ (needsRefill_false_iff.1 h).1
  | atEnd _ _ _ ht => exact ht ▸ rfl
  | oneByte _ _ _ ht => exact ht ▸ rfl
  | newGroup _ _ _ ht => exact ht ▸ rfl

/-- R93: a fetched code has `CODEWIDTH` bits. -/
theorem FetchCase.code_lt {s t : State} {c : Code} (hw : s.codewidth.toNat ≤ 16) (h : FetchCase s (some c) t) :
    c.toNat < 2 ^ s.codewidth.toNat := by
  cases h with
  | inGroup _ hf _ => exact Option.some.inj hf ▸ bufferCode_lt hw
  | atEnd _ _ hf _ => cases hf
  | oneByte _ _ hf _ => cases hf
  | newGroup _ _ hf _ => exact Option.some.inj hf ▸ bufferCode_lt (s := loadedGroup s) hw

theorem ReaderStep.onlyReaderChanged {s t : State} (h : ReaderStep s t) (a : Answer) :
    OnlyReaderChanged s (answerWith a t) := by
  unfold OnlyReaderChanged
  rw [h]
  rfl

/-- Settles O21, from the frame of the fetch and the four ways in which it ends. -/
theorem nextcodeCompletesInTheReader : Obligations.NextcodeCompletesInTheReader := by
  intro s hs
  obtain ⟨f, t, hfetch, hcase⟩ := nextcode_session hs
  refine ⟨answerWith (fetchAnswer f) t, ?_, (nextcode_readerStep hfetch).onlyReaderChanged _,
    hcase.forceRefill_eq_false, ?_⟩
  · rw [exec, execNextcode, hfetch, bindRes_next]
  · cases f with
    | none => exact .inl rfl
    | some c => exact .inr ⟨c, rfl, hcase.code_lt hs.width_le_sixteen⟩

/-- R152: from two turns on, more turns of the loop change nothing. -/
theorem nextcodeLoop_eq_fetchResult {s : State} (hs : SessionInv s) (n : Nat) :
    nextcodeLoop (n + 2) s = .next (fetchResult s) := by
  obtain ⟨f, t, hloop, hcase⟩ := nextcodeLoop_session hs n
  rw [hloop, hcase.eq_fetchResult]

/-- Settles O22: the loop with its own bound and the loop with two turns end in the same way. -/
theorem nextcodeNeedsAtMostTwoTurns : Obligations.NextcodeNeedsAtMostTwoTurns := by
  intro s hs
  rw [nextcode, nextcodeLoop_eq_fetchResult hs, nextcodeLoop_eq_fetchResult hs 0]

/-- R145: a fetch of no code leaves an empty group behind the last byte of the stream. -/
theorem FetchCase.end_of_stream {s t : State} (hl : 2 ≤ s.codewidth.toNat) (hin : s.inpos ≤ s.input.length)
    (h : FetchCase s none t) : t.inpos = s.input.length ∧ t.bytes = 0 ∧ t.usable = 0 ∧ t.bitoff = 0 := by
  have hlen := bytesToRead_length s.codewidth.toNat s
  have hempty (u : State) : (startGroup 0 u).usable = 0 := by simp [usableBits]
  cases h with
  | inGroup _ hf _ => cases hf
  | atEnd _ hk _ ht =>
    subst ht
    refine ⟨?_, rfl, hempty s, rfl⟩
    rw [startGroup_inpos]
    omega
  | oneByte _ hk _ ht =>
    subst ht
    refine ⟨?_, rfl, hempty _, rfl⟩
    rw [startGroup_inpos, loadedGroup, loadGroup_inpos, startGroup_inpos]
    omega
  | newGroup _ _ hf _ => cases hf

/-- Settles O24, from the two ways in which a fetch ends with no code. -/
theorem endOfStreamMeansNoByteLeft : Obligations.EndOfStreamMeansNoByteLeft := by
  intro s t hinv hin hfetch
  have hs := hinv.session hin
  exact (nextcode_cases hs hfetch).end_of_stream (Nat.le_trans (by decide) hs.width_low) hinv.inpos_le

/-- R97: behind a refill a fetched code is the first of the group that starts at `INPOS`. -/
theorem FetchCase.first_of_group {s t : State} {c : Code} (hw : s.codewidth.toNat ≤ 16)
    (hrefill : needsRefill s = true) (h : FetchCase s (some c) t) :
    t.bufbase = s.inpos ∧ t.bitoff.toNat = s.codewidth.toNat := by
  cases h with
  | inGroup hready _ _ => exact absurd (hrefill.symm.trans hready) nofun
  | atEnd _ _ hf _ => cases hf
  | oneByte _ _ hf _ => cases hf
  | newGroup _ _ _ ht =>
    obtain ⟨-, -, hoff, -, -, hbase, hcw, -⟩ := loadedGroup_fields hw
    have hzero : (0 : BitVec 8).toNat = 0 := rfl
    subst ht
    refine ⟨hbase, ?_⟩
    rw [advanceOffset_bitoff, hoff, hcw, hzero, Nat.zero_add, BitVec.toNat_ofNat]
    exact Nat.mod_eq_of_lt (by omega)

/-- Settles O25: two bytes hold a whole code, so the fetch returns the one at the position R24 names. -/
theorem forcedRefillStartsTheNextGroup : Obligations.ForcedRefillStartsTheNextGroup := by
  intro s hinv hin hforce hleft
  have hs := hinv.session hin
  have hw := hs.width_le_sixteen
  have hrefill : needsRefill s = true := needsRefill_true_iff.2 (.inl hforce)
  have hpos := fetchPos_of_refill hrefill
  obtain ⟨c, t, hfetch, hcode, -⟩ := (nextcodeReadsTheStreamBits s hinv hin).1 (by omega)
  obtain ⟨hbase, hoff⟩ := (nextcode_cases hs hfetch).first_of_group hw hrefill
  exact ⟨c, t, hfetch, hbase, hoff, hpos ▸ hcode⟩

end Sys2Proof.Machine
end

section
/-!
PROOF. The rows of the Dictionary Table: what `DT_RESET` and `DT_APPEND` write (R171, R172), what `DT_RESOLVE` answers
(R174), the string that `STRING` answers (R178), and that the table only ever grows at its end (R75).
-/

namespace Sys2Proof.Machine

/-! ## `DT_RESET` and `DT_APPEND` -/

/-- Settles O26: the row is that one write, with the two values of `FIRST` written out. -/
theorem dtResetTruncatesTheTable : Obligations.DtResetTruncatesTheTable := by
  intro s
  rw [← ofNat_firstIndex]
  rfl

/-- What the RAM holds after one write (R71). -/
theorem ramLookup_ramInsert (m : Memory) (a b : Nat) (e : Entry) :
    ramLookup (ramInsert m a e) b = if b = a then some e else ramLookup m b := by
  split
  next h => exact h ▸ ramLookup_ramInsert_same m a e
  next h => exact ramLookup_ramInsert_other m e h

/-- R175: below the cap `NEXTFREE` is the address of one of the 65536 locations. -/
theorem nextfree_lt_of_below_cap {s : State} (hcap : s.nextfree.toNat < maxmaxOf s) (hmb : s.maxbits.toNat ≤ 16) :
    s.nextfree.toNat < 65536 :=
  Nat.lt_of_lt_of_le hcap (Nat.pow_le_pow_right (by decide) hmb : 2 ^ s.maxbits.toNat ≤ 2 ^ 16)

/-- R172: below the cap the append writes the location `NEXTFREE`. -/
theorem dtAppend_below_cap {s : State} (hcap : s.nextfree.toNat < maxmaxOf s) (hmb : s.maxbits.toNat ≤ 16) (p : Code)
    (b : Byte) :
    dtAppend p b s = .next (some s.nextfree.toNat,
      growTable { s with ram := ramInsert s.ram s.nextfree.toNat { pre := p, suffix := b } }) := by
  rw [dtAppend, if_pos hcap, dictWrite, if_pos (nextfree_lt_of_below_cap hcap hmb)]
  rfl

/-- R173: at the cap the append is a no-op. -/
theorem dtAppend_at_cap {s : State} (hcap : maxmaxOf s ≤ s.nextfree.toNat) (p : Code) (b : Byte) :
    dtAppend p b s = .next (none, s) := if_neg (Nat.not_lt.2 hcap)

/-- `NEXTFREE` of a table below the cap grows without a wrap (R172). -/
theorem growTable_nextfree_toNat {s : State} (h : s.nextfree.toNat < 65536) :
    (growTable s).nextfree.toNat = s.nextfree.toNat + 1 := by
  rw [growTable_nextfree, BitVec.toNat_ofNat]
  omega

/-- Settles O27, by the two cases of the append. -/
theorem dtAppendWritesOneLocationOrNothing : Obligations.DtAppendWritesOneLocationOrNothing := by
  refine ⟨fun s p b hcap hmb => ?_, fun s p b hcap => ?_⟩
  · have hlow := nextfree_lt_of_below_cap hcap hmb
    rw [exec, execDtAppend, dtAppend_below_cap hcap hmb, bindRes_next]
    exact ⟨_, rfl, growTable_nextfree_toNat hlow, fun a => ramLookup_ramInsert _ _ a _, rfl⟩
  · rw [exec, execDtAppend, dtAppend_at_cap hcap]
    rfl

/-! ## `DT_RESOLVE` -/

/-- Settles O28, by what `DictRead` answers and refuses. -/
theorem dtResolveReadsValidIndicesOnly : Obligations.DtResolveReadsValidIndicesOnly := by
  refine ⟨fun s a e hlow hhigh hlookup => ?_, fun s a hinvalid => ?_⟩
  · rw [exec, execDtResolve, dtResolve_of_valid hlow hhigh hlookup]
    rfl
  · have hrefused : dtResolve a s = .refused .resolveOutOfRange :=
      dictRead_refused_iff.2 ⟨Bool.eq_false_iff.2 (mt validIndex_iff.1 hinvalid), rfl⟩
    rw [exec, execDtResolve, hrefused, bindRes_refused]

/-! ## `STRING` -/

/-- Everything the row can answer on an empty stack: the string of the definition, the state as it was (R178). -/
theorem exec_string_next_iff {s t : State} {a : Code} (hstk : s.stk = []) :
    exec (.string a) s = .next t ↔ ∃ bs, stringOf s a = some bs ∧ t = answerWith (.bytes bs) s := by
  rw [exec, execString, bindRes_eq_next_iff]
  constructor
  · rintro ⟨⟨⟨b, rest⟩, u⟩, hstack, hanswer⟩
    obtain ⟨hstring, rfl⟩ := (stringStack_iff hstk).1 hstack
    exact ⟨b :: rest, hstring, (Host.Outcome.next.inj hanswer).symm⟩
  · rintro ⟨bs, hstring, rfl⟩
    cases bs with
    | nil => exact absurd rfl (stringFrom_ne_nil hstring)
    | cons b rest => exact ⟨((b, rest), s), (stringStack_iff hstk).2 ⟨hstring, rfl⟩, rfl⟩

/-- Settles O29: the row answers nothing but the string of the definition, and the answer tells which string it is. -/
theorem stackFormEqualsStringDefinition : Obligations.StackFormEqualsStringDefinition := by
  intro s a bs hstk
  rw [exec_string_next_iff hstk]
  constructor
  · rintro ⟨bs', hstring, hstate⟩
    have hanswer : Answer.bytes bs = .bytes bs' := congrArg State.answer hstate
    rwa [Answer.bytes.inj hanswer]
  · exact fun hstring => ⟨bs, hstring, rfl⟩

/-- R178: a string is the byte of a literal, or the string of an entry's prefix and then its suffix. -/
theorem stringOf_eq_some {s : State} {a : Code} {bs : List Byte} (h : stringOf s a = some bs) :
    (isLiteral a = true ∧ bs = [literalByte a]) ∨
    (isLiteral a = false ∧ ∃ e bs', dtResolve a s = .next e ∧ stringOf s e.pre = some bs' ∧ bs = bs' ++ [e.suffix]) := by
  obtain hliteral | ⟨hindex, e, bs', hentry, hprefix, hbs⟩ := stringFrom_eq_some (n := 65535) h
  · exact .inl hliteral
  · exact .inr ⟨hindex, e, bs', hentry, stringFrom_succ hprefix, hbs⟩

/-- Settles O30: a chain of the session ends, and its string unfolds once by R178. -/
theorem stringFollowsItsDefinition : Obligations.StringFollowsItsDefinition := by
  intro s a hs hstk hnames
  obtain ⟨b, rest, hstring, -, hlength⟩ := stringOf_of_session hs hnames
  refine ⟨b :: rest, hstring, (exec_string_next_iff hstk).2 ⟨_, hstring, rfl⟩, ?_⟩
  obtain ⟨hliteral, hbyte⟩ | ⟨hindex, e, bs, hentry, hprefix, hbs⟩ := stringOf_eq_some hstring
  · have hlow := isLiteral_iff.1 hliteral
    exact ⟨fun _ => hbyte, fun hhigh => absurd hlow (Nat.not_lt.2 hhigh)⟩
  · have hhigh := isLiteral_false_iff.1 hindex
    obtain ⟨hrest, hbound⟩ := hlength hhigh
    have hpos := List.length_pos_iff.2 hrest
    obtain ⟨-, hlookup⟩ := dictRead_next_iff.1 hentry
    exact ⟨fun hlow => absurd hlow (Nat.not_lt.2 hhigh), fun _ =>
      ⟨⟨e, bs, hlookup, hprefix, hbs⟩, Nat.succ_le_succ hpos, hbound⟩⟩

/-! ## The table is append-only -/

/-- `LIT`, `REF` and `KWK` leave what the common tail leaves (R201). -/
theorem tailEffect_of_exec {s t : State} {i : Instr} (hs : SessionInv s) (hstk : s.stk = []) (hst : s.st = .running)
    (htail : isTailInstr i = true) (hexec : exec i s = .next t) : ∃ c b rest, TailEffect s t c b rest := by
  have hin : inSession s = true := by rw [inSession, hst]; rfl
  have heffect {item : CodeItem} (h : exec (codeInstr item) s = .next t) : CodeEffect s item t :=
    runCode_effect (fun _ => hs) hstk hin (exec_codeInstr_eq_runCode item s ▸ h)
  cases i with
  | lit b => cases heffect (item := .lit b) hexec with | lit _ ht => exact ⟨_, _, _, ht⟩
  | kwk c => cases heffect (item := .kwk c) hexec with | kwk _ _ _ ht => exact ⟨_, _, _, ht⟩
  | ref c => cases heffect (item := .ref c) hexec with | ref _ _ _ ht => exact ⟨_, _, _, ht⟩
  | _ => cases htail

/-- Settles O39: the tail writes at `NEXTFREE` only, and no chain of `s` goes there. -/
theorem tailStepKeepsEveryString : Obligations.TailStepKeepsEveryString := by
  intro s t i a hs hstk hst _ htail hexec hnames
  obtain ⟨c, b, rest, heffect⟩ := tailEffect_of_exec hs hstk hst htail hexec
  exact heffect.stringFrom_old hs _ hnames

end Sys2Proof.Machine
end

section
/-!
PROOF. Each class of code in its place (43_decoder.md): the rows that only write registers, as equations; `LIT`, `REF`
and `KWK` by the common tail and the string they give it.
-/

namespace Sys2Proof.Machine

/-! ## The rows that neither read nor grow the table -/

theorem inSession_of_start {s : State} (hst : s.st = .start) : inSession s = true := by rw [inSession, hst]; rfl

theorem inSession_of_running {s : State} (hst : s.st = .running) : inSession s = true := by rw [inSession, hst]; rfl

theorem codeStep_of_class {isClass : Bool} {s : State} {r : Res State} (hin : inSession s = true)
    (hclass : isClass = true) : codeStep isClass s r = r := by
  rw [codeStep, if_pos hin, if_pos hclass]

/-- Settles O31, by the two rows of the first code. -/
theorem firstCodeMustBeALiteral : Obligations.FirstCodeMustBeALiteral := by
  refine ⟨fun s b hst => ?_, fun s c hst hhigh => ?_, rfl, rfl⟩
  · exact codeStep_of_class (inSession_of_start hst) (beq_iff_eq.2 hst)
  · refine codeStep_of_class (inSession_of_start hst) ?_
    rw [hst, isLiteral_false_iff.2 hhigh]
    rfl

/-- Settles O32, by the two rows of the code after a CLEAR. -/
theorem codeAfterClearMustBeALiteral : Obligations.CodeAfterClearMustBeALiteral := by
  refine ⟨fun s b hst hpc => ?_, fun s c hst hpc hhigh => ?_, rfl, rfl⟩
  · refine codeStep_of_class (inSession_of_running hst) ?_
    rw [hst, hpc]
    rfl
  · refine codeStep_of_class (inSession_of_running hst) ?_
    rw [hst, hpc, isLiteral_false_iff.2 hhigh]
    rfl

/-- Settles O33, by the row `CODE.OUT_OF_RANGE`. -/
theorem codeAboveNextfreeIsOutOfRange : Obligations.CodeAboveNextfreeIsOutOfRange := by
  refine ⟨fun s c hst hpc hhigh hclr habove => ?_, rfl, rfl⟩
  refine codeStep_of_class (inSession_of_running hst) ?_
  rw [plainRunning_iff.2 ⟨hst, hpc⟩, isLiteral_false_iff.2 hhigh,
    Bool.eq_false_of_not_eq_true (mt isClear_iff.1 hclr)]
  exact decide_eq_true habove

/-- R9: `FIRST` of block mode. -/
theorem ofNat_firstOf_of_block {s : State} (hblock : s.block = true) : BitVec.ofNat 17 (firstOf s) = 257 := by
  rw [firstOf, ofNat_firstIndex, if_pos hblock]

/-- Settles O34: the row's writes with `FIRST` of block mode written out; the class `CLR` has `BLOCK = 1` in its
condition. -/
theorem clrRestartsAtWidthNine : Obligations.ClrRestartsAtWidthNine := by
  refine ⟨fun s hst hpc hblock => ?_, fun x c hblock hclr => ?_⟩
  · have hclass : (plainRunning s && s.block) = true := by rw [plainRunning_iff.2 ⟨hst, hpc⟩, hblock]; rfl
    rw [exec, execClr, codeStep_of_class (inSession_of_running hst) hclass, dtReset, ofNat_firstOf_of_block hblock]
    rfl
  · have hclass := classHolds_classify x c
    rw [hclr] at hclass
    obtain ⟨-, -, hmode⟩ := hclass
    exact Bool.false_ne_true (hblock.symm.trans hmode)

/-- Settles O41, by the row `EOS`. -/
theorem endOfStreamEndsTheSession : Obligations.EndOfStreamEndsTheSession := fun _ => execEos_session

/-! ## `LIT`, `REF` and `KWK` -/

/-- Settles O35: the common tail answers in every legal session. -/
theorem litEmitsAndAppends : Obligations.LitEmitsAndAppends := by
  intro s b hs hst hpc
  obtain ⟨t, htail, heffect⟩ := commonTail_effect hs (literalCode b) b []
  exact ⟨t, (codeStep_of_class (inSession_of_running hst) (plainRunning_iff.2 ⟨hst, hpc⟩)).trans htail, heffect⟩

/-- In a legal session an item that is the class of its code completes, with its effect. -/
theorem exec_codeInstr_effect {i : CodeItem} {s : State} (hs : s.pendingClear = false → SessionInv s)
    (hstk : s.stk = []) (hin : inSession s = true) (hclass : ClassHolds (codeContext s) (codeInstr i)) :
    ∃ t, exec (codeInstr i) s = .next t ∧ CodeEffect s i t := by
  obtain ⟨t, hrun⟩ := runCode_answers hs hstk hin hclass
  exact ⟨t, (exec_codeInstr_eq_runCode i s).trans hrun, runCode_effect hs hstk hin hrun⟩

/-- Settles O36: the string of a table index has two bytes or more. -/
theorem refEmitsItsString : Obligations.RefEmitsItsString := by
  intro s c hs hstk hst hpc hlow hhigh
  have hclass : ClassHolds (codeContext s) (.ref c) :=
    ⟨start_eq_false_of_running (beq_iff_eq.2 hst), hpc, hlow, hhigh⟩
  obtain ⟨t, hexec, heffect⟩ :=
    exec_codeInstr_effect (i := .ref c) (fun _ => hs) hstk (inSession_of_running hst) hclass
  cases heffect with
  | @ref _ b rest _ _ _ hstring ht =>
    obtain ⟨b', rest', hstring', -, hlong⟩ := stringOf_of_session hs (.inr ⟨hlow, hhigh⟩)
    obtain ⟨rfl, rfl⟩ := List.cons.inj (Option.some.inj (hstring.symm.trans hstring'))
    have ⟨hrest, _⟩ := hlong (Nat.le_trans (firstOf_ge s) hlow)
    exact ⟨b, rest, t, hstring, hrest, hexec, ht⟩

/-- Settles O37: the last string begins with `LASTFIRST` (I6), and a code of the current width is below the cap, so the
append happens. -/
theorem kwkRepeatsTheLastString : Obligations.KwkRepeatsTheLastString := by
  intro s c hs hstk hst hpc hnext
  have hlow : firstOf s ≤ c.toNat := hnext ▸ hs.first_le
  have hclr : ¬(s.block = true ∧ c.toNat = 256) :=
    mt isClear_iff.2 (Bool.eq_false_iff.1 (isClear_eq_false_of_firstIndex_le hlow))
  have hclass : ClassHolds (codeContext s) (.kwk c) :=
    ⟨start_eq_false_of_running (beq_iff_eq.2 hst), hpc, hclr, Nat.le_trans (firstOf_ge s) hlow, hnext⟩
  obtain ⟨t, hexec, heffect⟩ :=
    exec_codeInstr_effect (i := .kwk c) (fun _ => hs) hstk (inSession_of_running hst) hclass
  cases heffect with
  | @kwk _ b rest _ _ _ hstring ht =>
    have hfirst := hs.last_first hst hpc
    rw [hstring] at hfirst
    obtain rfl : b = s.lastfirst := Option.some.inj hfirst
    refine ⟨rest, t, hstring, hexec, ht, fun hwidth => ?_⟩
    have hcap : s.nextfree.toNat < maxmaxOf s :=
      hnext ▸ Nat.lt_of_lt_of_le hwidth (Nat.pow_le_pow_right (by decide) hs.width_high)
    refine ⟨by rw [ht.grown, hnext, Nat.min_eq_left hcap], ?_⟩
    rw [ht.stringOf_new hs (hs.last_names hst hpc) hcap hnext, hstring]
    rfl

/-- R203: in a legal session the bump happens exactly when the append has made `NEXTFREE = 2^CODEWIDTH` below
`MAXBITS`. -/
theorem TailEffect.crossed_iff {s t : State} {c : Code} {b : Byte} {rest : List Byte} (e : TailEffect s t c b rest)
    (hs : SessionInv s) : s.maxcode.toNat < t.nextfree.toNat ↔
      s.nextfree.toNat + 1 = 2 ^ s.codewidth.toNat ∧ s.codewidth.toNat < s.maxbits.toNat := by
  have hgrown := e.grown
  have hle := hs.nextfree_le
  obtain ⟨hwidth, hmaxcode⟩ | ⟨hwidth, hmaxcode⟩ := maxcode_cases hs
  · omega
  · have hpos : 0 < 2 ^ s.codewidth.toNat := by positivity
    have hpow : 2 ^ s.codewidth.toNat < maxmaxOf s := Nat.pow_lt_pow_right (by decide) hwidth
    omega

/-- Settles O40: the tail's effect by whether the bump happens. -/
theorem widthGrowsExactlyAtTheBumpPoint : Obligations.WidthGrowsExactlyAtTheBumpPoint := by
  intro s t i hs hstk hst _ htail hexec
  obtain ⟨c, b, rest, e⟩ := tailEffect_of_exec hs hstk hst htail hexec
  have hwidth := e.width
  have hmaxcode := e.maxcode
  have hrefill := e.refill
  rw [← e.crossed_iff hs]
  refine ⟨fun hcross => ?_, fun hcross => ?_⟩
  · rw [if_pos hcross] at hwidth
    rw [decide_eq_true hcross, Bool.or_true] at hrefill
    exact ⟨hwidth, hwidth ▸ hmaxcode, hrefill⟩
  · rw [if_neg hcross] at hwidth
    rw [decide_eq_false hcross, Bool.or_false] at hrefill
    rw [hwidth, ← hs.maxcode_eq] at hmaxcode
    exact ⟨BitVec.eq_of_toNat_eq hwidth, hrefill, BitVec.eq_of_toNat_eq hmaxcode⟩

end Sys2Proof.Machine
end

section
/-!
PROOF. One `DECODE_NEXT` of a legal session (R190, R191): it ends the session, or runs one code with an effect of one of
four kinds, which tell the state, the width and the size of the table after it; and the states it does not leave.
-/

namespace Sys2Proof.Machine

/-! ## The four kinds of effect -/

/-- What the effects of the classes have in common: a raise (R236), a literal in the place where one must stand (R192,
R195), a clear (R194), the common tail (R201). -/
inductive EffectKind (s : State) (i : CodeItem) (t : State) : Prop where
  | raised (hinvalid : isInvalidClass i = true) (cause : Cause) (c : Code) (ht : t = raise cause c s)
  | literal (hvalid : isInvalidClass i = false) (hplace : s.st = .start ∨ s.pendingClear = true) (b : Byte)
      (pendingClear : Bool)
      (ht : t = { s with
        out := s.out ++ [b], lastcode := literalCode b, lastfirst := b, st := .running, pendingClear,
        answer := .emitted 1 })
  | clear (hvalid : isInvalidClass i = false) (hst : s.st = .running) (hblock : s.block = true)
      (ht : t = answerWith (.emitted 0) { signalRefill (restartWidth (dtReset s)) with pendingClear := true })
  | tail (hvalid : isInvalidClass i = false) (hplain : plainRunning s = true) (c : Code) (b : Byte)
      (rest : List Byte) (ht : TailEffect s t c b rest)

theorem CodeEffect.kind {s t : State} {i : CodeItem} (h : CodeEffect s i t)
    (hclass : ClassHolds (codeContext s) (codeInstr i)) : EffectKind s i t := by
  cases h with
  | @first b hst => exact .literal rfl (.inl hst) b s.pendingClear rfl
  | @postclr b hst =>
    obtain ⟨-, hpc⟩ := hclass
    refine .literal rfl (.inr hpc) b false ?_
    rw [← hst]
    rfl
  | clr hst hblock => exact .clear rfl hst hblock rfl
  | lit hplain ht => exact .tail rfl hplain _ _ _ ht
  | kwk hplain _ _ ht => exact .tail rfl hplain _ _ _ ht
  | ref hplain _ _ ht => exact .tail rfl hplain _ _ _ ht
  | firstInvalid | postclrInvalid | outOfRange => exact .raised rfl _ _ rfl

section Kinds

variable {s t : State} {i : CodeItem}

theorem TailEffect.st_eq {c : Code} {b : Byte} {rest : List Byte} (e : TailEffect s t c b rest) : t.st = s.st := by
  rw [e.frame]

/-- R206: a code that raises leads to `Fault`, every other to `Running`. -/
theorem EffectKind.st_eq (h : EffectKind s i t) : t.st = if isInvalidClass i then .fault else .running := by
  cases h with
  | raised hinvalid cause c ht => rw [ht, if_pos hinvalid, raise_st]
  | literal hvalid _ b pendingClear ht => rw [ht, hvalid, if_neg Bool.false_ne_true]
  | clear hvalid hst _ ht =>
    rw [ht, hvalid, if_neg Bool.false_ne_true]
    exact hst
  | tail hvalid hplain c b rest ht =>
    obtain ⟨hst, -⟩ := plainRunning_iff.1 hplain
    rw [ht.st_eq, hst, hvalid, if_neg Bool.false_ne_true]

/-- R190, R236: a code is told as the bytes it emits, or as a fault. -/
theorem EffectKind.answer_cases (h : EffectKind s i t) :
    (t.st = .running ∧ ∃ n, t.answer = .emitted n) ∨ (t.st = .fault ∧ t.answer = .fault) := by
  have hst := h.st_eq
  cases h with
  | raised hinvalid cause c ht => exact .inr ⟨by rw [hst, if_pos hinvalid], by rw [ht, raise_answer]⟩
  | literal hvalid _ b pendingClear ht => exact .inl ⟨by rw [hst, hvalid]; rfl, 1, by rw [ht]⟩
  | clear hvalid _ _ ht => exact .inl ⟨by rw [hst, hvalid]; rfl, 0, by rw [ht, answerWith_answer]⟩
  | tail hvalid _ c b rest ht => exact .inl ⟨by rw [hst, hvalid]; rfl, rest.length + 1, ht.told⟩

/-- R207: only a clear, which alone emits nothing, takes the width back; every other code leaves it or adds one. -/
theorem EffectKind.width_cases (h : EffectKind s i t) (hs : s.pendingClear = false → SessionInv s) :
    (t.answer = .emitted 0 ∧ t.codewidth = 9 ∧ s.block = true ∧ t.pendingClear = true) ∨
    (t.answer ≠ .emitted 0 ∧ (t.codewidth.toNat = s.codewidth.toNat ∨
      t.codewidth.toNat = s.codewidth.toNat + 1 ∧ s.codewidth.toNat < s.maxbits.toNat)) := by
  cases h with
  | raised _ cause c ht => exact .inr (ht ▸ ⟨nofun, .inl rfl⟩)
  | literal _ _ b pendingClear ht => exact .inr (ht ▸ ⟨nofun, .inl rfl⟩)
  | clear _ _ hblock ht => exact .inl (ht ▸ ⟨rfl, rfl, hblock, rfl⟩)
  | tail _ hplain c b rest ht =>
    obtain ⟨-, hpc⟩ := plainRunning_iff.1 hplain
    refine .inr ⟨by rw [ht.told]; exact nofun, ?_⟩
    obtain ⟨hsame, -⟩ | ⟨hgrown, hlt, -⟩ := ht.width_cases (hs hpc)
    · exact .inl hsame
    · exact .inr ⟨hgrown, hlt⟩

/-- R208: the table after a code that leads to `Running`. -/
theorem EffectKind.nextfree_eq (h : EffectKind s i t) (hrun : t.st = .running) :
    t.nextfree.toNat =
      if t.answer = .emitted 0 then 257
      else if s.st = .start ∨ s.pendingClear = true then s.nextfree.toNat
      else min (s.nextfree.toNat + 1) (maxmaxOf s) := by
  cases h with
  | raised _ cause c ht =>
    subst ht
    cases hrun
  | literal _ hplace b pendingClear ht => rw [ht, if_neg nofun, if_pos hplace]
  | clear _ _ hblock ht =>
    rw [ht, answerWith_answer, if_pos rfl, dtReset, ofNat_firstOf_of_block hblock]
    rfl
  | tail _ hplain c b rest ht =>
    obtain ⟨hst, hpc⟩ := plainRunning_iff.1 hplain
    have htold : t.answer ≠ .emitted 0 := by rw [ht.told]; exact nofun
    rw [if_neg htold, if_neg (by simp [hst, hpc]), ht.grown]

end Kinds

/-! ## `DECODE_NEXT` in a legal session -/

theorem ReaderStep.codeContext_eq {s u : State} (h : ReaderStep s u) : codeContext u = codeContext s := by rw [h]; rfl

/-- What running a fetch of a legal session leaves: the session ended, or the effect of the code fetched. -/
theorem runFetched_cases {s u t : State} {f : Option Code} (hi : InvBase s) (hin : inSession s = true)
    (hfetch : nextcode s = .next (f, u)) (hrun : runFetched (f, u) = .next t) :
    (f = none ∧ t = { u with st := .done, answer := .done }) ∨
    (∃ c, f = some c ∧ EffectKind u (classify (codeContext s) c) t) := by
  have hread := nextcode_readerStep hfetch
  have hinu := hread.inSession_eq.trans hin
  cases f with
  | none => exact .inl ⟨rfl, (Host.Outcome.next.inj ((execEos_session hinu).symm.trans hrun)).symm⟩
  | some c =>
    have hstk : u.stk = [] := by rw [hread]; exact hi.stack_empty
    rw [← hread.codeContext_eq]
    exact .inr ⟨c, rfl, (runCode_effect ((hi.session hin).fetched hfetch).session hstk hinu hrun).kind
      (classHolds_classify _ c)⟩

/-- A `DECODE_NEXT` that answers in a legal session, by its fetch and what it ran. -/
theorem execDecodeNext_session {s t : State} (hi : InvBase s) (hin : inSession s = true)
    (h : execDecodeNext s = .next t) :
    ∃ f u, nextcode s = .next (f, u) ∧ ReaderStep s u ∧
      ((f = none ∧ t = { u with st := .done, answer := .done }) ∨
        (∃ c, f = some c ∧ EffectKind u (classify (codeContext s) c) t)) := by
  obtain ⟨hout, -⟩ | ⟨-, f, u, hfetch, hrun⟩ := execDecodeNext_next_iff.1 h
  · exact absurd (hin.symm.trans hout) nofun
  · exact ⟨f, u, hfetch, nextcode_readerStep hfetch, runFetched_cases hi hin hfetch hrun⟩

/-- Settles O42: the fetch and what it runs both answer, and the effect says how that is told. -/
theorem decodeNextRunsOneCode : Obligations.DecodeNextRunsOneCode := by
  intro s hinv hin
  have hs := hinv.session hin
  obtain ⟨f, u, hfetch, -⟩ := nextcode_session hs
  obtain ⟨t, hrun⟩ := runFetched_answers hs hinv.stack_empty hin hfetch
  refine ⟨f, u, t, hfetch, execDecodeNext_next_iff.2 (.inr ⟨hin, f, u, hfetch, hrun⟩), ?_⟩
  obtain ⟨rfl, rfl⟩ | ⟨c, rfl, hkind⟩ := runFetched_cases hinv.toInvBase hin hfetch hrun
  · exact ⟨nofun, fun _ => rfl, .inr (.inl ⟨rfl, rfl⟩)⟩
  · refine ⟨?_, nofun, hkind.answer_cases.imp_right .inr⟩
    rintro _ ⟨⟩
    exact (exec_codeInstr_eq_runCode _ u).trans hrun

/-- Settles O51: the fetch leaves the width, and the code's effect says what becomes of it. -/
theorem widthIsMonotonicBetweenClears : Obligations.WidthIsMonotonicBetweenClears := by
  intro s t hinv hin hexec
  obtain ⟨f, u, hfetch, hread, hrun⟩ := execDecodeNext_session hinv.toInvBase hin hexec
  have hcw : u.codewidth = s.codewidth := by rw [hread]
  have hmb : u.maxbits = s.maxbits := by rw [hread]
  have hblock : u.block = s.block := by rw [hread]
  obtain ⟨-, rfl⟩ | ⟨c, -, hkind⟩ := hrun
  · exact ⟨fun _ => .inl (congrArg _ hcw), nofun⟩
  · obtain ⟨htold, hnine, hmode, hpc⟩ | ⟨htold, hwidth⟩ :=
      hkind.width_cases ((hinv.session hin).fetched hfetch).session
    · exact ⟨fun h => absurd htold h, fun _ => ⟨by rw [hnine]; rfl, hblock ▸ hmode, hpc⟩⟩
    · exact ⟨fun _ => hcw ▸ hmb ▸ hwidth, fun h => absurd h htold⟩

/-- Settles O55: the fetch leaves the table, and the code's effect says how it grows. -/
theorem tableGrowsOncePerCode : Obligations.TableGrowsOncePerCode := by
  intro s t hinv hin hexec hrunning
  obtain ⟨f, u, -, hread, ⟨-, rfl⟩ | ⟨c, -, hkind⟩⟩ := execDecodeNext_session hinv.toInvBase hin hexec
  · cases hrunning
  · have hgrown := hkind.nextfree_eq hrunning
    rw [hread] at hgrown
    exact hgrown

/-! ## The transitions of `STATE` -/

theorem headerEffect_st (h : HeaderItem) (s : State) :
    (headerEffect h s).st = if headerAccepted h then .start else .fault := by
  cases h <;> rfl

theorem execOpenCommand_st {s t : State} (h : execOpenCommand s = .next t) :
    t.st = if s.st = .idle then
      (if headerAccepted (decodeHeader (bytesToRead 3 s)) then .start else .fault) else s.st := by
  obtain ⟨hidle, rfl⟩ | ⟨hidle, rfl⟩ := execOpenCommand_next_iff.1 h
  · rw [if_neg hidle, refuseCommand_st]
  · rw [if_pos hidle, headerEffect_st]

theorem execDecodeNext_outside_session {s : State} (h : inSession s = false) :
    execDecodeNext s = .next (refuseCommand s) :=
  execDecodeNext_next_iff.2 (.inl ⟨h, rfl⟩)

/-- R206: where `DECODE_NEXT` takes `STATE`, by what it fetched. -/
theorem runFetched_st {s u t : State} {f : Option Code} (hi : InvBase s) (hin : inSession s = true)
    (hfetch : nextcode s = .next (f, u)) (hrun : runFetched (f, u) = .next t) : t.st = stateAfter s f := by
  obtain ⟨rfl, rfl⟩ | ⟨c, rfl, hkind⟩ := runFetched_cases hi hin hfetch hrun
  · rfl
  · exact hkind.st_eq

/-- Settles O49, by the action the host takes. -/
theorem stateTransitionsAreTheListedOnes : Obligations.StateTransitionsAreTheListedOnes := by
  intro s t rest hinv hstep
  refine ⟨fun hhost => ?_, fun hhost => ?_, fun stream hhost => ?_, fun hhost hout => ?_,
    fun f u hhost hin hfetch => ?_⟩
  · rw [step, hhost] at hstep
    exact Host.Outcome.next.inj hstep ▸ rfl
  · rw [step_openStream hhost] at hstep
    exact execOpenCommand_st (s := s.withHost rest) hstep
  · rw [step, hhost] at hstep
    obtain ⟨-, rfl⟩ := presentStream_next_iff.1 hstep
    rfl
  · rw [step, hhost] at hstep
    have hrefused := execDecodeNext_outside_session (s := s.withHost rest) hout
    exact Host.Outcome.next.inj (hrefused.symm.trans hstep) ▸ rfl
  · rw [step_decodeNext hhost hin hfetch] at hstep
    exact runFetched_st (s := s.withHost rest) (hinv.toInvBase.withHost rest) hin hfetch hstep

/-- Settles O57: in `Done` and `Fault` the two commands are refused, and no stream can be made available. -/
theorem doneAndFaultAreAbsorbing : Obligations.DoneAndFaultAreAbsorbing := by
  intro s t a rest hst hhost hreset hstep
  have hidle : s.st ≠ .idle := by
    obtain h | h := hst <;> rw [h] <;> exact nofun
  have hout : inSession s = false := by
    obtain h | h := hst <;> rw [inSession, h] <;> rfl
  rw [step, hhost] at hstep
  cases a with
  | reset => exact absurd rfl hreset
  | present stream =>
    obtain ⟨hpresent, -⟩ := presentStream_next_iff.1 hstep
    exact absurd hpresent hidle
  | openStream =>
    obtain ⟨-, ht⟩ | ⟨hopen, -⟩ := execOpenCommand_next_iff.1 hstep
    · exact ht
    · exact absurd hopen hidle
  | decodeNext =>
    have hrefused := execDecodeNext_outside_session (s := s.withHost rest) hout
    exact (Host.Outcome.next.inj (hrefused.symm.trans hstep)).symm

end Sys2Proof.Machine
end

section
/-!
PROOF. The two ways in which a command fails (60_exceptions.md): refused outside its states (R246), and a `DecodeError`,
which is the raise of one cause on the state that the fetch left (R236 to R238).
-/

namespace Sys2Proof.Machine

/-! ## Refused commands -/

theorem inSession_eq_false_iff {s : State} : inSession s = false ↔ s.st ≠ .start ∧ s.st ≠ .running := by
  simp [inSession]

/-- Settles O17: each command's inversion lemma says where it is refused. -/
theorem illegalCommandsAreRefused : Obligations.IllegalCommandsAreRefused :=
  ⟨fun _ hidle => execOpenCommand_next_iff.2 (.inl ⟨hidle, rfl⟩),
    fun _ hstart hrunning => execDecodeNext_outside_session (inSession_eq_false_iff.2 ⟨hstart, hrunning⟩)⟩

/-! ## `DecodeError` -/

/-- The cause of a `DecodeError`, by the place of the code (R231, R99). -/
def placeCause (s : State) : Cause :=
  if s.st = .start then .firstNotLiteral
  else if s.pendingClear then .postclearNotLiteral
  else .codeOutOfRange

theorem causeNumber_placeCause (s : State) :
    causeNumber (placeCause s) = if s.st = .start then 5 else if s.pendingClear then 6 else 7 := by
  rw [placeCause, apply_ite causeNumber, apply_ite causeNumber]
  rfl

theorem ReaderStep.placeCause_eq {s u : State} (h : ReaderStep s u) : placeCause u = placeCause s := by rw [h]; rfl

/-- An item of an invalid class raises the cause of its place, with its code, and does nothing else. -/
theorem CodeEffect.raise_of_invalid {s t : State} {i : CodeItem} {c : Code} (h : CodeEffect s i t)
    (hinvalid : isInvalidClass i = true) (hcode : codeOf (codeInstr i) = some c)
    (hclass : ClassHolds (codeContext s) (codeInstr i)) : 256 ≤ c.toNat ∧ t = raise (placeCause s) c s := by
  cases h with
  | firstInvalid =>
    obtain rfl := Option.some.inj hcode
    obtain ⟨hstart, hhigh⟩ := hclass
    have hst : s.st = .start := beq_iff_eq.1 hstart
    exact ⟨hhigh, by rw [placeCause, if_pos hst]⟩
  | postclrInvalid =>
    obtain rfl := Option.some.inj hcode
    obtain ⟨hstart, hpc, hhigh⟩ := hclass
    have hst : s.st ≠ .start := beq_eq_false_iff_ne.1 hstart
    have hpc : s.pendingClear = true := hpc
    exact ⟨hhigh, by rw [placeCause, if_neg hst, if_pos hpc]⟩
  | outOfRange =>
    obtain rfl := Option.some.inj hcode
    obtain ⟨hstart, hpc, -, hhigh, -⟩ := hclass
    have hst : s.st ≠ .start := beq_eq_false_iff_ne.1 hstart
    have hpc : ¬s.pendingClear = true := Bool.eq_false_iff.1 hpc
    exact ⟨hhigh, by rw [placeCause, if_neg hst, if_neg hpc]⟩
  | first | postclr | clr | lit | kwk | ref => cases hinvalid

/-- R206: a `DECODE_NEXT` of a session leads to `Fault` exactly by a code of an invalid class. -/
theorem stateAfter_eq_fault_iff {s : State} {f : Option Code} :
    stateAfter s f = .fault ↔ ∃ c, f = some c ∧ isInvalidClass (classify (codeContext s) c) = true := by
  cases f with
  | none => exact ⟨nofun, nofun⟩
  | some c => simp [stateAfter]

/-- Settles O54: only a code of an invalid class leads to `Fault`, and it raises on the state that the fetch left, whose
place is that of the state before. -/
theorem decodeErrorIsPrecise : Obligations.DecodeErrorIsPrecise := by
  intro s t hinv hin hexec hfault
  obtain ⟨hout, -⟩ | ⟨-, f, u, hfetch, hrun, hread, hinu, -⟩ := execDecodeNext_cases hexec
  · exact absurd (hin.symm.trans hout) nofun
  have hafter := (runFetched_st hinv.toInvBase hin hfetch hrun).symm.trans hfault
  obtain ⟨c, rfl, hinvalid⟩ := stateAfter_eq_fault_iff.1 hafter
  have hstk : u.stk = [] := by rw [hread]; exact hinv.stack_empty
  have heffect : CodeEffect u (classify (codeContext u) c) t :=
    runCode_effect ((hinv.session hin).fetched hfetch).session hstk hinu hrun
  rw [← hread.codeContext_eq] at hinvalid
  obtain ⟨hhigh, rfl⟩ :=
    heffect.raise_of_invalid hinvalid (codeOf_codeInstr_classify _ c) (classHolds_classify _ c)
  refine ⟨c, u, hfetch, hread.onlyReaderChanged u.answer, hhigh, rfl, ?_⟩
  rw [raise_err, hread.placeCause_eq, causeNumber_placeCause]

end Sys2Proof.Machine
end

section
/-!
PROOF. Reset and the bound of a decode (70_reset_and_hazards.md): what power-on and `RESET` leave (R44, R270), and that
`DECODE_NEXT`, issued again and again, ends the session within the codes that fit into the stream (R211, R282).
-/

namespace Sys2Proof.Machine

/-! ## Every decode ends (R282) -/

/-- How many more codes, each of nine bits or more, fit into the stream behind the fetch position. -/
def codesLeft (s : State) : Nat := (8 * s.input.length - fetchPos s) / 9

/-- `DECODE_NEXT` keeps the invariants: it is the step of a machine whose host issues it. -/
theorem Inv.decodeNext {s t : State} (hi : Inv s) (h : exec .decodeNext s = .next t) : Inv t := by
  obtain ⟨hkeeps, -⟩ := stepKeepsTheInvariants
  have hissued : Inv (s.withHost (.decodeNext :: s.host)) := ⟨hi.toInvBase.withHost _, hi.buffer_content⟩
  exact hkeeps _ t hissued h

/-- One `DECODE_NEXT` of a legal session ends it, or leaves one in which fewer codes fit into the rest of the stream. -/
theorem decodeNext_ends_or_consumes {s : State} (hinv : Inv s) (hin : inSession s = true) :
    ∃ t, exec .decodeNext s = .next t ∧
      ((t.st = .done ∨ t.st = .fault) ∨ (Inv t ∧ inSession t = true ∧ codesLeft t < codesLeft s)) := by
  obtain ⟨-, -, t, -, hexec, -, -, htold⟩ := decodeNextRunsOneCode s hinv hin
  refine ⟨t, hexec, ?_⟩
  obtain ⟨hrunning, -⟩ | ⟨hdone, -⟩ | ⟨hfault, -⟩ := htold
  · refine .inr ⟨hinv.decodeNext hexec, inSession_of_running hrunning, ?_⟩
    have hnotDone : t.st ≠ .done := by rw [hrunning]; exact nofun
    obtain ⟨-, -, -, hinput, -⟩ := decodeNextLeavesTheHeader s t hinv.stack_empty hexec
    obtain ⟨-, hconsumed, hle, hend⟩ := eachCodeConsumesItsWidth s t hinv hin hexec hnotDone
    rw [codesLeft, codesLeft, hinput]
    omega
  · exact .inl (.inl hdone)
  · exact .inl (.inr hfault)

theorem decodeSteps_succ {s t : State} (h : exec .decodeNext s = .next t) (n : Nat) :
    decodeSteps (n + 1) s = decodeSteps n t := by
  rw [decodeSteps, h]

/-- R210: once the session has ended, every further `DECODE_NEXT` is refused, and `STATE` stays. -/
theorem decodeSteps_of_ended (n : Nat) {s : State} (h : s.st = .done ∨ s.st = .fault) :
    ∃ t, decodeSteps n s = some t ∧ (t.st = .done ∨ t.st = .fault) := by
  induction n generalizing s with
  | zero => exact ⟨s, rfl, h⟩
  | succ n ih =>
    have hout : inSession s = false := by
      obtain h | h := h <;> rw [inSession, h] <;> rfl
    rw [decodeSteps_succ (execDecodeNext_outside_session hout)]
    exact ih h

/-- As many `DECODE_NEXT` as codes may be left, and one for the end of the stream, end every legal session. -/
theorem decodeSteps_ends {n : Nat} {s : State} (hinv : Inv s) (hin : inSession s = true) (hn : codesLeft s < n) :
    ∃ t, decodeSteps n s = some t ∧ (t.st = .done ∨ t.st = .fault) := by
  induction n generalizing s with
  | zero => exact absurd hn (Nat.not_lt_zero _)
  | succ n ih =>
    obtain ⟨t, hexec, hnext⟩ := decodeNext_ends_or_consumes hinv hin
    rw [decodeSteps_succ hexec]
    obtain hended | ⟨hinvt, hint, hfewer⟩ := hnext
    · exact decodeSteps_of_ended n hended
    · exact ih hinvt hint (Nat.lt_of_lt_of_le hfewer (Nat.le_of_lt_succ hn))

/-- Settles O60: the bound of the rule is one more than the codes that fit into the rest of the stream. -/
theorem everyDecodeEnds : Obligations.EveryDecodeEnds :=
  fun _ hinv hin => decodeSteps_ends hinv hin (Nat.lt_succ_self _)

/-! ## Power-on and `RESET` (R44, R270) -/

theorem givenAtReset_reset : GivenAtReset State.reset := by constructor <;> rfl

theorem givenAtReset_resetBlock (s : State) : GivenAtReset (resetBlock s) := by constructor <;> rfl

/-- Settles O7: `RESET` answers in every state, and it and power-on write every register the rule gives. -/
theorem resetLeavesTheGivenValues : Obligations.ResetLeavesTheGivenValues :=
  ⟨givenAtReset_reset, fun s => ⟨resetBlock s, rfl, givenAtReset_resetBlock s⟩⟩

/-- Settles O8: `RESET` is the one update `resetBlock`, which writes these fields and no others. -/
theorem resetCommandFrame : Obligations.ResetCommandFrame := fun _ => rfl

end Sys2Proof.Machine
end

section
/-!
PROOF. A step is the next of the host's actions (log entry 4): one equation for each action that may stand at the head of
the list, and one for the empty list.
-/

namespace Sys2Proof.Machine

theorem step_of_no_action {s : State} (hhost : s.host = []) : step s = .next s := by
  rw [step, hhost]

theorem step_reset {s : State} {rest : List HostAction} (hhost : s.host = .reset :: rest) :
    step s = exec .resetCommand (s.withHost rest) := by
  rw [step, hhost]

theorem step_present_of_idle {s : State} {rest : List HostAction} {stream : List Byte}
    (hhost : s.host = .present stream :: rest) (hidle : s.st = .idle) :
    step s = .next { s.withHost rest with input := stream } := by
  have hstep : step s = presentStream stream (s.withHost rest) := by rw [step, hhost]
  have hidle : (s.withHost rest).st = .idle := hidle
  rw [hstep, presentStream_idle hidle]

theorem step_decodeNext_eq_exec {s : State} {rest : List HostAction} (hhost : s.host = .decodeNext :: rest) :
    step s = exec .decodeNext (s.withHost rest) := by
  rw [step, hhost]

/-- Settles O43, by the action at the head of the list; a new stream is the one that needs `Idle`. -/
theorem stepIssuesTheHostsAction : Obligations.StepIssuesTheHostsAction :=
  fun _ _ => ⟨step_of_no_action, step_reset, step_openStream, step_decodeNext_eq_exec, fun _ => step_present_of_idle⟩

end Sys2Proof.Machine
end
